-- ==== Sys2Proof/Word.lean ====
section
/-! DEFINITION. The word types of bmp2jpeg-CORE (00_scope.md section 5.1): `u8`, `u16` and `u32` are bit vectors;
a signed field `s8` or `s16` is the same bit vector, read with `toInt`. -/

namespace Sys2Proof

/-- u8 or s8. -/
abbrev Byte := BitVec 8

/-- u16 or s16. -/
abbrev Word16 := BitVec 16

/-- u32: a command word, a register's value as read. -/
abbrev Word32 := BitVec 32

end Sys2Proof
end

