-- ==== Sys2Proof/Syntax.lean ====
section
/-! DEFINITION. The 22 commands (30_encoding.md R62, R63): one constructor per mnemonic of spec/opcode_table.json,
with the operands as the rules read them. The payload of the three data commands is no part of the word (R60). -/

namespace Sys2Proof

/-- A channel of a block: 0 = Y, 1 = Cb, 2 = Cr (00_scope.md section 5.3). -/
inductive Channel where
  | y
  | cb
  | cr
deriving DecidableEq, Repr, Inhabited

/-- The eight table windows of RDTBL, sel 0 to 7 in this order (40_system_commands.md R85). -/
inductive Window where
  | qtY
  | qtC
  | htDcY
  | htAcY
  | htDcC
  | htAcC
  | coef
  | zzb
deriving DecidableEq, Repr

/-- A command with its operands (30_encoding.md R62, R63). -/
inductive Instr where
  | nop
  | reset
  | wrreg (addr : BitVec 8) (data : Word16)
  | rdreg (addr : BitVec 8)
  | rdtbl (sel : Window) (idx : BitVec 8)
  | bldqt
  | bldht
  | wbits (len : BitVec 5) (code : Word16)
  | wbyte (byte : Byte)
  | wword (word : Word16)
  | align
  | sync
  | soi
  | app0
  | dqt
  | sof0
  | dht
  | sos
  | eoi
  | encmcu
  | encdu (ch : Channel)
  | enccoef (ch : Channel)
deriving DecidableEq, Repr

end Sys2Proof
end

