-- ==== Sys2Proof/WellFormed.lean ====
section
/-! DEFINITION. The operand ranges of 30_encoding.md R63 that the types of `Instr` do not already say: an index into a
64-entry window is below 64, a bit length is at most 16. A command that breaks one is a reserved word (R64). -/

namespace Sys2Proof

/-- How many entries a window has (30_encoding.md R63, the row `idx`). -/
def Window.entries : Window → Nat
  | .qtY | .qtC | .coef | .zzb => 64
  | .htDcY | .htAcY | .htDcC | .htAcC => 256

/-- The command is the decoding of some legal word (30_encoding.md R62, R63). -/
def Instr.wellFormed : Instr → Bool
  | .rdtbl sel idx => decide (idx.toNat < sel.entries)
  | .wbits len _ => decide (len.toNat ≤ 16)
  | .nop | .reset | .wrreg _ _ | .rdreg _ | .bldqt | .bldht | .wbyte _ | .wword _ | .align | .sync
  | .soi | .app0 | .dqt | .sof0 | .dht | .sos | .eoi | .encmcu | .encdu _ | .enccoef _ => true

end Sys2Proof
end

