-- ==== Sys2Proof/Decode.lean ====
section
/-! DEFINITION. Decoding and encoding of the 32-bit command words (30_encoding.md R60 to R66). A word is a value, not a
byte sequence (R60), so there is no byte order here. `decode` follows R66 and looks at the word alone; every word is either
one command or reserved, and a reserved word is refused under the name of the clause of R64 it breaks. -/

namespace Sys2Proof

/-- Why a word is reserved (30_encoding.md R64, clause by clause). All of them raise ILLEGAL alike. -/
inductive Reserved where
  /-- The opcode is none of the 22. -/
  | opcode
  /-- A bit of a "zero" field is 1. -/
  | zeroField
  /-- RDREG with data not 0. -/
  | rdregData
  /-- RDTBL with sel above 7. -/
  | windowSelector
  /-- RDTBL with idx above 63 in a 64-entry window. -/
  | windowIndex
  /-- WBITS with len above 16. -/
  | bitLength
  /-- ENCDU or ENCCOEF with ch = 3. -/
  | channelThree
deriving DecidableEq, Repr

/-- `w[31:24]`. -/
def opField (w : Word32) : BitVec 8 := w.extractLsb' 24 8

/-- `ch` of format D, `w[1:0]`: 0 = Y, 1 = Cb, 2 = Cr, 3 is reserved (30_encoding.md R63, R64). -/
def channelOf (c : BitVec 2) : Option Channel :=
  if c = 0 then some .y
  else if c = 1 then some .cb
  else if c = 2 then some .cr
  else none

/-- `sel` of format T, `w[11:8]`: 0 to 7, the rest is reserved (40_system_commands.md R85). -/
def windowOf (sel : BitVec 4) : Option Window :=
  if sel = 0 then some .qtY
  else if sel = 1 then some .qtC
  else if sel = 2 then some .htDcY
  else if sel = 3 then some .htAcY
  else if sel = 4 then some .htDcC
  else if sel = 5 then some .htAcC
  else if sel = 6 then some .coef
  else if sel = 7 then some .zzb
  else none

/-- Format N: no operand, `w[23:0]` is zero (30_encoding.md R61). -/
def decodeN (i : Instr) (w : Word32) : Except Reserved Instr :=
  if w.extractLsb' 0 24 = 0 then .ok i else .error .zeroField

/-- RDREG, format R with data 0 (30_encoding.md R61, R64). -/
def decodeRdreg (w : Word32) : Except Reserved Instr :=
  if w.extractLsb' 0 16 = 0 then .ok (.rdreg (w.extractLsb' 16 8)) else .error .rdregData

/-- Format T (30_encoding.md R61, R66). -/
def decodeT (w : Word32) : Except Reserved Instr :=
  if w.extractLsb' 12 12 = 0 then
    match windowOf (w.extractLsb' 8 4) with
    | none => .error .windowSelector
    | some sel =>
      if (w.extractLsb' 0 8).toNat < sel.entries then .ok (.rdtbl sel (w.extractLsb' 0 8))
      else .error .windowIndex
  else .error .zeroField

/-- Format B (30_encoding.md R61, R66). -/
def decodeB (w : Word32) : Except Reserved Instr :=
  if w.extractLsb' 21 3 = 0 then
    if (w.extractLsb' 16 5).toNat ≤ 16 then .ok (.wbits (w.extractLsb' 16 5) (w.extractLsb' 0 16))
    else .error .bitLength
  else .error .zeroField

/-- Format Y (30_encoding.md R61, R66). -/
def decodeY (w : Word32) : Except Reserved Instr :=
  if w.extractLsb' 8 16 = 0 then .ok (.wbyte (w.extractLsb' 0 8)) else .error .zeroField

/-- Format W (30_encoding.md R61, R66). -/
def decodeW (w : Word32) : Except Reserved Instr :=
  if w.extractLsb' 16 8 = 0 then .ok (.wword (w.extractLsb' 0 16)) else .error .zeroField

/-- Format D (30_encoding.md R61, R66). -/
def decodeD (i : Channel → Instr) (w : Word32) : Except Reserved Instr :=
  if w.extractLsb' 2 22 = 0 then
    match channelOf (w.extractLsb' 0 2) with
    | none => .error .channelThree
    | some c => .ok (i c)
  else .error .zeroField

/-- Decode(w), 30_encoding.md R66 with the opcode map of R62. -/
def decode (w : Word32) : Except Reserved Instr :=
  match (opField w).toNat with
  | 0x00 => decodeN .nop w
  | 0x01 => decodeN .reset w
  | 0x02 => .ok (.wrreg (w.extractLsb' 16 8) (w.extractLsb' 0 16))
  | 0x03 => decodeRdreg w
  | 0x04 => decodeT w
  | 0x10 => decodeN .bldqt w
  | 0x11 => decodeN .bldht w
  | 0x20 => decodeB w
  | 0x21 => decodeY w
  | 0x22 => decodeW w
  | 0x23 => decodeN .align w
  | 0x24 => decodeN .sync w
  | 0x30 => decodeN .soi w
  | 0x31 => decodeN .app0 w
  | 0x32 => decodeN .dqt w
  | 0x33 => decodeN .sof0 w
  | 0x34 => decodeN .dht w
  | 0x35 => decodeN .sos w
  | 0x36 => decodeN .eoi w
  | 0x40 => decodeN .encmcu w
  | 0x41 => decodeD .encdu w
  | 0x42 => decodeD .enccoef w
  | _ => .error .opcode

/-- The instruction the decoder reads from the table's word `w` of `nbits` bits (every command is one 32-bit word, R60). -/
def decodeTableWord (nbits w : Nat) : Option Instr :=
  match decode (BitVec.ofNat 32 (w % 2 ^ nbits)) with
  | .ok i => some i
  | .error _ => none

/-- The two bits of `ch` (30_encoding.md R63). -/
def channelBits : Channel → BitVec 2
  | .y => 0
  | .cb => 1
  | .cr => 2

/-- The four bits of `sel` (40_system_commands.md R85). -/
def windowBits : Window → BitVec 4
  | .qtY => 0
  | .qtC => 1
  | .htDcY => 2
  | .htAcY => 3
  | .htDcC => 4
  | .htAcC => 5
  | .coef => 6
  | .zzb => 7

/-- Format N: the opcode and 24 zero bits. -/
def encodeN (op : BitVec 8) : Word32 := op ++ (0 : BitVec 24)

/-- The word of a command, written from the formats of 30_encoding.md R61 and the opcodes of R62. -/
def encode : Instr → Word32
  | .nop => encodeN 0x00
  | .reset => encodeN 0x01
  | .wrreg addr data => (0x02 : BitVec 8) ++ addr ++ data
  | .rdreg addr => (0x03 : BitVec 8) ++ addr ++ (0 : BitVec 16)
  | .rdtbl sel idx => (0x04 : BitVec 8) ++ (0 : BitVec 12) ++ windowBits sel ++ idx
  | .bldqt => encodeN 0x10
  | .bldht => encodeN 0x11
  | .wbits len code => (0x20 : BitVec 8) ++ (0 : BitVec 3) ++ len ++ code
  | .wbyte byte => (0x21 : BitVec 8) ++ (0 : BitVec 16) ++ byte
  | .wword word => (0x22 : BitVec 8) ++ (0 : BitVec 8) ++ word
  | .align => encodeN 0x23
  | .sync => encodeN 0x24
  | .soi => encodeN 0x30
  | .app0 => encodeN 0x31
  | .dqt => encodeN 0x32
  | .sof0 => encodeN 0x33
  | .dht => encodeN 0x34
  | .sos => encodeN 0x35
  | .eoi => encodeN 0x36
  | .encmcu => encodeN 0x40
  | .encdu ch => (0x41 : BitVec 8) ++ (0 : BitVec 22) ++ channelBits ch
  | .enccoef ch => (0x42 : BitVec 8) ++ (0 : BitVec 22) ++ channelBits ch

end Sys2Proof
end

