-- ==== Sys2Proof/Config.lean ====
section
/-! DEFINITION. What a build of the core fixes (00_scope.md R5, 93_implementation_defined.md part 3), as plain data, and
the free values: what the spec leaves unspecified, each an opaque constant without a body, so that no proof sees what it is.

The build's constants stand in State (`State.build`) because the host's `step` takes nothing but a state; no step changes
them, and a statement about every state is a statement about every build (log 5). -/

namespace Sys2Proof

/-- An entry of a Huffman code table: (len 0..16, code); len 0 means that the symbol has no code (10_state.md R26). -/
structure HuffEntry where
  len  : BitVec 5
  code : Word16
deriving DecidableEq, Repr, Inhabited

/-- A Huffman specification: how many codes of each length 1..16, and the symbols in order of increasing code
(10_state.md R29). -/
structure HuffSpec where
  counts  : Vector Byte 16
  symbols : List Byte
deriving DecidableEq, Repr

/-- Which instance of the colour transform the build has: the default, or another one with property CscTol1
(42_transform.md R100, R101). -/
inductive CscInstance where
  | ideal
  | other
deriving DecidableEq, Repr

/-- Which instance of DCT and quantizer the build has: the default FDCTQ_IDEAL, the computable FDCTQ_TAB, or another one
with property FdctqTol1 (42_transform.md R104, R105, R112). -/
inductive FdctqInstance where
  | ideal
  | tab
  | other
deriving DecidableEq, Repr

/-- How far an instance with a tolerance of 1 is from the default at one output. -/
inductive Deviation where
  | below
  | same
  | above
deriving DecidableEq, Repr, Inhabited

/-- The configuration constants of one build of the core (00_scope.md R5). -/
structure Build where
  /-- SINK_CAP, open: 1 .. 2^32 - 1. -/
  sinkCap : Word32
  /-- ZZ[i], the zigzag position of natural index i (10_state.md R27). -/
  zz      : Vector (Fin 64) 64
  /-- QBASE[q][i], natural order, 0 luma, 1 chroma (10_state.md R28). -/
  qbase   : Vector (Vector Byte 64) 2
  /-- HSPEC[t]: 0 luma DC, 1 luma AC, 2 chroma DC, 3 chroma AC (10_state.md R29). -/
  hspec   : Vector HuffSpec 4
  csc     : CscInstance
  fdctq   : FdctqInstance
deriving DecidableEq, Repr

namespace Config

/-! The value of each unspecified piece of core state, at the n-th moment at which some is drawn: after a fault
(60_exceptions.md R173) and after Reset() (70_reset_and_hazards.md R185). One constant for each field, so that no two are
related (log 8, 9). -/

opaque freeQtValid : Nat → Bool
opaque freeHtValid : Nat → Bool
opaque freeDuValid : Nat → Bool
opaque freeNextch : Nat → Channel
opaque freeBlkcnt : Nat → Word32
opaque freeWidth : Nat → Word16
opaque freeHeight : Nat → Word16
opaque freeScale : Nat → Word16
opaque freeDcp : Nat → Vector Word16 3
opaque freeQt : Nat → Vector (Vector Byte 64) 2
opaque freeHt : Nat → Vector (Vector HuffEntry 256) 4
opaque freeCoef : Nat → Vector Word16 64
opaque freeZzb : Nat → Vector Word16 64
opaque freeAcc : Nat → Byte
opaque freeNbits : Nat → BitVec 3
opaque freeSb : Nat → List Byte

/-- Whether the destination took byte `i` of the chunk of the `n`-th `out` transaction, when it answered that one `fail`
(20_memory.md R44, R168: "an unspecified part of the failed chunk"; log 10). -/
opaque sinkTook : (n i : Nat) → Bool

/-- The colour transform of a build with `CscInstance.other`, as its distance from CSC_IDEAL at one pixel and channel
(42_transform.md R101, CscTol1; log 13). -/
opaque cscDeviation : (ch : Channel) → (b g r : Byte) → Deviation

/-- The DCT and quantizer of a build with `FdctqInstance.other`, as its distance from FDCTQ_IDEAL at one coefficient: a
function of the samples and steps alone (42_transform.md R105, FdctqTol1 and FdctqPure; log 13). -/
opaque fdctqDeviation : (samples steps : Vector Byte 64) → (i : Fin 64) → Deviation

end Config

end Sys2Proof
end

