-- ==== Sys2Proof/Machine/Constants.lean ====
section
/-! DEFINITION. The default values of the configuration constants as the spec lists them (10_state.md R27, R28, R29), and
the three JFIF density fields (00_scope.md R5, APP0_UNITS, APP0_XD, APP0_YD). -/

namespace Sys2Proof.Machine

/-- A listed table of n entries. -/
def table {α : Type} (n : Nat) (l : List α) (h : l.length = n) : Vector α n := ⟨l.toArray, by simp [h]⟩

/-- The table whose i-th entry is f i. -/
def vec {α : Type} {n : Nat} (f : Fin n → α) : Vector α n := ⟨(List.ofFn f).toArray, by simp⟩

/-- ZZ, natural index to zigzag position, row by row (10_state.md R27). -/
def defaultZzList : List (Fin 64) :=
  [ 0,  1,  5,  6, 14, 15, 27, 28] ++
  [ 2,  4,  7, 13, 16, 26, 29, 42] ++
  [ 3,  8, 12, 17, 25, 30, 41, 43] ++
  [ 9, 11, 18, 24, 31, 40, 44, 53] ++
  [10, 19, 23, 32, 39, 45, 52, 54] ++
  [20, 22, 33, 38, 46, 51, 55, 60] ++
  [21, 34, 37, 47, 50, 56, 59, 61] ++
  [35, 36, 48, 49, 57, 58, 62, 63]

/-- QBASE[0], luma, natural order (10_state.md R28). -/
def defaultQbaseLuma : List Byte :=
  [16,  11,  10,  16,  24,  40,  51,  61] ++
  [12,  12,  14,  19,  26,  58,  60,  55] ++
  [14,  13,  16,  24,  40,  57,  69,  56] ++
  [14,  17,  22,  29,  51,  87,  80,  62] ++
  [18,  22,  37,  56,  68, 109, 103,  77] ++
  [24,  35,  55,  64,  81, 104, 113,  92] ++
  [49,  64,  78,  87, 103, 121, 120, 101] ++
  [72,  92,  95,  98, 112, 100, 103,  99]

/-- QBASE[1], chroma, natural order (10_state.md R28). -/
def defaultQbaseChroma : List Byte :=
  [17,  18,  24,  47,  99,  99,  99,  99] ++
  [18,  21,  26,  66,  99,  99,  99,  99] ++
  [24,  26,  56,  99,  99,  99,  99,  99] ++
  [47,  66,  99,  99,  99,  99,  99,  99] ++
  [99,  99,  99,  99,  99,  99,  99,  99] ++
  [99,  99,  99,  99,  99,  99,  99,  99] ++
  [99,  99,  99,  99,  99,  99,  99,  99] ++
  [99,  99,  99,  99,  99,  99,  99,  99]

/-- HSPEC[0], luma DC (10_state.md R29). -/
def defaultLumaDc : HuffSpec where
  counts := table 16 [0, 1, 5, 1, 1, 1, 1, 1, 1, 0, 0, 0, 0, 0, 0, 0] rfl
  symbols := [0x00, 0x01, 0x02, 0x03, 0x04, 0x05, 0x06, 0x07, 0x08, 0x09, 0x0A, 0x0B]

/-- HSPEC[1], luma AC (10_state.md R29). -/
def defaultLumaAc : HuffSpec where
  counts := table 16 [0, 2, 1, 3, 3, 2, 4, 3, 5, 5, 4, 4, 0, 0, 1, 125] rfl
  symbols :=
    [0x01, 0x02, 0x03, 0x00, 0x04, 0x11, 0x05, 0x12, 0x21, 0x31, 0x41, 0x06, 0x13, 0x51, 0x61, 0x07] ++
    [0x22, 0x71, 0x14, 0x32, 0x81, 0x91, 0xA1, 0x08, 0x23, 0x42, 0xB1, 0xC1, 0x15, 0x52, 0xD1, 0xF0] ++
    [0x24, 0x33, 0x62, 0x72, 0x82, 0x09, 0x0A, 0x16, 0x17, 0x18, 0x19, 0x1A, 0x25, 0x26, 0x27, 0x28] ++
    [0x29, 0x2A, 0x34, 0x35, 0x36, 0x37, 0x38, 0x39, 0x3A, 0x43, 0x44, 0x45, 0x46, 0x47, 0x48, 0x49] ++
    [0x4A, 0x53, 0x54, 0x55, 0x56, 0x57, 0x58, 0x59, 0x5A, 0x63, 0x64, 0x65, 0x66, 0x67, 0x68, 0x69] ++
    [0x6A, 0x73, 0x74, 0x75, 0x76, 0x77, 0x78, 0x79, 0x7A, 0x83, 0x84, 0x85, 0x86, 0x87, 0x88, 0x89] ++
    [0x8A, 0x92, 0x93, 0x94, 0x95, 0x96, 0x97, 0x98, 0x99, 0x9A, 0xA2, 0xA3, 0xA4, 0xA5, 0xA6, 0xA7] ++
    [0xA8, 0xA9, 0xAA, 0xB2, 0xB3, 0xB4, 0xB5, 0xB6, 0xB7, 0xB8, 0xB9, 0xBA, 0xC2, 0xC3, 0xC4, 0xC5] ++
    [0xC6, 0xC7, 0xC8, 0xC9, 0xCA, 0xD2, 0xD3, 0xD4, 0xD5, 0xD6, 0xD7, 0xD8, 0xD9, 0xDA, 0xE1, 0xE2] ++
    [0xE3, 0xE4, 0xE5, 0xE6, 0xE7, 0xE8, 0xE9, 0xEA, 0xF1, 0xF2, 0xF3, 0xF4, 0xF5, 0xF6, 0xF7, 0xF8] ++
    [0xF9, 0xFA]

/-- HSPEC[2], chroma DC (10_state.md R29). -/
def defaultChromaDc : HuffSpec where
  counts := table 16 [0, 3, 1, 1, 1, 1, 1, 1, 1, 1, 1, 0, 0, 0, 0, 0] rfl
  symbols := [0x00, 0x01, 0x02, 0x03, 0x04, 0x05, 0x06, 0x07, 0x08, 0x09, 0x0A, 0x0B]

/-- HSPEC[3], chroma AC (10_state.md R29). -/
def defaultChromaAc : HuffSpec where
  counts := table 16 [0, 2, 1, 2, 4, 4, 3, 4, 7, 5, 4, 4, 0, 1, 2, 119] rfl
  symbols :=
    [0x00, 0x01, 0x02, 0x03, 0x11, 0x04, 0x05, 0x21, 0x31, 0x06, 0x12, 0x41, 0x51, 0x07, 0x61, 0x71] ++
    [0x13, 0x22, 0x32, 0x81, 0x08, 0x14, 0x42, 0x91, 0xA1, 0xB1, 0xC1, 0x09, 0x23, 0x33, 0x52, 0xF0] ++
    [0x15, 0x62, 0x72, 0xD1, 0x0A, 0x16, 0x24, 0x34, 0xE1, 0x25, 0xF1, 0x17, 0x18, 0x19, 0x1A, 0x26] ++
    [0x27, 0x28, 0x29, 0x2A, 0x35, 0x36, 0x37, 0x38, 0x39, 0x3A, 0x43, 0x44, 0x45, 0x46, 0x47, 0x48] ++
    [0x49, 0x4A, 0x53, 0x54, 0x55, 0x56, 0x57, 0x58, 0x59, 0x5A, 0x63, 0x64, 0x65, 0x66, 0x67, 0x68] ++
    [0x69, 0x6A, 0x73, 0x74, 0x75, 0x76, 0x77, 0x78, 0x79, 0x7A, 0x82, 0x83, 0x84, 0x85, 0x86, 0x87] ++
    [0x88, 0x89, 0x8A, 0x92, 0x93, 0x94, 0x95, 0x96, 0x97, 0x98, 0x99, 0x9A, 0xA2, 0xA3, 0xA4, 0xA5] ++
    [0xA6, 0xA7, 0xA8, 0xA9, 0xAA, 0xB2, 0xB3, 0xB4, 0xB5, 0xB6, 0xB7, 0xB8, 0xB9, 0xBA, 0xC2, 0xC3] ++
    [0xC4, 0xC5, 0xC6, 0xC7, 0xC8, 0xC9, 0xCA, 0xD2, 0xD3, 0xD4, 0xD5, 0xD6, 0xD7, 0xD8, 0xD9, 0xDA] ++
    [0xE2, 0xE3, 0xE4, 0xE5, 0xE6, 0xE7, 0xE8, 0xE9, 0xEA, 0xF2, 0xF3, 0xF4, 0xF5, 0xF6, 0xF7, 0xF8] ++
    [0xF9, 0xFA]

/-- The SINK_CAP of `State.reset`. DESIGN CHOICE (log 5): the spec leaves it open; 4096 is what most vectors of
95_test_vectors.md use. Unsafe. -/
def defaultSinkCap : Word32 := 4096

/-- The default build: the tables of 10_state.md R27 to R29, CSC_IDEAL and FDCTQ_IDEAL (00_scope.md R5). -/
def defaultBuild : Build where
  sinkCap := defaultSinkCap
  zz := table 64 defaultZzList rfl
  qbase := table 2 [table 64 defaultQbaseLuma rfl, table 64 defaultQbaseChroma rfl] rfl
  hspec := table 4 [defaultLumaDc, defaultLumaAc, defaultChromaDc, defaultChromaAc] rfl
  csc := .ideal
  fdctq := .ideal

/-- APP0_UNITS (00_scope.md R5). -/
def app0Units : Byte := 0

/-- APP0_XD (00_scope.md R5). -/
def app0Xd : Word16 := 1

/-- APP0_YD (00_scope.md R5). -/
def app0Yd : Word16 := 1

end Sys2Proof.Machine
end

