-- ==== Sys2Proof/Machine/State.lean ====
section
/-! DEFINITION. The state of the core (10_state.md R10) and of its five ports (R30), as plain data, and the state right after
reset (70_reset_and_hazards.md R185). -/

namespace Sys2Proof.Machine

/-- The sequencer's phases (10_state.md R14); the values 9 to 14 are unreachable and not represented. -/
inductive Phase where
  | idle
  | sSoi
  | sApp0
  | sDqt
  | sSof0
  | sDht
  | scan
  | aligned
  | done
  | fault
deriving DecidableEq, Repr, Inhabited

/-- The nine fault causes of the core (60_exceptions.md R160). They are values of the FAULT field: taking one is a next state
of the model, not a stop. -/
inductive FaultCause where
  /-- 1: a reserved command word. -/
  | illegal
  /-- 2: the command is not legal in the current PHASE / NEXTCH. -/
  | seq
  /-- 3: SOI with a zero dimension. -/
  | cfg
  /-- 4: a table that has not been built would be read. -/
  | tblInvalid
  /-- 5: BLDHT with a malformed Huffman specification. -/
  | hspecBad
  /-- 6: a symbol to be written has no code. -/
  | uncoded
  /-- 7: the host answered an `out` transaction with `fail`. -/
  | sinkWrite
  /-- 8: the host answered a payload pull with `SourceFailure`. -/
  | srcRead
  /-- 9: an undefined register address, or a write to a read-only register. -/
  | addr
deriving DecidableEq, Repr

/-- The host's answer to one `out` transaction (20_memory.md R44, R45). -/
inductive SinkAnswer where
  | ok
  | fail
deriving DecidableEq, Repr

/-- The host's answer to one payload pull (20_memory.md R47). -/
inductive PayloadAnswer where
  | bytes (b : List Byte)
  | sourceFailure
deriving DecidableEq, Repr

/-- One act of the host between two commands (10_state.md R10, R30; 20_memory.md R58). -/
inductive HostEvent where
  /-- A command word on port `cmd`. -/
  | cmd (w : Word32)
  /-- Hardware reset on port `rst` (70_reset_and_hazards.md R186). -/
  | rst
  /-- The host clears or sets aside its `OUT` (20_memory.md R44, R58). -/
  | takeOut
deriving DecidableEq, Repr

/-- One response on port `rsp` (20_memory.md R42). -/
structure Response where
  status : BitVec 4
  data   : Word32
deriving DecidableEq, Repr

/-- The output path: the bit accumulator (10_state.md R31), the sink buffer (R32) and, on the host's side of port `out`, the
destination and the host's answers (20_memory.md R43 to R45). -/
structure Stream where
  /-- ACC: the pending bits, left-aligned. -/
  acc        : Byte
  /-- NBITS: how many bits are pending. -/
  nbits      : BitVec 3
  /-- SB[0 .. SBCUR-1]: the bytes appended and not yet delivered. SBCUR is its length (log 11). -/
  sb         : List Byte
  /-- OUT, the host's: the bytes of the destination. -/
  out        : List Byte
  /-- Every chunk offered on port `out` so far, oldest first (log 2). -/
  chunks     : List (List Byte)
  /-- The host's answers to the next `out` transactions, in order (log 3). -/
  answers    : List SinkAnswer
  /-- The host's answer to every `out` transaction after those (log 3). -/
  thereafter : SinkAnswer
deriving DecidableEq, Repr

/-- The state of the core and of its ports. -/
structure State where
  phase     : Phase
  /-- FAULT: the sticky fault cause; no cause is the value 0. -/
  fault     : Option FaultCause
  /-- FPHASE: PHASE when the fault was taken. -/
  fphase    : Phase
  qtValid   : Bool
  htValid   : Bool
  duValid   : Bool
  nextch    : Channel
  blkcnt    : Word32
  width     : Word16
  height    : Word16
  scale     : Word16
  /-- DCP[0..2], s16. -/
  dcp       : Vector Word16 3
  /-- QT[0..1][0..63], natural order. -/
  qt        : Vector (Vector Byte 64) 2
  /-- HT[0..3][0..255]. -/
  ht        : Vector (Vector HuffEntry 256) 4
  /-- COEF[0..63], s16, natural order. -/
  coef      : Vector Word16 64
  /-- ZZB[0..63], s16, zigzag order. -/
  zzb       : Vector Word16 64
  stream    : Stream
  /-- What the host does next, in order (log 1). -/
  inputs    : List HostEvent
  /-- The host's answers to the next payload pulls, in order (log 4). -/
  payloads  : List PayloadAnswer
  /-- Every response so far, oldest first (log 2). -/
  rsp       : List Response
  /-- The constants of this build of the core (log 5). -/
  build     : Build
  /-- The model's own: how often unspecified state has been drawn from the free values of Config (log 9). -/
  freeCount : Nat
deriving DecidableEq, Repr

/-- Why the model stops with a fault: never. Every command word is either executed or answered with a fault cause
(60_exceptions.md R170, R174), which is a next state; so the type is empty, which is safe. -/
inductive Fault where
deriving DecidableEq, Repr

/-- Why the model has no meaning for an instruction. -/
inductive Refusal where
  /-- Raised by `exec` for an instruction without a meaning, safe. No arm raises it: every command has its meaning. -/
  | notModelled (mnemonic : String)
deriving DecidableEq, Repr

/-- The state right after reset (70_reset_and_hazards.md R185). DESIGN CHOICE, unsafe: QT, HT, COEF and ZZB, for which the
spec gives no value, hold zeros (log 7); the ports are empty and the host accepts every delivery (log 1 to 4). -/
def State.reset : State where
  phase := .idle
  fault := none
  fphase := .idle
  qtValid := false
  htValid := false
  duValid := false
  nextch := .y
  blkcnt := 0
  width := 0
  height := 0
  scale := 50
  dcp := Vector.replicate 3 0
  qt := Vector.replicate 2 (Vector.replicate 64 0)
  ht := Vector.replicate 4 (Vector.replicate 256 ⟨0, 0⟩)
  coef := Vector.replicate 64 0
  zzb := Vector.replicate 64 0
  stream := { acc := 0, nbits := 0, sb := [], out := [], chunks := [], answers := [], thereafter := .ok }
  inputs := []
  payloads := []
  rsp := []
  build := defaultBuild
  freeCount := 0

end Sys2Proof.Machine
end

