-- ==== Sys2Proof/Machine/Flags.lean ====
section
/-! DEFINITION. The flag state of the core (10_state.md R15: no condition codes; three valid bits, FAULT and FPHASE) and the
STATUS register that shows it (R17). -/

namespace Sys2Proof.Machine

/-- The value of PHASE (10_state.md R14). -/
def Phase.code : Phase → BitVec 4
  | .idle => 0
  | .sSoi => 1
  | .sApp0 => 2
  | .sDqt => 3
  | .sSof0 => 4
  | .sDht => 5
  | .scan => 6
  | .aligned => 7
  | .done => 8
  | .fault => 15

/-- The code of a fault cause (60_exceptions.md R160). -/
def FaultCause.code : FaultCause → BitVec 4
  | .illegal => 1
  | .seq => 2
  | .cfg => 3
  | .tblInvalid => 4
  | .hspecBad => 5
  | .uncoded => 6
  | .sinkWrite => 7
  | .srcRead => 8
  | .addr => 9

/-- The FAULT field: 0 if no fault was taken (60_exceptions.md R160). -/
def faultField (f : Option FaultCause) : BitVec 4 :=
  match f with
  | none => 0
  | some c => c.code

/-- The value of a one-bit field. -/
def flagBit (b : Bool) : BitVec 1 := if b then 1 else 0

/-- STATUS outside the FAULT phase, field by field from bit 31 down: ACC, reserved 0, DU_VALID, NBITS, FPHASE, FAULT, NEXTCH,
HT_VALID, QT_VALID, PHASE (10_state.md R17). -/
def statusFields (s : State) : Word32 :=
  s.stream.acc ++ (0 : BitVec 4) ++ flagBit s.duValid ++ s.stream.nbits ++ s.fphase.code ++ faultField s.fault ++
    channelBits s.nextch ++ flagBit s.htValid ++ flagBit s.qtValid ++ s.phase.code

/-- STATUS in the FAULT phase: every field but PHASE, FAULT and FPHASE reads 0 (10_state.md R17, 60_exceptions.md R174). -/
def statusInFault (s : State) : Word32 :=
  (0 : BitVec 16) ++ s.fphase.code ++ faultField s.fault ++ (0 : BitVec 4) ++ Phase.fault.code

/-- The STATUS register (10_state.md R17). -/
def statusWord (s : State) : Word32 :=
  if s.phase = .fault then statusInFault s else statusFields s

end Sys2Proof.Machine
end

