-- ==== Sys2Proof/Machine/Sequencer.lean ====
section
/-! DEFINITION. The checks that come before a command's own effect (40_system_commands.md R80 steps 2 to 5) and the table of
which command is legal when (R86). -/

namespace Sys2Proof.Machine

/-- Legal(d, PHASE, NEXTCH), 40_system_commands.md R86. -/
def legal (i : Instr) (p : Phase) (next : Channel) : Bool :=
  match i with
  | .nop | .reset | .rdreg _ | .rdtbl _ _ | .sync => decide (p ≠ .fault)
  | .wrreg _ _ | .bldqt | .bldht | .soi => decide (p = .idle ∨ p = .done)
  | .app0 => decide (p = .sSoi)
  | .dqt => decide (p = .sApp0)
  | .sof0 => decide (p = .sDqt)
  | .dht => decide (p = .sSof0)
  | .sos => decide (p = .sDht)
  | .encmcu | .align => decide (p = .scan ∧ next = .y)
  | .encdu c | .enccoef c => decide (p = .scan ∧ c = next)
  | .wbits _ _ => decide (p = .scan)
  | .wbyte _ | .wword _ =>
    decide (p = .sSoi ∨ p = .sApp0 ∨ p = .sDqt ∨ p = .sSof0 ∨ p = .sDht ∨ p = .aligned)
  | .eoi => decide (p = .aligned)

/-- A defined register address (10_state.md R16). -/
def registerDefined (addr : BitVec 8) : Bool := decide (addr.toNat ≤ 0x0A)

/-- WIDTH, HEIGHT and SCALE are the writable registers (10_state.md R16). -/
def registerWritable (addr : BitVec 8) : Bool := decide (addr = 0x01 ∨ addr = 0x02 ∨ addr = 0x03)

/-- Step 3 of 40_system_commands.md R80, the address check: only WRREG and RDREG carry an address. -/
def addressOk : Instr → Bool
  | .wrreg addr _ => registerDefined addr && registerWritable addr
  | .rdreg addr => registerDefined addr
  | .nop | .reset | .rdtbl _ _ | .bldqt | .bldht | .wbits _ _ | .wbyte _ | .wword _ | .align | .sync
  | .soi | .app0 | .dqt | .sof0 | .dht | .sos | .eoi | .encmcu | .encdu _ | .enccoef _ => true

/-- The valid bit that guards a table window (40_system_commands.md R85, the column "needs"). -/
def windowValid (sel : Window) (s : State) : Bool :=
  match sel with
  | .qtY | .qtC => s.qtValid
  | .htDcY | .htAcY | .htDcC | .htAcC => s.htValid
  | .coef | .zzb => s.duValid

/-- Step 5 of 40_system_commands.md R80, the preconditions of SOI (TBL_INVALID before CFG) and of RDTBL. -/
def precondition (i : Instr) (s : State) : Option FaultCause :=
  match i with
  | .soi =>
    if s.qtValid = false ∨ s.htValid = false then some .tblInvalid
    else if s.width = 0 ∨ s.height = 0 then some .cfg
    else none
  | .rdtbl sel _ => if windowValid sel s = false then some .tblInvalid else none
  | .nop | .reset | .wrreg _ _ | .rdreg _ | .bldqt | .bldht | .wbits _ _ | .wbyte _ | .wword _ | .align | .sync
  | .app0 | .dqt | .sof0 | .dht | .sos | .eoi | .encmcu | .encdu _ | .enccoef _ => none

/-- Steps 2 to 5 of 40_system_commands.md R80 in their order: the first check that fails names the cause
(60_exceptions.md R172). A command that no word decodes to counts as a reserved word (log 15). -/
def check (i : Instr) (s : State) : Option FaultCause :=
  if i.wellFormed = false then some .illegal
  else if addressOk i = false then some .addr
  else if legal i s.phase s.nextch = false then some .seq
  else precondition i s

end Sys2Proof.Machine
end

