-- ==== Sys2Proof/Machine/Ops.lean ====
section
/-! DEFINITION. The operations every command shares: responding, taking a fault and resetting (the return from one), the
sink buffer, the payload pull, and the procedure Execute of 40_system_commands.md R80. -/

namespace Sys2Proof.Machine

/-! ## A command's pseudocode, which may raise a fault half way -/

/-- What a piece of pseudocode ends in: it ran to its end, or it raised a fault with what it had done by then. -/
inductive Run (α : Type) where
  | done (a : α)
  | raised (c : FaultCause) (a : α)
deriving DecidableEq, Repr

/-- One piece after another; what follows a raised fault does not run (40_system_commands.md R80). -/
def Run.andThen {α : Type} (r : Run α) (k : α → Run α) : Run α :=
  match r with
  | .done a => k a
  | .raised c a => .raised c a

/-- A plain change of state after a piece that may raise a fault; it does not happen if the fault was raised. -/
def Run.thenDo {α : Type} (r : Run α) (f : α → α) : Run α := r.andThen fun a => .done (f a)

/-- The same run, its state seen as part of a larger one, whether or not it raised a fault. -/
def Run.map {α β : Type} (f : α → β) (r : Run α) : Run β :=
  match r with
  | .done a => .done (f a)
  | .raised c a => .raised c (f a)

/-! ## Responses, faults and reset -/

/-- respond(status, data): one response on port `rsp` (20_memory.md R42). -/
def respond (status : BitVec 4) (data : Word32) (s : State) : State :=
  { s with rsp := s.rsp ++ [⟨status, data⟩] }

/-- Every piece of core state but PHASE, FAULT and FPHASE becomes unspecified (60_exceptions.md R173): each takes a free
value. What is the host's, and the build, stay (log 9). -/
def forgetCore (s : State) : State :=
  { s with
    qtValid := Config.freeQtValid s.freeCount
    htValid := Config.freeHtValid s.freeCount
    duValid := Config.freeDuValid s.freeCount
    nextch := Config.freeNextch s.freeCount
    blkcnt := Config.freeBlkcnt s.freeCount
    width := Config.freeWidth s.freeCount
    height := Config.freeHeight s.freeCount
    scale := Config.freeScale s.freeCount
    dcp := Config.freeDcp s.freeCount
    qt := Config.freeQt s.freeCount
    ht := Config.freeHt s.freeCount
    coef := Config.freeCoef s.freeCount
    zzb := Config.freeZzb s.freeCount
    stream :=
      { s.stream with
        acc := Config.freeAcc s.freeCount
        nbits := Config.freeNbits s.freeCount
        sb := Config.freeSb s.freeCount }
    freeCount := s.freeCount + 1 }

/-- Taking a fault: `Fault(cause)` of 60_exceptions.md R170, with the response that reports it. -/
def takeFault (c : FaultCause) (s : State) : State :=
  respond c.code 0 { forgetCore s with phase := .fault, fault := some c, fphase := s.phase }

/-- `Reset()`, 70_reset_and_hazards.md R185: the one way out of the FAULT phase (60_exceptions.md R175). QT, HT, COEF and ZZB
are unspecified after it and take free values (log 8). OUT and all else that is the host's stay (R187). -/
def doReset (s : State) : State :=
  { s with
    phase := .idle
    fault := none
    fphase := .idle
    qtValid := false
    htValid := false
    duValid := false
    nextch := .y
    blkcnt := 0
    width := 0
    height := 0
    scale := 50
    dcp := Vector.replicate 3 0
    qt := Config.freeQt s.freeCount
    ht := Config.freeHt s.freeCount
    coef := Config.freeCoef s.freeCount
    zzb := Config.freeZzb s.freeCount
    stream := { s.stream with acc := 0, nbits := 0, sb := [] }
    freeCount := s.freeCount + 1 }

/-- A command in the FAULT phase that is not one of the three that execute there: answered with the stored cause, and nothing
else happens (60_exceptions.md R174). -/
def refuseInFault (s : State) : State := respond (faultField s.fault) 0 s

/-- The FAULT-phase gate, step 1 of 40_system_commands.md R80 (60_exceptions.md R174). -/
def faultGate (i : Instr) (s : State) : State :=
  if i = .nop then respond 0 0 s
  else if i = .reset then respond 0 0 (doReset s)
  else if i = .rdreg 0x00 then respond 0 (statusInFault s) s
  else refuseInFault s

/-- A reserved word (40_system_commands.md R80 steps 1 and 2; 60_exceptions.md R161, R174). -/
def reservedWord (s : State) : State :=
  if s.phase = .fault then refuseInFault s else takeFault .illegal s

/-- The host clears or sets aside what `OUT` holds (20_memory.md R44, R58); the core is not concerned. -/
def takeOut (s : State) : State := { s with stream := { s.stream with out := [] } }

/-! ## The sink buffer -/

/-- SBCUR, the write cursor (10_state.md R23, R32). -/
def Stream.sbcur (st : Stream) : Nat := st.sb.length

/-- LS, the logical stream: OUT followed by what the sink buffer holds (20_memory.md R46). -/
def Stream.ls (st : Stream) : List Byte := st.out ++ st.sb

/-- SinkOk: the host's answer to the next `out` transaction (20_memory.md R45). -/
def Stream.nextAnswer (st : Stream) : SinkAnswer :=
  match st.answers with
  | [] => st.thereafter
  | a :: _ => a

/-- What a destination that answered `fail` took of the chunk: an unspecified part of it (20_memory.md R44; log 10). -/
def partOf (tx : Nat) (chunk : List Byte) : List Byte :=
  (chunk.zipIdx.filter fun b => Config.sinkTook tx b.2).map (·.1)

/-- The `out` transaction of one chunk: the record of the port, and the answer used up (10_state.md R30). -/
def Stream.offer (st : Stream) : Stream :=
  { st with chunks := st.chunks ++ [st.sb], answers := st.answers.tail }

/-- Drain(), 20_memory.md R44. -/
def drain (st : Stream) : Run Stream :=
  if st.sb = [] then .done st
  else
    match st.nextAnswer with
    | .ok => .done { st.offer with out := st.out ++ st.sb, sb := [] }
    | .fail => .raised .sinkWrite { st.offer with out := st.out ++ partOf st.chunks.length st.sb }

/-- SinkAppend(b) with a sink buffer of `cap` bytes, 20_memory.md R43. -/
def sinkAppend (cap : Nat) (b : Byte) (st : Stream) : Run Stream :=
  if st.sbcur + 1 = cap then drain { st with sb := st.sb ++ [b] }
  else .done { st with sb := st.sb ++ [b] }

/-- Bytes appended one after the other. -/
def appendBytes (cap : Nat) (l : List Byte) (st : Stream) : Run Stream :=
  match l with
  | [] => .done st
  | b :: rest => (sinkAppend cap b st).andThen (appendBytes cap rest)

/-- A piece of pseudocode that works on the output path alone, with this build's sink buffer. -/
def onStream (f : Nat → Stream → Run Stream) (s : State) : Run State :=
  (f s.build.sinkCap.toNat s.stream).map fun st => { s with stream := st }

/-! ## The payload -/

/-- pull(n), 20_memory.md R47, step 6 of 40_system_commands.md R80: the host's next answer, used up by the pull. The payload
is there when the host answers with exactly n bytes; anything else is a source that cannot supply it (log 4). -/
def pull (n : Nat) (s : State) : Option (Vector Byte n) × State :=
  match s.payloads with
  | .bytes b :: rest =>
    (if h : b.length = n then some ⟨b.toArray, by simp [h]⟩ else none, { s with payloads := rest })
  | .sourceFailure :: rest => (none, { s with payloads := rest })
  | [] => (none, s)

/-- A data command: the pull, and then its pseudocode on the payload (40_system_commands.md R80 steps 6 and 7). -/
def withPayload (n : Nat) (k : Vector Byte n → State → Run State) (s : State) : Run State :=
  match pull n s with
  | (some pl, t) => k pl t
  | (none, t) => .raised .srcRead t

/-! ## Execute -/

/-- How a command ends: with respond(0, data), or with the fault its pseudocode raised (40_system_commands.md R80 steps 7
and 8). -/
def finish (data : Word32) (r : Run State) : State :=
  match r with
  | .done t => respond 0 data t
  | .raised c t => takeFault c t

/-- Execute(w) for a decoded command, 40_system_commands.md R80: the gate, the checks, the command's pseudocode `body`, the
response with `data`. -/
def execute (i : Instr) (body : State → Run State) (data : State → Word32) (s : State) :
    Host.Outcome State Fault Refusal :=
  if s.phase = .fault then .next (faultGate i s)
  else
    match check i s with
    | some c => .next (takeFault c s)
    | none => .next (finish (data s) (body s))

/-- The data of a response that carries none. -/
def noData (_ : State) : Word32 := 0

end Sys2Proof.Machine
end

