-- ==== Sys2Proof/Machine/BitWriter.lean ====
section
/-! DEFINITION. The bit-packed writer with byte stuffing (44_bit_writer.md): its functions R130 to R134 and its commands WBITS,
WBYTE, WWORD, ALIGN and SYNC (R135 to R139). -/

namespace Sys2Proof.Machine

/-! ## Functions -/

/-- PutDataByte(b): a completed byte of entropy-coded data, FF followed by a stuffed 00 (44_bit_writer.md R131). -/
def putDataByte (cap : Nat) (b : Byte) (st : Stream) : Run Stream :=
  (sinkAppend cap b st).andThen fun st' => if b = 0xFF then sinkAppend cap 0x00 st' else .done st'

/-- One bit into the next free position of ACC, counting from bit 7 down; a full byte leaves for the stream
(the body of the loop of 44_bit_writer.md R130). -/
def writeBit (cap : Nat) (bit : Bool) (st : Stream) : Run Stream :=
  let acc := st.acc + (if bit then (1 : Byte) <<< (7 - st.nbits.toNat) else 0)
  if st.nbits = 7 then putDataByte cap acc { st with acc := 0, nbits := 0 }
  else .done { st with acc := acc, nbits := st.nbits + 1 }

/-- WriteBits(code, n): bit n-1 of `code` first, bit 0 last; the bits of `code` at and above n are not used
(44_bit_writer.md R130). -/
def writeBits (cap : Nat) (code n : Nat) (st : Stream) : Run Stream :=
  match n with
  | 0 => .done st
  | k + 1 => (writeBit cap (code.testBit k) st).andThen (writeBits cap code k)

/-- Align(): pending bits are padded with 1s to a byte; with none pending nothing is written (44_bit_writer.md R132). -/
def alignBits (cap : Nat) (st : Stream) : Run Stream :=
  if st.nbits = 0 then .done st
  else writeBits cap (2 ^ (8 - st.nbits.toNat) - 1) (8 - st.nbits.toNat) st

/-- The bytes of WriteWord(w), high byte first (44_bit_writer.md R134). -/
def wordBytes (w : Word16) : List Byte := [w.extractLsb' 8 8, w.extractLsb' 0 8]

/-! ## Commands -/

/-- WBITS len, code (44_bit_writer.md R135). -/
def execWbits (len : BitVec 5) (code : Word16) (s : State) : Host.Outcome State Fault Refusal :=
  execute (.wbits len code) (onStream fun cap => writeBits cap code.toNat len.toNat) noData s

/-- WBYTE b (44_bit_writer.md R136): WriteByte(b), without stuffing (R133). -/
def execWbyte (byte : Byte) (s : State) : Host.Outcome State Fault Refusal :=
  execute (.wbyte byte) (onStream fun cap => appendBytes cap [byte]) noData s

/-- WWORD w (44_bit_writer.md R137). -/
def execWword (word : Word16) (s : State) : Host.Outcome State Fault Refusal :=
  execute (.wword word) (onStream fun cap => appendBytes cap (wordBytes word)) noData s

/-- ALIGN (44_bit_writer.md R138): Align(), then PHASE <- ALIGNED. -/
def execAlign (s : State) : Host.Outcome State Fault Refusal :=
  execute .align (fun s => (onStream alignBits s).thenDo fun t => { t with phase := .aligned }) noData s

/-- SYNC (44_bit_writer.md R139). -/
def execSync (s : State) : Host.Outcome State Fault Refusal :=
  execute .sync (onStream fun _ => drain) noData s

end Sys2Proof.Machine
end

