-- ==== Sys2Proof/Machine/Operands.lean ====
section
/-! DEFINITION. How operands are formed and registers and windows accessed: the payload layouts (30_encoding.md R63), the
register space (10_state.md R16 to R24), the table windows (40_system_commands.md R85) and the choice of tables by channel
(42_transform.md R110). -/

namespace Sys2Proof.Machine

/-! ## Channels and tables -/

/-- The number of a channel. -/
def chanIdx : Channel → Fin 3
  | .y => 0
  | .cb => 1
  | .cr => 2

/-- QSEL(c), 42_transform.md R110. -/
def qsel : Channel → Fin 2
  | .y => 0
  | .cb => 1
  | .cr => 1

/-- TDC(c), 42_transform.md R110. -/
def tdc : Channel → Fin 4
  | .y => 0
  | .cb => 2
  | .cr => 2

/-- TAC(c), 42_transform.md R110. -/
def tac : Channel → Fin 4
  | .y => 1
  | .cb => 3
  | .cr => 3

/-- The natural index 8*r + c (00_scope.md section 5.3). -/
def natural (r c : Fin 8) : Fin 64 := ⟨8 * r.val + c.val, by omega⟩

/-- NAT[k]: the natural index at zigzag position k, the inverse of ZZ (10_state.md R27). -/
def natIndex (zz : Vector (Fin 64) 64) (k : Fin 64) : Fin 64 :=
  Fin.ofNat 64 (zz.toList.findIdx fun p => p.val == k.val)

/-- Reorder(): ZZB[k] = COEF[NAT[k]] (43_entropy_coder.md R115). -/
def reorder (zz : Vector (Fin 64) 64) (coef : Vector Word16 64) : Vector Word16 64 :=
  vec fun k => coef[natIndex zz k]

/-! ## Payloads (30_encoding.md R63) -/

/-- The three bytes B, G, R of pixel i = 8*y + x of an ENCMCU payload. -/
def pixelOf (pl : Vector Byte 192) (i : Fin 64) : Byte × Byte × Byte :=
  (pl[3 * i.val]'(by omega), pl[3 * i.val + 1]'(by omega), pl[3 * i.val + 2]'(by omega))

/-- The 64 coefficients of an ENCCOEF payload, natural order, big-endian s16. -/
def coefOf (pl : Vector Byte 128) : Vector Word16 64 :=
  vec fun i => (pl[2 * i.val]'(by omega)) ++ (pl[2 * i.val + 1]'(by omega))

/-! ## Registers -/

/-- zext_32(sext_16(x)): the 32-bit pattern of an s16 value (10_state.md R24). -/
def signed32 (x : Word16) : Word32 := x.signExtend 32

/-- MCUTOT (10_state.md R22). -/
def mcuTotal (w h : Word16) : Word32 := BitVec.ofNat 32 ((w.toNat + 7) / 8 * ((h.toNat + 7) / 8))

/-- The value RDREG returns for a defined address (10_state.md R16, 40_system_commands.md R84). -/
def readRegister (addr : BitVec 8) (s : State) : Word32 :=
  match addr.toNat with
  | 0x00 => statusWord s
  | 0x01 => s.width.zeroExtend 32
  | 0x02 => s.height.zeroExtend 32
  | 0x03 => s.scale.zeroExtend 32
  | 0x04 => s.blkcnt
  | 0x05 => mcuTotal s.width s.height
  | 0x06 => BitVec.ofNat 32 s.stream.sbcur
  | 0x07 => s.build.sinkCap
  | 0x08 => signed32 s.dcp[0]
  | 0x09 => signed32 s.dcp[1]
  | 0x0A => signed32 s.dcp[2]
  | _ => 0  -- not reached: the address check comes first (40_system_commands.md R80 step 3)

/-- The effect of WRREG on a writable register (40_system_commands.md R83): a write to SCALE clears QT_VALID. -/
def writeRegister (addr : BitVec 8) (data : Word16) (s : State) : State :=
  match addr.toNat with
  | 0x01 => { s with width := data }
  | 0x02 => { s with height := data }
  | 0x03 => { s with scale := data, qtValid := false }
  | _ => s  -- not reached: the address check comes first (40_system_commands.md R80 step 3)

/-! ## Table windows -/

/-- An entry as RDTBL shows it: len << 16 | code (40_system_commands.md R85). -/
def huffWord (e : HuffEntry) : Word32 := (0 : BitVec 11) ++ e.len ++ e.code

/-- The index of a 64-entry window: `idx` is at most 63 there (30_encoding.md R63). -/
def index64 (idx : BitVec 8) : Fin 64 := ⟨idx.toNat % 64, by omega⟩

/-- The value RDTBL returns (40_system_commands.md R85). -/
def readWindow (sel : Window) (idx : BitVec 8) (s : State) : Word32 :=
  match sel with
  | .qtY => (s.qt[0])[index64 idx].zeroExtend 32
  | .qtC => (s.qt[1])[index64 idx].zeroExtend 32
  | .htDcY => huffWord ((s.ht[0])[idx.toFin])
  | .htAcY => huffWord ((s.ht[1])[idx.toFin])
  | .htDcC => huffWord ((s.ht[2])[idx.toFin])
  | .htAcC => huffWord ((s.ht[3])[idx.toFin])
  | .coef => signed32 s.coef[index64 idx]
  | .zzb => signed32 s.zzb[index64 idx]

end Sys2Proof.Machine
end

