-- ==== Sys2Proof/Machine/Framer.lean ====
section
/-! DEFINITION. The marker framer (45_marker_framer.md R145 to R152). Each segment is given as its bytes in order, which are
those of the rule's WriteByte and WriteWord calls; they are never stuffed (44_bit_writer.md R133). -/

namespace Sys2Proof.Machine

/-! ## The bytes of the segments -/

/-- FF D8 (45_marker_framer.md R146). -/
def soiBytes : List Byte := wordBytes 0xFFD8

/-- The APP0 segment (45_marker_framer.md R147). -/
def app0Bytes : List Byte :=
  wordBytes 0xFFE0 ++ wordBytes 16 ++ [0x4A, 0x46, 0x49, 0x46, 0x00] ++ [1, 1] ++ [app0Units] ++ wordBytes app0Xd ++
    wordBytes app0Yd ++ [0, 0]

/-- One quantization table record: the index byte, and the entries in zigzag order (45_marker_framer.md R148). -/
def dqtRecord (zz : Vector (Fin 64) 64) (q : Byte) (qt : Vector Byte 64) : List Byte :=
  q :: (List.finRange 64).map fun k => qt[natIndex zz k]

/-- The DQT segment (45_marker_framer.md R148). -/
def dqtBytes (zz : Vector (Fin 64) 64) (qt : Vector (Vector Byte 64) 2) : List Byte :=
  wordBytes 0xFFDB ++ wordBytes 132 ++ dqtRecord zz 0x00 qt[0] ++ dqtRecord zz 0x01 qt[1]

/-- The SOF0 segment (45_marker_framer.md R149). -/
def sof0Bytes (width height : Word16) : List Byte :=
  wordBytes 0xFFC0 ++ wordBytes 17 ++ [8] ++ wordBytes height ++ wordBytes width ++ [3] ++
    [1, 0x11, 0] ++ [2, 0x11, 1] ++ [3, 0x11, 1]

/-- One Huffman table record: index byte, the 16 counts, the symbols (45_marker_framer.md R150). -/
def dhtRecord (index : Byte) (h : HuffSpec) : List Byte := index :: (h.counts.toList ++ h.symbols)

/-- The length field of the DHT segment (45_marker_framer.md R150). -/
def dhtLength (hspec : Vector HuffSpec 4) : Nat :=
  2 + ((17 + (hspec[0]).symbols.length) + (17 + (hspec[1]).symbols.length) + (17 + (hspec[2]).symbols.length) +
    (17 + (hspec[3]).symbols.length))

/-- The DHT segment (45_marker_framer.md R150). -/
def dhtBytes (hspec : Vector HuffSpec 4) : List Byte :=
  wordBytes 0xFFC4 ++ wordBytes (BitVec.ofNat 16 (dhtLength hspec)) ++ dhtRecord 0x00 hspec[0] ++
    dhtRecord 0x10 hspec[1] ++ dhtRecord 0x01 hspec[2] ++ dhtRecord 0x11 hspec[3]

/-- The SOS segment (45_marker_framer.md R151). -/
def sosBytes : List Byte :=
  wordBytes 0xFFDA ++ wordBytes 12 ++ [3] ++ [1, 0x00] ++ [2, 0x11] ++ [3, 0x11] ++ [0, 63, 0]

/-- FF D9 (45_marker_framer.md R152). -/
def eoiBytes : List Byte := wordBytes 0xFFD9

/-! ## Commands -/

/-- Write the bytes, then PHASE <- p. -/
def emitSegment (bytes : State → List Byte) (p : Phase) (s : State) : Run State :=
  (onStream (fun cap => appendBytes cap (bytes s)) s).thenDo fun t => { t with phase := p }

/-- The per-stream state that SOI clears (45_marker_framer.md R146). -/
def clearStream (s : State) : State :=
  { s with
    dcp := Vector.replicate 3 0
    nextch := .y
    blkcnt := 0
    duValid := false
    stream := { s.stream with acc := 0, nbits := 0 } }

/-- SOI (45_marker_framer.md R146). -/
def execSoi (s : State) : Host.Outcome State Fault Refusal :=
  execute .soi (fun s => emitSegment (fun _ => soiBytes) .sSoi (clearStream s)) noData s

/-- APP0 (45_marker_framer.md R147). -/
def execApp0 (s : State) : Host.Outcome State Fault Refusal :=
  execute .app0 (emitSegment (fun _ => app0Bytes) .sApp0) noData s

/-- DQT (45_marker_framer.md R148). -/
def execDqt (s : State) : Host.Outcome State Fault Refusal :=
  execute .dqt (emitSegment (fun s => dqtBytes s.build.zz s.qt) .sDqt) noData s

/-- SOF0 (45_marker_framer.md R149). -/
def execSof0 (s : State) : Host.Outcome State Fault Refusal :=
  execute .sof0 (emitSegment (fun s => sof0Bytes s.width s.height) .sSof0) noData s

/-- DHT (45_marker_framer.md R150). -/
def execDht (s : State) : Host.Outcome State Fault Refusal :=
  execute .dht (emitSegment (fun s => dhtBytes s.build.hspec) .sDht) noData s

/-- SOS (45_marker_framer.md R151). -/
def execSos (s : State) : Host.Outcome State Fault Refusal :=
  execute .sos (emitSegment (fun _ => sosBytes) .scan) noData s

/-- The pseudocode of EOI (45_marker_framer.md R152): FF D9, Drain(), PHASE <- DONE. -/
def eoiBody (s : State) : Run State :=
  (onStream (fun cap st => (appendBytes cap eoiBytes st).andThen drain) s).thenDo fun t => { t with phase := .done }

/-- EOI (45_marker_framer.md R152). -/
def execEoi (s : State) : Host.Outcome State Fault Refusal := execute .eoi eoiBody noData s

end Sys2Proof.Machine
end

