-- ==== Sys2Proof/Machine/System.lean ====
section
/-! DEFINITION. The system commands NOP, RESET, WRREG, RDREG and RDTBL (40_system_commands.md R81 to R85). -/

namespace Sys2Proof.Machine

/-- NOP (40_system_commands.md R81). -/
def execNop (s : State) : Host.Outcome State Fault Refusal := execute .nop .done noData s

/-- RESET (40_system_commands.md R82). -/
def execReset (s : State) : Host.Outcome State Fault Refusal :=
  execute .reset (fun s => .done (doReset s)) noData s

/-- WRREG addr, data (40_system_commands.md R83). -/
def execWrreg (addr : BitVec 8) (data : Word16) (s : State) : Host.Outcome State Fault Refusal :=
  execute (.wrreg addr data) (fun s => .done (writeRegister addr data s)) noData s

/-- RDREG addr (40_system_commands.md R84). -/
def execRdreg (addr : BitVec 8) (s : State) : Host.Outcome State Fault Refusal :=
  execute (.rdreg addr) .done (readRegister addr) s

/-- RDTBL sel, idx (40_system_commands.md R85). -/
def execRdtbl (sel : Window) (idx : BitVec 8) (s : State) : Host.Outcome State Fault Refusal :=
  execute (.rdtbl sel idx) .done (readWindow sel idx) s

end Sys2Proof.Machine
end

