-- ==== Sys2Proof/Machine/TableBuilder.lean ====
section
/-! DEFINITION. The table builder (41_table_builder.md): BuildHuff R90, Malformed R91, BLDHT R92, BuildQT R93, BLDQT R94. -/

namespace Sys2Proof.Machine

/-! ## Huffman tables -/

/-- A code with its length as the builder counts them, before they are stored in an entry. -/
structure Assigned where
  sym  : Byte
  len  : Nat
  code : Nat
deriving DecidableEq, Repr

/-- The assignments of 41_table_builder.md R90 in their order, from length `len` and running value `code` on: the codes of
one length are consecutive, and the running value doubles after every length. -/
def assignCodes (counts : List Byte) (len code : Nat) (symbols : List Byte) : List Assigned :=
  match counts with
  | [] => []
  | c :: rest =>
    ((symbols.take c.toNat).zipIdx.map fun p => ⟨p.1, len, code + p.2⟩) ++
      assignCodes rest (len + 1) ((code + c.toNat) * 2) (symbols.drop c.toNat)

/-- The assignments of a whole specification: lengths from 1, running value from 0 (41_table_builder.md R90). -/
def assignments (h : HuffSpec) : List Assigned := assignCodes h.counts.toList 1 0 h.symbols

/-- BuildHuff, 41_table_builder.md R90: a symbol that is not in `symbols` has the entry (0, 0). -/
def buildHuff (h : HuffSpec) : Vector HuffEntry 256 :=
  vec fun s =>
    match (assignments h).find? fun a => a.sym.toNat == s.val with
    | none => ⟨0, 0⟩
    | some a => ⟨BitVec.ofNat 5 a.len, BitVec.ofNat 16 a.code⟩

/-- The four tables of a build (41_table_builder.md R92). -/
def buildAllHuff (hspec : Vector HuffSpec 4) : Vector (Vector HuffEntry 256) 4 := vec fun t => buildHuff hspec[t]

/-- How many codes the counts announce. -/
def countSum (counts : List Byte) : Nat :=
  match counts with
  | [] => 0
  | c :: rest => c.toNat + countSum rest

/-- Some symbol occurs twice. -/
def hasRepeat (l : List Nat) : Bool :=
  match l with
  | [] => false
  | b :: rest => rest.any (· == b) || hasRepeat rest

/-- Malformed(counts, symbols), its three tests (41_table_builder.md R91). -/
def malformed (h : HuffSpec) : Bool :=
  countSum h.counts.toList != h.symbols.length || hasRepeat (h.symbols.map (·.toNat)) ||
    (assignments h).any fun a => decide (2 ^ a.len ≤ a.code)

/-- Some of the four specifications is malformed (41_table_builder.md R92). -/
def anyMalformed (hspec : Vector HuffSpec 4) : Bool := hspec.toList.any malformed

/-! ## Quantization tables -/

/-- QBASE_ZZ[q][k] = QBASE[q][NAT[k]] (10_state.md R28). -/
def qbaseZz (zz : Vector (Fin 64) 64) (qbase : Vector Byte 64) : Vector Byte 64 :=
  vec fun k => qbase[natIndex zz k]

/-- One entry: round half up of base*scale/100, clamped to 1..255 (41_table_builder.md R93). -/
def quantStep (base : Byte) (scale : Word16) : Byte :=
  BitVec.ofNat 8 (max 1 (min 255 ((base.toNat * scale.toNat + 50) / 100)))

/-- BuildQT, 41_table_builder.md R93: the base is read in zigzag order and the entry for position k stored at NAT[k], so that
natural index i holds the entry for position ZZ[i]. -/
def buildQt (zz : Vector (Fin 64) 64) (baseZz : Vector Byte 64) (scale : Word16) : Vector Byte 64 :=
  vec fun i => quantStep baseZz[zz[i]] scale

/-- Both quantization tables of a build at a scale (41_table_builder.md R94). -/
def buildBothQt (b : Build) (scale : Word16) : Vector (Vector Byte 64) 2 :=
  vec fun q => buildQt b.zz (qbaseZz b.zz b.qbase[q]) scale

/-! ## Commands -/

/-- BLDQT (41_table_builder.md R94). -/
def execBldqt (s : State) : Host.Outcome State Fault Refusal :=
  execute .bldqt (fun s => .done { s with qt := buildBothQt s.build s.scale, qtValid := true }) noData s

/-- The pseudocode of BLDHT (41_table_builder.md R92). -/
def bldhtBody (s : State) : Run State :=
  if anyMalformed s.build.hspec then .raised .hspecBad s
  else .done { s with ht := buildAllHuff s.build.hspec, htValid := true }

/-- BLDHT (41_table_builder.md R92). -/
def execBldht (s : State) : Host.Outcome State Fault Refusal := execute .bldht bldhtBody noData s

end Sys2Proof.Machine
end

