-- ==== Sys2Proof/Machine/EntropyCoder.lean ====
section
/-! DEFINITION. The entropy coder (43_entropy_coder.md): amplitude coding R116, symbol emission R117, DC R118, AC R119, end of
block R120, EncodeBlock R121, the counters after a data unit (42_transform.md R111), and ENCCOEF R122. -/

namespace Sys2Proof.Machine

/-- bitlen(n) (00_scope.md section 5.1). -/
def bitlen (n : Nat) : Nat := if n = 0 then 0 else n.log2 + 1

/-- MagBits(v) = (n, m): the size and the n-bit amplitude code (43_entropy_coder.md R116). -/
def magBits (v : Int) : Nat × Nat :=
  let n := bitlen v.natAbs
  (n, if 0 ≤ v then v.natAbs else 2 ^ n - 1 - v.natAbs)

/-- EmitSym(t, sym) with the table t (43_entropy_coder.md R117): a symbol without a code raises UNCODED. -/
def emitSym (cap : Nat) (t : Vector HuffEntry 256) (sym : Nat) (st : Stream) : Run Stream :=
  let e := t[sym]?.getD ⟨0, 0⟩
  if e.len = 0 then .raised .uncoded st else writeBits cap e.code.toNat e.len.toNat st

/-- EncodeDC, the part that writes: the difference, exact and not wrapped, by its size and amplitude
(43_entropy_coder.md R118). -/
def encodeDc (cap : Nat) (t : Vector HuffEntry 256) (diff : Int) (st : Stream) : Run Stream :=
  let p := magBits diff
  (emitSym cap t p.1 st).andThen fun st' => if 0 < p.1 then writeBits cap p.2 p.1 st' else .done st'

/-- The AC terms, zigzag positions 1 to 63. -/
def acTerms (zzb : Vector Word16 64) : List Int := zzb.toList.tail.map (·.toInt)

/-- `end`: the largest position k, counted from 1, whose term is not 0, or 0 if there is none (43_entropy_coder.md R119). -/
def acEnd (l : List Int) : Nat :=
  match l with
  | [] => 0
  | v :: rest => if acEnd rest = 0 then (if v = 0 then 0 else 1) else acEnd rest + 1

/-- ZRL, n times (43_entropy_coder.md R119). -/
def emitZrl (cap : Nat) (t : Vector HuffEntry 256) (n : Nat) (st : Stream) : Run Stream :=
  match n with
  | 0 => .done st
  | k + 1 => (emitSym cap t 0xF0 st).andThen (emitZrl cap t k)

/-- A non-zero term after `run` zeros: a ZRL for every 16 of them, the combined symbol of the rest and the size, the amplitude
(43_entropy_coder.md R119). -/
def encodeTerm (cap : Nat) (t : Vector HuffEntry 256) (run : Nat) (v : Int) (st : Stream) : Run Stream :=
  (emitZrl cap t (run / 16) st).andThen fun st' =>
    let p := magBits v
    if 15 < p.1 then .raised .uncoded st'
    else (emitSym cap t (run % 16 * 16 + p.1) st').andThen (writeBits cap p.2 p.1)

/-- The walk over positions 1 .. end (43_entropy_coder.md R119). -/
def encodeTerms (cap : Nat) (t : Vector HuffEntry 256) (run : Nat) (l : List Int) (st : Stream) : Run Stream :=
  match l with
  | [] => .done st
  | v :: rest =>
    if v = 0 then encodeTerms cap t (run + 1) rest st
    else (encodeTerm cap t run v st).andThen (encodeTerms cap t 0 rest)

/-- EncodeAC and the end of block: the terms up to `end`, then EOB if `end` < 63 (43_entropy_coder.md R119, R120). -/
def encodeAc (cap : Nat) (t : Vector HuffEntry 256) (l : List Int) (st : Stream) : Run Stream :=
  (encodeTerms cap t 0 (l.take (acEnd l)) st).andThen fun st' =>
    if acEnd l < 63 then emitSym cap t 0x00 st' else .done st'

/-- The bits of one data unit, from its coefficients in zigzag order, the predictor and the channel's two tables
(43_entropy_coder.md R121). -/
def encodeUnit (cap : Nat) (dcTable acTable : Vector HuffEntry 256) (pred : Word16) (zzb : Vector Word16 64)
    (st : Stream) : Run Stream :=
  (encodeDc cap dcTable ((zzb[0]).toInt - pred.toInt) st).andThen (encodeAc cap acTable (acTerms zzb))

/-- EncodeBlock(c) on COEF = `coef` (43_entropy_coder.md R121): ZZB is filled, DCP[c] becomes this unit's DC coefficient, and
the unit's bits are written with the predictor as it was. -/
def encodeBlock (c : Channel) (coef : Vector Word16 64) (s : State) : Run State :=
  let zzb := reorder s.build.zz coef
  onStream (fun cap => encodeUnit cap s.ht[tdc c] s.ht[tac c] s.dcp[chanIdx c] zzb)
    { s with coef := coef, zzb := zzb, dcp := s.dcp.set (chanIdx c) zzb[0] }

/-- Advance(c), 42_transform.md R111. -/
def advance (c : Channel) (s : State) : State :=
  match c with
  | .y => { s with duValid := true, nextch := .cb }
  | .cb => { s with duValid := true, nextch := .cr }
  | .cr => { s with duValid := true, nextch := .y, blkcnt := s.blkcnt + 1 }

/-- One data unit of channel c: EncodeBlock(c), then Advance(c). -/
def dataUnit (c : Channel) (coef : Vector Word16 64) (s : State) : Run State :=
  (encodeBlock c coef s).thenDo (advance c)

/-- ENCCOEF ch (43_entropy_coder.md R122). -/
def execEnccoef (ch : Channel) (s : State) : Host.Outcome State Fault Refusal :=
  execute (.enccoef ch) (withPayload 128 fun pl => dataUnit ch (coefOf pl)) noData s

end Sys2Proof.Machine
end

