-- ==== Sys2Proof/Machine/Transform.lean ====
section
/-! DEFINITION. The colour transform (42_transform.md R100, R101), the forward DCT with the quantizer (R102 to R105, R112), and
the commands ENCMCU and ENCDU (R108, R109).

FDCTQ_IDEAL is `floor(F/Q + 1/2)` with F the exact real of R102. It is computed here without reals: 16*F is an integer
combination of the numbers 2*cos(k*pi/16), which are nested square roots, and the sign of such a combination is decided by
integer arithmetic; the floor is found by comparing (log 12). -/

namespace Sys2Proof.Machine

/-- clamp(v, lo, hi) (00_scope.md section 5.1). -/
def clamp (v lo hi : Int) : Int := max lo (min hi v)

/-- The value of a deviation. -/
def deviationInt : Deviation → Int
  | .below => -1
  | .same => 0
  | .above => 1

/-! ## Colour transform -/

/-- One channel of CSC_IDEAL(B, G, R) (42_transform.md R100); `/` is floor division, the divisor being positive. -/
def cscIdeal (c : Channel) (b g r : Byte) : Int :=
  let b : Int := b.toNat
  let g : Int := g.toNat
  let r : Int := r.toNat
  match c with
  | .y => clamp ((299 * r + 587 * g + 114 * b + 500) / 1000 - 128) (-128) 127
  | .cb => clamp ((-16874 * r - 33126 * g + 50000 * b + 50000) / 100000) (-128) 127
  | .cr => clamp ((50000 * r - 41869 * g - 8131 * b + 50000) / 100000) (-128) 127

/-- One channel of CSC of a build: the default, or another instance within 1 of it and in range (42_transform.md R101,
CscTol1). -/
def csc (inst : CscInstance) (c : Channel) (b g r : Byte) : Int :=
  match inst with
  | .ideal => cscIdeal c b g r
  | .other => clamp (cscIdeal c b g r + deviationInt (Config.cscDeviation c b g r)) (-128) 127

/-- YCC[c]: the samples of one channel of an ENCMCU payload (42_transform.md R108). -/
def samplesOf (inst : CscInstance) (c : Channel) (pl : Vector Byte 192) : Vector Byte 64 :=
  vec fun i => BitVec.ofInt 8 (csc inst c (pixelOf pl i).1 (pixelOf pl i).2.1 (pixelOf pl i).2.2)

/-! ## Integer combinations of 2*cos(k*pi/16) -/

/-- The number `n0*c0 + … + n7*c7`, where `ck` is 2*cos(k*pi/16). -/
structure Cyc where
  n0 : Int
  n1 : Int
  n2 : Int
  n3 : Int
  n4 : Int
  n5 : Int
  n6 : Int
  n7 : Int
deriving DecidableEq, Repr

/-- 0. -/
def Cyc.zero : Cyc := ⟨0, 0, 0, 0, 0, 0, 0, 0⟩

/-- `x + a*ck`; c8 is 0. -/
def Cyc.addAt (x : Cyc) (k : Nat) (a : Int) : Cyc :=
  match k with
  | 0 => { x with n0 := x.n0 + a }
  | 1 => { x with n1 := x.n1 + a }
  | 2 => { x with n2 := x.n2 + a }
  | 3 => { x with n3 := x.n3 + a }
  | 4 => { x with n4 := x.n4 + a }
  | 5 => { x with n5 := x.n5 + a }
  | 6 => { x with n6 := x.n6 + a }
  | 7 => { x with n7 := x.n7 + a }
  | _ => x

/-- `x + a*2*cos(m*pi/16)` for any integer m: cos is even, of period 2*pi, and cos(pi - t) = -cos(t). -/
def Cyc.addCos (x : Cyc) (m : Int) (a : Int) : Cyc :=
  let r := (m % 32).toNat
  let k := if r ≤ 16 then r else 32 - r
  if k ≤ 8 then x.addAt k a else x.addAt (16 - k) (-a)

/-- `C(u)*cos((2*x+1)*u*pi/16)` is `cos(m*pi/16)` for this m: for u = 0 it is 1/sqrt(2) = cos(4*pi/16)
(42_transform.md R102). -/
def dctAngle (u x : Fin 8) : Int := if u = 0 then 4 else (2 * x.val + 1) * u.val

/-- The row of a natural index. -/
def rowOf (i : Fin 64) : Fin 8 := ⟨i.val / 8, by omega⟩

/-- The column of a natural index. -/
def colOf (i : Fin 64) : Fin 8 := ⟨i.val % 8, by omega⟩

/-- 16*F[i] of 42_transform.md R102, exactly: `4*cos(a)*cos(b)` is `2*cos(a+b) + 2*cos(a-b)`, for every sample. -/
def dct16 (s : Vector Byte 64) (i : Fin 64) : Cyc :=
  (List.finRange 64).foldl
    (fun acc j =>
      let a := dctAngle (colOf i) (colOf j)
      let b := dctAngle (rowOf i) (rowOf j)
      (acc.addCos (a + b) s[j].toInt).addCos (a - b) s[j].toInt)
    Cyc.zero

/-! ## Signs of nested square roots -/

/-- The sign of p + q*r for r > 0, from the signs of p, of q and of p^2 - q^2*r^2. -/
def rootSign (p q d : Int) : Int :=
  if q = 0 then p else if p = 0 then q else if p = q then p else p * d

/-- `a + b*sqrt(2)`. -/
structure Surd1 where
  a : Int
  b : Int
deriving DecidableEq, Repr

def Surd1.add (x y : Surd1) : Surd1 := ⟨x.a + y.a, x.b + y.b⟩
def Surd1.sub (x y : Surd1) : Surd1 := ⟨x.a - y.a, x.b - y.b⟩
def Surd1.mul (x y : Surd1) : Surd1 := ⟨x.a * y.a + 2 * (x.b * y.b), x.a * y.b + x.b * y.a⟩
def Surd1.sgn (x : Surd1) : Int := rootSign x.a.sign x.b.sign (x.a * x.a - 2 * (x.b * x.b)).sign

/-- `2 + sqrt(2)`, the square of c2. -/
def c2Square : Surd1 := ⟨2, 1⟩

/-- `p + q*c2` with c2 = sqrt(2 + sqrt(2)). -/
structure Surd2 where
  p : Surd1
  q : Surd1
deriving DecidableEq, Repr

def Surd2.sub (x y : Surd2) : Surd2 := ⟨x.p.sub y.p, x.q.sub y.q⟩
def Surd2.mul (x y : Surd2) : Surd2 :=
  ⟨(x.p.mul y.p).add (c2Square.mul (x.q.mul y.q)), (x.p.mul y.q).add (x.q.mul y.p)⟩
def Surd2.sgn (x : Surd2) : Int :=
  rootSign x.p.sgn x.q.sgn ((x.p.mul x.p).sub (c2Square.mul (x.q.mul x.q))).sgn

/-- `2 + c2`, the square of c1. -/
def c1Square : Surd2 := ⟨⟨2, 0⟩, ⟨1, 0⟩⟩

/-- `x = p + q*c1` with c1 = sqrt(2 + c2): c4 = sqrt(2), c6 = c2*(c4 - 1), c3 = c1*(c2 - 1), c5 = c1*(c4 - c2 + 1),
c7 = c1*(c2*c4 - c4 - 1). This is p. -/
def Cyc.evenPart (x : Cyc) : Surd2 := ⟨⟨2 * x.n0, x.n4⟩, ⟨x.n2 - x.n6, x.n6⟩⟩

/-- The factor q of c1. -/
def Cyc.oddPart (x : Cyc) : Surd2 := ⟨⟨x.n1 - x.n3 + x.n5 - x.n7, x.n5 - x.n7⟩, ⟨x.n3 - x.n5, x.n7⟩⟩

/-- The sign of a combination: -1, 0 or 1. -/
def Cyc.sgn (x : Cyc) : Int :=
  let p := x.evenPart
  let q := x.oddPart
  rootSign p.sgn q.sgn ((p.mul p).sub (c1Square.mul (q.mul q))).sgn

/-! ## Quantizer -/

/-- The largest m of lo .. lo + 2^fuel - 1 that passes the test, when lo passes it and the tests that pass come first. -/
def lastPassing (test : Int → Bool) (fuel : Nat) (lo : Int) : Int :=
  match fuel with
  | 0 => lo
  | k + 1 => if test (lo + 2 ^ k) then lastPassing test k (lo + 2 ^ k) else lastPassing test k lo

/-- m is at most F/Q + 1/2, with 16*F = x: 16*Q*m ≤ x + 8*Q. -/
def atMost (x : Cyc) (q m : Int) : Bool := decide (0 ≤ (x.addAt 0 (4 * q - 8 * q * m)).sgn)

/-- x is rational: x = 2*n0. -/
def Cyc.isRational (x : Cyc) : Bool :=
  decide (x.n1 = 0 ∧ x.n2 = 0 ∧ x.n3 = 0 ∧ x.n4 = 0 ∧ x.n5 = 0 ∧ x.n6 = 0 ∧ x.n7 = 0)

/-- floor(F/Q + 1/2) with 16*F = x (42_transform.md R103, R104). -/
def roundQuotient (x : Cyc) (q : Int) : Int :=
  if x.isRational then (2 * x.n0 + 8 * q) / (16 * q) else lastPassing (atMost x q) 13 (-4096)

/-- FDCTQ_IDEAL(s, Q)[i], 42_transform.md R104. -/
def fdctqIdeal (s steps : Vector Byte 64) (i : Fin 64) : Int := roundQuotient (dct16 s i) (steps[i].toNat)

/-- The table A of 42_transform.md R112. -/
def tabA : Vector (List Int) 8 := table 8
  [[379625062, 379625062, 379625062, 379625062, 379625062, 379625062, 379625062, 379625062],
   [526555088, 446391849, 298269498, 104738319, -104738319, -298269498, -446391849, -526555088],
   [496004047, 205451603, -205451603, -496004047, -496004047, -205451603, 205451603, 496004047],
   [446391849, -104738319, -526555088, -298269498, 298269498, 526555088, 104738319, -446391849],
   [379625062, -379625062, -379625062, 379625062, 379625062, -379625062, -379625062, 379625062],
   [298269498, -526555088, 104738319, 446391849, -446391849, -104738319, 526555088, -298269498],
   [205451603, -496004047, 496004047, -205451603, -205451603, 496004047, -496004047, 205451603],
   [104738319, -298269498, 446391849, -526555088, 526555088, -446391849, 298269498, -104738319]] rfl

/-- g_0 and g_4 (42_transform.md R102). -/
def tabG (u : Fin 8) : List Int := if u = 0 then [1, 1, 1, 1, 1, 1, 1, 1] else [1, -1, -1, 1, 1, -1, -1, 1]

/-- The sum over y, x of s[8*y+x] * f(x) * g(y), row by row (42_transform.md R112). -/
def separableSum (s : Vector Byte 64) (f g : List Int) : Int :=
  ((List.finRange 8).map fun y =>
    g.getD y.val 0 * ((List.finRange 8).map fun x => f.getD x.val 0 * s[natural y x].toInt).sum).sum

/-- FDCTQ_TAB(s, Q)[i], 42_transform.md R112. -/
def fdctqTab (s steps : Vector Byte 64) (i : Fin 64) : Int :=
  let v := rowOf i
  let u := colOf i
  let q : Int := steps[i].toNat
  if (u = 0 ∨ u = 4) ∧ (v = 0 ∨ v = 4) then (2 * separableSum s (tabG u) (tabG v) + 8 * q) / (16 * q)
  else (2 * separableSum s tabA[u] tabA[v] + 2 ^ 60 * q) / (2 ^ 61 * q)

/-- One coefficient of FDCTQ of a build: the default, the computable instance, or another one within 1 of the default
(42_transform.md R105, FdctqTol1). -/
def fdctqAt (inst : FdctqInstance) (s steps : Vector Byte 64) (i : Fin 64) : Int :=
  match inst with
  | .ideal => fdctqIdeal s steps i
  | .tab => fdctqTab s steps i
  | .other => fdctqIdeal s steps i + deviationInt (Config.fdctqDeviation s steps i)

/-- FDCTQ(s, Q), the 64 coefficients as s16 (42_transform.md R105). -/
def fdctq (inst : FdctqInstance) (s steps : Vector Byte 64) : Vector Word16 64 :=
  vec fun i => BitVec.ofInt 16 (fdctqAt inst s steps i)

/-! ## Commands -/

/-- One data unit of channel c from its samples (42_transform.md R109). -/
def sampleUnit (c : Channel) (samples : Vector Byte 64) (s : State) : Run State :=
  dataUnit c (fdctq s.build.fdctq samples s.qt[qsel c]) s

/-- The pseudocode of ENCMCU (42_transform.md R108): Y, then Cb, then Cr. -/
def mcuBody (pl : Vector Byte 192) (s : State) : Run State :=
  (sampleUnit .y (samplesOf s.build.csc .y pl) s).andThen fun s =>
    (sampleUnit .cb (samplesOf s.build.csc .cb pl) s).andThen (sampleUnit .cr (samplesOf s.build.csc .cr pl))

/-- ENCMCU (42_transform.md R108). -/
def execEncmcu (s : State) : Host.Outcome State Fault Refusal :=
  execute .encmcu (withPayload 192 mcuBody) noData s

/-- ENCDU ch (42_transform.md R109): byte i of the payload is sample i, s8. -/
def execEncdu (ch : Channel) (s : State) : Host.Outcome State Fault Refusal :=
  execute (.encdu ch) (withPayload 64 (sampleUnit ch)) noData s

end Sys2Proof.Machine
end

