-- ==== Sys2Proof/Machine/Dispatch.lean ====
section
/-! DEFINITION. Which meaning each command has: one arm per constructor of Instr. -/

namespace Sys2Proof.Machine

def exec (i : Instr) (s : State) : Host.Outcome State Fault Refusal :=
  match i with
  | .nop => Sys2Proof.Machine.execNop s
  | .reset => Sys2Proof.Machine.execReset s
  | .wrreg addr data => Sys2Proof.Machine.execWrreg addr data s
  | .rdreg addr => Sys2Proof.Machine.execRdreg addr s
  | .rdtbl sel idx => Sys2Proof.Machine.execRdtbl sel idx s
  | .bldqt => Sys2Proof.Machine.execBldqt s
  | .bldht => Sys2Proof.Machine.execBldht s
  | .wbits len code => Sys2Proof.Machine.execWbits len code s
  | .wbyte byte => Sys2Proof.Machine.execWbyte byte s
  | .wword word => Sys2Proof.Machine.execWword word s
  | .align => Sys2Proof.Machine.execAlign s
  | .sync => Sys2Proof.Machine.execSync s
  | .soi => Sys2Proof.Machine.execSoi s
  | .app0 => Sys2Proof.Machine.execApp0 s
  | .dqt => Sys2Proof.Machine.execDqt s
  | .sof0 => Sys2Proof.Machine.execSof0 s
  | .dht => Sys2Proof.Machine.execDht s
  | .sos => Sys2Proof.Machine.execSos s
  | .eoi => Sys2Proof.Machine.execEoi s
  | .encmcu => Sys2Proof.Machine.execEncmcu s
  | .encdu ch => Sys2Proof.Machine.execEncdu ch s
  | .enccoef ch => Sys2Proof.Machine.execEnccoef ch s

end Sys2Proof.Machine
end

