-- ==== Sys2Proof/Machine/Step.lean ====
section
/-! DEFINITION. One step of the core: it takes the next act of the host and carries it out (10_state.md R10, R13: the core has
no program counter and fetches no instructions; the host holds the program). -/

namespace Sys2Proof.Machine

/-- One step. With no act of the host pending the core waits in its current state (20_memory.md R58); `rst` gives no response
(70_reset_and_hazards.md R186); a command word goes through Execute (40_system_commands.md R80). -/
def step (s : State) : Host.Outcome State Fault Refusal :=
  match s.inputs with
  | [] => .next s
  | .rst :: rest => .next (doReset { s with inputs := rest })
  | .takeOut :: rest => .next (takeOut { s with inputs := rest })
  | .cmd w :: rest =>
    match decode w with
    | .error _ => .next (reservedWord { s with inputs := rest })
    | .ok i => exec i { s with inputs := rest }

/-- The host issues the table's word `w` as its next act (log 1). -/
def State.withFetchWord (s : State) (nbits w : Nat) : State :=
  { s with inputs := .cmd (BitVec.ofNat 32 (w % 2 ^ nbits)) :: s.inputs }

end Sys2Proof.Machine
end

