-- ==== Sys2Proof/Machine/Assembler.lean ====
section
/-! DEFINITION. The assembler's names and pseudo-commands (30_encoding.md R65). The machine does not read them: they say which
words a program written in the spec's syntax consists of. -/

namespace Sys2Proof.Machine

/-- The names of the registers (10_state.md R16). -/
inductive Register where
  | status
  | width
  | height
  | scale
  | blkcnt
  | mcutot
  | sbcur
  | sinkcap
  | dcpY
  | dcpCb
  | dcpCr
deriving DecidableEq, Repr

/-- The address of a register (10_state.md R16). -/
def Register.addr : Register → BitVec 8
  | .status => 0x00
  | .width => 0x01
  | .height => 0x02
  | .scale => 0x03
  | .blkcnt => 0x04
  | .mcutot => 0x05
  | .sbcur => 0x06
  | .sinkcap => 0x07
  | .dcpY => 0x08
  | .dcpCb => 0x09
  | .dcpCr => 0x0A

/-- A line of a program: a command or a pseudo-command (30_encoding.md R65). -/
inductive Line where
  | command (i : Instr)
  | setdim (w h : Word16)
  | setscale (s : Word16)
  | init
  | headers
  | trailer
deriving DecidableEq, Repr

/-- The commands a line expands to, in order (30_encoding.md R65). -/
def Line.expand : Line → List Instr
  | .command i => [i]
  | .setdim w h => [.wrreg Register.width.addr w, .wrreg Register.height.addr h]
  | .setscale s => [.wrreg Register.scale.addr s, .bldqt]
  | .init => [.bldqt, .bldht]
  | .headers => [.soi, .app0, .dqt, .sof0, .dht, .sos]
  | .trailer => [.align, .eoi]

/-- The command words of a program. -/
def assemble (program : List Line) : List Word32 := (program.flatMap Line.expand).map encode

end Sys2Proof.Machine
end

