-- ==== Sys2Proof/Safety.lean ====
section
/-! DEFINITION. What counts as a good state and a safe run, in the terms the statements use: the invariant of the machine, a
host that accepts every delivery, what taking a fault leaves, and what a command may do to the output stream. -/

namespace Sys2Proof.Safety

open Sys2Proof.Machine

/-! ## Builds -/

/-- What the spec requires of the configuration constants: SINK_CAP at least 1 (00_scope.md R5), ZZ a permutation of 0..63 with
ZZ[0] = 0 (10_state.md R27), QBASE entries in 1..255 (R28). -/
structure BuildOk (b : Build) : Prop where
  cap      : 1 ≤ b.sinkCap.toNat
  zigzag   : b.zz.toList.Nodup
  zigzag0  : b.zz[0] = 0
  base     : ∀ (q : Fin 2) (i : Fin 64), 1 ≤ ((b.qbase[q])[i]).toNat

/-! ## The output stream -/

/-- Every `out` transaction to come is answered `ok` (20_memory.md R45). -/
structure AllOk (st : Stream) : Prop where
  scripted   : ∀ a ∈ st.answers, a = .ok
  thereafter : st.thereafter = .ok

/-- The free positions of ACC hold 0 (10_state.md R31). -/
def Tidy (st : Stream) : Prop := st.acc.toNat % 2 ^ (8 - st.nbits.toNat) = 0

/-- An output path as it is between commands (10_state.md R23, R31), with a host that accepts every delivery. -/
structure Ready (cap : Nat) (st : Stream) : Prop where
  ok   : AllOk st
  room : st.sb.length < cap
  tidy : Tidy st

/-- The host's answer to the k-th `out` transaction from here on, counted from 0 (20_memory.md R45). -/
def answerAt (st : Stream) (k : Nat) : SinkAnswer := (st.answers[k]?).getD st.thereafter

/-- The deliveries made on the way from st to st', all accepted: each chunk is a full sink buffer, OUT has grown by exactly the
chunks, the host's answers to them are used up (20_memory.md R43, R44). With what the logical stream is and `sb.length < cap`, this
settles how it is split between OUT and SB. -/
def DeliversFull (cap : Nat) (st st' : Stream) : Prop :=
  ∃ new : List (List Byte), st'.chunks = st.chunks ++ new ∧ st'.out = st.out ++ new.flatten ∧
    st'.answers = st.answers.drop new.length ∧ st'.thereafter = st.thereafter ∧ ∀ c ∈ new, c.length = cap

/-- The path from st to st' appended exactly the bytes `l` to the logical stream and touched nothing else of the accumulator;
the buffer was delivered at each moment it became full and at no other (20_memory.md R43, R44, R46). -/
structure WritesBytes (cap : Nat) (st st' : Stream) (l : List Byte) : Prop where
  ls    : st'.ls = st.ls ++ l
  acc   : st'.acc = st.acc
  nbits : st'.nbits = st.nbits
  split : DeliversFull cap st st'
  ok    : AllOk st'
  room  : st'.sb.length < cap

/-! ## Faults -/

/-- What taking a fault of cause c leaves of the state s it was taken in (60_exceptions.md R170, R173 item 1). -/
structure FaultTaken (c : FaultCause) (s t : State) : Prop where
  phase  : t.phase = .fault
  fault  : t.fault = some c
  fphase : t.fphase = s.phase
  rsp    : t.rsp = s.rsp ++ [⟨c.code, 0⟩]

/-- A precise fault's other half: nothing was delivered, no `out` transaction made, no payload pulled
(60_exceptions.md R173). -/
structure Precise (s t : State) : Prop where
  out      : t.stream.out = s.stream.out
  chunks   : t.stream.chunks = s.stream.chunks
  answers  : t.stream.answers = s.stream.answers
  payloads : t.payloads = s.payloads

/-- The state with one more response, of status 0 and the given data (20_memory.md R42). -/
def answered (data : Word32) (s : State) : State := { s with rsp := s.rsp ++ [⟨0, data⟩] }

/-- What is the host's, or fixed by the build, is as it was: OUT, the record and the script of deliveries, the payloads, the acts
to come, the constants. -/
structure HostSideKept (s t : State) : Prop where
  out        : t.stream.out = s.stream.out
  chunks     : t.stream.chunks = s.stream.chunks
  answers    : t.stream.answers = s.stream.answers
  thereafter : t.stream.thereafter = s.stream.thereafter
  inputs     : t.inputs = s.inputs
  payloads   : t.payloads = s.payloads
  build      : t.build = s.build

/-- A state in SCAN whose data units are all from the transform so far (43_entropy_coder.md R123): HT from the default
specifications, steps of at least 1, and the three predictors in the range of a quantized DC coefficient (42_transform.md R105). -/
structure CodedScan (s : State) : Prop where
  scan  : s.phase = .scan
  build : BuildOk s.build
  huff  : s.ht = buildAllHuff defaultBuild.hspec
  steps : ∀ (q : Fin 2) (i : Fin 64), 1 ≤ ((s.qt[q])[i]).toNat
  preds : ∀ c : Fin 3, -1025 ≤ (s.dcp[c]).toInt ∧ (s.dcp[c]).toInt ≤ 1017

/-- The core's state after `Reset()`, every value that 70_reset_and_hazards.md R185 gives. -/
structure AfterReset (t : State) : Prop where
  phase   : t.phase = .idle
  fault   : t.fault = none
  fphase  : t.fphase = .idle
  qtValid : t.qtValid = false
  htValid : t.htValid = false
  duValid : t.duValid = false
  nextch  : t.nextch = .y
  blkcnt  : t.blkcnt = 0
  width   : t.width = 0
  height  : t.height = 0
  scale   : t.scale = 50
  dcp     : ∀ c : Fin 3, t.dcp[c] = 0
  acc     : t.stream.acc = 0
  nbits   : t.stream.nbits = 0
  sbcur   : t.stream.sb = []

/-! ## The invariant -/

/-- The phases 1 to 7: a stream is open (10_state.md R14). -/
def inStream (p : Phase) : Prop :=
  p = .sSoi ∨ p = .sApp0 ∨ p = .sDqt ∨ p = .sSof0 ∨ p = .sDht ∨ p = .scan ∨ p = .aligned

/-- The sequencer's invariants, which hold between commands (10_state.md R14, R15, R23, R31; 40_system_commands.md R86, its
last paragraph, for the phases 1 to 7 only: log 14). After a fault only the first four say anything. -/
structure Inv (s : State) : Prop where
  build     : BuildOk s.build
  cause     : s.phase = .fault ↔ s.fault ≠ none
  oldPhase  : s.fphase ≠ .fault
  noFault   : s.phase ≠ .fault → s.fphase = .idle
  cursor    : s.phase ≠ .fault → s.stream.sb.length < s.build.sinkCap.toNat
  tidy      : s.phase ≠ .fault → Tidy s.stream
  noPending : s.phase ≠ .fault → s.phase ≠ .scan → s.stream.nbits = 0
  channel   : s.phase ≠ .fault → s.phase ≠ .scan → s.nextch = .y
  tables    : inStream s.phase → s.qtValid = true ∧ s.htValid = true ∧ s.width ≠ 0 ∧ s.height ≠ 0
  quant     : s.phase ≠ .fault → s.qtValid = true → s.qt = buildBothQt s.build s.scale
  huff      : s.phase ≠ .fault → s.htValid = true → anyMalformed s.build.hspec = false ∧ s.ht = buildAllHuff s.build.hspec
  unit      : s.phase ≠ .fault → s.duValid = true → s.zzb = reorder s.build.zz s.coef
  delivered : s.phase = .idle ∨ s.phase = .done → s.stream.sb = []

end Sys2Proof.Safety
end

