-- ==== Sys2Proof/Safety/Reference.lean ====
section
/-! DEFINITION. Second formulations that the statements compare the machine with, written from the rules in another form than
the machine's: the opcode rows as masks, bit strings and their packing into stuffed bytes, the bit string of a data unit, the
real-valued DCT. -/

namespace Sys2Proof.Reference

open Sys2Proof.Machine

/-! ## Opcode rows (30_encoding.md R62) -/

/-- A row of the opcode table: a word w belongs to it iff w & mask = pattern. -/
structure OpcodeRow where
  mnemonic : String
  pattern  : Word32
  mask     : Word32
deriving DecidableEq, Repr

/-- The 28 rows. -/
def opcodeRows : List OpcodeRow :=
  [⟨"NOP", 0x00000000, 0xFFFFFFFF⟩, ⟨"RESET", 0x01000000, 0xFFFFFFFF⟩, ⟨"WRREG", 0x02000000, 0xFF000000⟩,
   ⟨"RDREG", 0x03000000, 0xFF00FFFF⟩, ⟨"RDTBL", 0x04000000, 0xFFFFFEC0⟩, ⟨"RDTBL", 0x04000200, 0xFFFFFE00⟩,
   ⟨"RDTBL", 0x04000400, 0xFFFFFE00⟩, ⟨"RDTBL", 0x04000600, 0xFFFFFEC0⟩] ++
  [⟨"BLDQT", 0x10000000, 0xFFFFFFFF⟩, ⟨"BLDHT", 0x11000000, 0xFFFFFFFF⟩, ⟨"WBITS", 0x20000000, 0xFFF00000⟩,
   ⟨"WBITS", 0x20100000, 0xFFFF0000⟩, ⟨"WBYTE", 0x21000000, 0xFFFFFF00⟩, ⟨"WWORD", 0x22000000, 0xFFFF0000⟩,
   ⟨"ALIGN", 0x23000000, 0xFFFFFFFF⟩, ⟨"SYNC", 0x24000000, 0xFFFFFFFF⟩] ++
  [⟨"SOI", 0x30000000, 0xFFFFFFFF⟩, ⟨"APP0", 0x31000000, 0xFFFFFFFF⟩, ⟨"DQT", 0x32000000, 0xFFFFFFFF⟩,
   ⟨"SOF0", 0x33000000, 0xFFFFFFFF⟩, ⟨"DHT", 0x34000000, 0xFFFFFFFF⟩, ⟨"SOS", 0x35000000, 0xFFFFFFFF⟩,
   ⟨"EOI", 0x36000000, 0xFFFFFFFF⟩] ++
  [⟨"ENCMCU", 0x40000000, 0xFFFFFFFF⟩, ⟨"ENCDU", 0x41000000, 0xFFFFFFFE⟩, ⟨"ENCDU", 0x41000002, 0xFFFFFFFF⟩,
   ⟨"ENCCOEF", 0x42000000, 0xFFFFFFFE⟩, ⟨"ENCCOEF", 0x42000002, 0xFFFFFFFF⟩]

/-- The word belongs to the row. -/
abbrev OpcodeRow.holds (r : OpcodeRow) (w : Word32) : Prop := w &&& r.mask = r.pattern

/-- The mnemonic of a command (30_encoding.md R62). -/
def mnemonic : Instr → String
  | .nop => "NOP"
  | .reset => "RESET"
  | .wrreg _ _ => "WRREG"
  | .rdreg _ => "RDREG"
  | .rdtbl _ _ => "RDTBL"
  | .bldqt => "BLDQT"
  | .bldht => "BLDHT"
  | .wbits _ _ => "WBITS"
  | .wbyte _ => "WBYTE"
  | .wword _ => "WWORD"
  | .align => "ALIGN"
  | .sync => "SYNC"
  | .soi => "SOI"
  | .app0 => "APP0"
  | .dqt => "DQT"
  | .sof0 => "SOF0"
  | .dht => "DHT"
  | .sos => "SOS"
  | .eoi => "EOI"
  | .encmcu => "ENCMCU"
  | .encdu _ => "ENCDU"
  | .enccoef _ => "ENCCOEF"

/-! ## The sequencer's table (40_system_commands.md R86), row by row -/

/-- The column "legal when", as far as it names phases. -/
def legalPhases : Instr → List Phase
  | .nop => [.idle, .sSoi, .sApp0, .sDqt, .sSof0, .sDht, .scan, .aligned, .done]
  | .rdreg _ => [.idle, .sSoi, .sApp0, .sDqt, .sSof0, .sDht, .scan, .aligned, .done]
  | .rdtbl _ _ => [.idle, .sSoi, .sApp0, .sDqt, .sSof0, .sDht, .scan, .aligned, .done]
  | .sync => [.idle, .sSoi, .sApp0, .sDqt, .sSof0, .sDht, .scan, .aligned, .done]
  | .reset => [.idle, .sSoi, .sApp0, .sDqt, .sSof0, .sDht, .scan, .aligned, .done]
  | .wrreg _ _ => [.idle, .done]
  | .bldqt => [.idle, .done]
  | .bldht => [.idle, .done]
  | .soi => [.idle, .done]
  | .app0 => [.sSoi]
  | .dqt => [.sApp0]
  | .sof0 => [.sDqt]
  | .dht => [.sSof0]
  | .sos => [.sDht]
  | .encmcu => [.scan]
  | .encdu _ => [.scan]
  | .enccoef _ => [.scan]
  | .wbits _ _ => [.scan]
  | .align => [.scan]
  | .wbyte _ => [.sSoi, .sApp0, .sDqt, .sSof0, .sDht, .aligned]
  | .wword _ => [.sSoi, .sApp0, .sDqt, .sSof0, .sDht, .aligned]
  | .eoi => [.aligned]

/-- The value of NEXTCH a command requires, if it requires one. -/
def needsChannel : Instr → Option Channel
  | .encmcu => some .y
  | .align => some .y
  | .encdu ch => some ch
  | .enccoef ch => some ch
  | .nop | .reset | .wrreg _ _ | .rdreg _ | .rdtbl _ _ | .bldqt | .bldht | .wbits _ _ | .wbyte _ | .wword _ | .sync
  | .soi | .app0 | .dqt | .sof0 | .dht | .sos | .eoi => none

/-- Legal(d, PHASE, NEXTCH). -/
abbrev IsLegal (i : Instr) (p : Phase) (next : Channel) : Prop := p ∈ legalPhases i ∧ ∀ c ∈ needsChannel i, c = next

/-- The column "PHASE after success". -/
def phaseAfter (i : Instr) (p : Phase) : Phase :=
  match i with
  | .reset => .idle
  | .soi => .sSoi
  | .app0 => .sApp0
  | .dqt => .sDqt
  | .sof0 => .sSof0
  | .dht => .sDht
  | .sos => .scan
  | .align => .aligned
  | .eoi => .done
  | .nop | .rdreg _ | .rdtbl _ _ | .sync | .wrreg _ _ | .bldqt | .bldht | .encmcu | .encdu _ | .enccoef _ | .wbits _ _
  | .wbyte _ | .wword _ => p

/-- The causes a command may raise (60_exceptions.md R160, the column "raised by"); ILLEGAL aside, which only a reserved word
raises. -/
def mayRaise : Instr → List FaultCause
  | .nop => []
  | .reset => []
  | .wrreg _ _ => [.addr, .seq]
  | .rdreg _ => [.addr]
  | .rdtbl _ _ => [.tblInvalid]
  | .bldqt => [.seq]
  | .bldht => [.seq, .hspecBad]
  | .soi => [.seq, .tblInvalid, .cfg, .sinkWrite]
  | .sync => [.sinkWrite]
  | .wbits _ _ | .wbyte _ | .wword _ | .align | .app0 | .dqt | .sof0 | .dht | .sos | .eoi => [.seq, .sinkWrite]
  | .encmcu | .encdu _ | .enccoef _ => [.seq, .srcRead, .uncoded, .sinkWrite]

/-- The bytes of a 16-bit number, high byte first (20_memory.md R48). -/
def bigEndian (n : Nat) : List Byte := [BitVec.ofNat 8 (n / 256), BitVec.ofNat 8 (n % 256)]

/-! ## Bit strings -/

/-- The n low bits of `code`, first-written first: bit n-1 down to bit 0 (20_memory.md R48). -/
def bitString (code n : Nat) : List Bool := (List.range n).map fun j => code.testBit (n - 1 - j)

/-- The pending bits, first-written first: ACC[7 : 8-NBITS] (10_state.md R17). -/
def pendingBits (st : Stream) : List Bool := (List.range st.nbits.toNat).map fun j => st.acc.getLsbD (7 - j)

/-- The number whose bits these are, most significant first. -/
def bitsValue (l : List Bool) : Nat := l.foldl (fun n b => 2 * n + b.toNat) 0

/-- A bit string cut into bytes, the first bit of a byte being its bit 7; what does not fill a byte is left out. -/
def fullBytes : List Bool → List Byte
  | a :: b :: c :: d :: e :: f :: g :: h :: rest => BitVec.ofNat 8 (bitsValue [a, b, c, d, e, f, g, h]) :: fullBytes rest
  | _ => []

/-- The bits that do not fill a byte. -/
def leftoverBits : List Bool → List Bool
  | _ :: _ :: _ :: _ :: _ :: _ :: _ :: _ :: rest => leftoverBits rest
  | l => l

/-- Every FF followed by a 00 (44_bit_writer.md R131). -/
def stuffed : List Byte → List Byte
  | [] => []
  | b :: rest => if b = 0xFF then b :: 0x00 :: stuffed rest else b :: stuffed rest

/-- What the bytes of entropy-coded data look like: FF occurs only in front of a 00 (44_bit_writer.md R140 item 3). -/
def markerFree : List Byte → Bool
  | [] => true
  | [b] => decide (b ≠ 0xFF)
  | b :: c :: rest => decide (b = 0xFF → c = 0x00) && markerFree (c :: rest)

/-- The path from st to st' wrote exactly the bit string `bits` behind the pending ones: the whole bytes went to the logical
stream, stuffed, and the rest is pending (44_bit_writer.md R130, R131); full sink buffers were delivered (20_memory.md R43). -/
structure WritesBits (cap : Nat) (st st' : Stream) (bits : List Bool) : Prop where
  ls      : st'.ls = st.ls ++ stuffed (fullBytes (pendingBits st ++ bits))
  pending : pendingBits st' = leftoverBits (pendingBits st ++ bits)
  split   : Safety.DeliversFull cap st st'
  ready   : Safety.Ready cap st'

/-! ## The bits of one data unit (43_entropy_coder.md R117 to R121) -/

/-- The code of a symbol, if it has one. -/
def symbolBits (t : Vector HuffEntry 256) (sym : Nat) : Option (List Bool) :=
  let e := t[sym]?.getD ⟨0, 0⟩
  if e.len = 0 then none else some (bitString e.code.toNat e.len.toNat)

/-- The size of a value: the least n with |v| < 2^n (00_scope.md, glossary: size). -/
def valueSize (v : Int) : Nat := Nat.size v.natAbs

/-- The amplitude bits of a value of size n: its own bits, or for a negative one those of v + 2^n - 1 (43_entropy_coder.md
R116). -/
def amplitudeBits (v : Int) : List Bool :=
  bitString (if 0 ≤ v then v.natAbs else (v + 2 ^ valueSize v - 1).toNat) (valueSize v)

/-- The bits of the DC term (43_entropy_coder.md R118). -/
def dcBits (t : Vector HuffEntry 256) (diff : Int) : Option (List Bool) :=
  (symbolBits t (valueSize diff)).map (· ++ amplitudeBits diff)

/-- n times the ZRL symbol. -/
def zrlBits (t : Vector HuffEntry 256) : Nat → Option (List Bool)
  | 0 => some []
  | n + 1 => (symbolBits t 0xF0).bind fun z => (zrlBits t n).map (z ++ ·)

/-- The bits of a non-zero AC term with `zeros` zeros in front (43_entropy_coder.md R119). -/
def termBits (t : Vector HuffEntry 256) (zeros : Nat) (v : Int) : Option (List Bool) :=
  if 15 < valueSize v then none
  else
    (zrlBits t (zeros / 16)).bind fun z =>
      (symbolBits t (zeros % 16 * 16 + valueSize v)).map fun b => z ++ b ++ amplitudeBits v

/-- The bits of the AC terms from one position on, with `zeros` zeros already seen; trailing zeros give the end of block
unless the last term is not zero (43_entropy_coder.md R119, R120). -/
def acBits (t : Vector HuffEntry 256) (zeros : Nat) : List Int → Option (List Bool)
  | [] => if zeros = 0 then some [] else symbolBits t 0x00
  | v :: rest =>
    if v = 0 then acBits t (zeros + 1) rest
    else (termBits t zeros v).bind fun b => (acBits t 0 rest).map (b ++ ·)

/-- The bit string of a data unit in zigzag order after the predictor `pred`, if every symbol of it has a code. -/
def unitBits (dcTable acTable : Vector HuffEntry 256) (pred : Word16) (zzb : Vector Word16 64) : Option (List Bool) :=
  (dcBits dcTable ((zzb[0]).toInt - pred.toInt)).bind fun d =>
    (acBits acTable 0 (zzb.toList.tail.map (·.toInt))).map (d ++ ·)

/-- The bit string of a data unit of channel c in a state: its predictor and its two tables (42_transform.md R110). -/
def channelBits (c : Channel) (coef : Vector Word16 64) (s : State) : Option (List Bool) :=
  unitBits s.ht[tdc c] s.ht[tac c] s.dcp[chanIdx c] (reorder s.build.zz coef)

/-! ## The counters after a data unit (42_transform.md R111) -/

/-- NEXTCH after a data unit of channel c. -/
def nextChannel : Channel → Channel
  | .y => .cb
  | .cb => .cr
  | .cr => .y

/-- BLKCNT after a data unit of channel c. -/
def nextBlkcnt (c : Channel) (n : Word32) : Word32 :=
  match c with
  | .y => n
  | .cb => n
  | .cr => BitVec.ofNat 32 ((n.toNat + 1) % 2 ^ 32)

/-- The state after one data unit of channel c: COEF, ZZB, DCP[c], DU_VALID, NEXTCH and BLKCNT as 43_entropy_coder.md R121,
R122 and 42_transform.md R111 say, the output path and the rest of the payloads as given. -/
def unitDone (c : Channel) (coef : Vector Word16 64) (st : Stream) (rest : List PayloadAnswer) (s : State) : State :=
  { s with
    coef := coef
    zzb := reorder s.build.zz coef
    dcp := s.dcp.set (chanIdx c) (reorder s.build.zz coef)[0]
    duValid := true
    nextch := nextChannel c
    blkcnt := nextBlkcnt c s.blkcnt
    stream := st
    payloads := rest }

/-! ## The real-valued DCT (42_transform.md R102) -/

/-- C(0) = 1/sqrt(2), C(k) = 1 for k = 1..7. -/
noncomputable def dctC (k : Fin 8) : ℝ := if k = 0 then 1 / Real.sqrt 2 else 1

/-- F[8*v+u] for the samples s. -/
noncomputable def dctReal (s : Vector Byte 64) (v u : Fin 8) : ℝ :=
  1 / 4 * dctC u * dctC v *
    ∑ y : Fin 8, ∑ x : Fin 8,
      ((s[natural y x]).toInt : ℝ) * Real.cos ((2 * (x.val : ℝ) + 1) * (u.val : ℝ) * Real.pi / 16) *
        Real.cos ((2 * (y.val : ℝ) + 1) * (v.val : ℝ) * Real.pi / 16)

/-- The samples of an ENCDU payload: byte i is sample i, s8 (30_encoding.md R63). -/
def samplesOfBytes (b : List Byte) : Vector Byte 64 := vec fun i => b.getD i.val 0

/-- The coefficients of an ENCCOEF payload (30_encoding.md R63): coefficient i is the s16 with high byte 2i, low byte 2i+1. -/
def coefsOfBytes (b : List Byte) : Vector Word16 64 :=
  vec fun i => BitVec.ofNat 16 ((b.getD (2 * i.val) 0).toNat * 256 + (b.getD (2 * i.val + 1) 0).toNat)

/-- The bytes of 64 coefficients, big-endian (30_encoding.md R63). -/
def bytesOfCoefs (co : Vector Word16 64) : List Byte := co.toList.flatMap wordBytes

/-- The samples of one channel of an ENCMCU payload (42_transform.md R108). -/
def samplesOfPixels (inst : CscInstance) (c : Channel) (b : List Byte) : Vector Byte 64 :=
  vec fun i => BitVec.ofInt 8 (csc inst c (b.getD (3 * i.val) 0) (b.getD (3 * i.val + 1) 0) (b.getD (3 * i.val + 2) 0))

end Sys2Proof.Reference
end

