-- ==== Sys2Proof/Certificates/Slice0/Obligations.lean ====
section
/-! DEFINITION. The statements for the provers. Each docstring says what its statement says; where a clause rests on a choice of
the model and not on a rule, it names the log entry. -/

open Sys2Proof Sys2Proof.Machine Sys2Proof.Safety Sys2Proof.Reference

/-- For every well-formed command, with every operand at every value its field admits, the decoder reads from the word that
the encoder writes exactly that command with exactly those operands. (30_encoding.md section 2, 30_encoding.md section 3,
30_encoding.md section 7.) -/
def Obligations.DecodeEncode : Prop :=
  ∀ i : Instr, i.wellFormed = true → decode (encode i) = .ok i

/-- Whenever a word decodes to a command, that command is well-formed and its encoding is that very word: no bit of a legal
word is dropped, and no two words decode to one command. (30_encoding.md section 2, 30_encoding.md section 5, 30_encoding.md
section 7.) -/
def Obligations.EncodeDecode : Prop :=
  ∀ (w : Word32) (i : Instr), decode w = .ok i → i.wellFormed = true ∧ encode i = w

/-- A word decodes to some command if and only if it belongs to one of the 28 (match, mask) rows of the opcode table, and
every row it belongs to carries the mnemonic of the command it decodes to. (30_encoding.md section 3, 30_encoding.md section
5.) -/
def Obligations.LegalWordsAreTableRows : Prop :=
  ∀ w : Word32,
    ((∃ i, decode w = .ok i) ↔ ∃ r ∈ opcodeRows, r.holds w) ∧
      ∀ i, decode w = .ok i → ∀ r ∈ opcodeRows, r.holds w → r.mnemonic = mnemonic i

/-- Eleven words written out from the formats decode to the commands they stand for: NOP, WRREG WIDTH 8, RDREG DCP_CR, RDTBL
HT_ACY 0xF0, BLDHT, WBITS 13 0x1ABC, WBYTE 0xFF, WWORD 0xFFD8, SOF0, ENCDU Cr and ENCCOEF Cb. (30_encoding.md section 2,
30_encoding.md section 3, 30_encoding.md section 6.) -/
def Obligations.FamilyWordsDecode : Prop :=
  decode 0x00000000 = .ok .nop ∧ decode 0x02010008 = .ok (.wrreg 0x01 8) ∧ decode 0x030A0000 = .ok (.rdreg 0x0A) ∧
  decode 0x040003F0 = .ok (.rdtbl .htAcY 0xF0) ∧ decode 0x11000000 = .ok .bldht ∧
  decode 0x200D1ABC = .ok (.wbits 13 0x1ABC) ∧ decode 0x210000FF = .ok (.wbyte 0xFF) ∧
  decode 0x2200FFD8 = .ok (.wword 0xFFD8) ∧ decode 0x33000000 = .ok .sof0 ∧ decode 0x41000002 = .ok (.encdu .cr) ∧
  decode 0x42000001 = .ok (.enccoef .cb)

/-- When the host's next act is a command word that decodes to a command, the step is the execution of that command in the
state with the act taken off the queue, and nothing else. That the host's acts stand in a queue is the model's choice (log
1). (40_system_commands.md section 1, 20_memory.md section 2.) -/
def Obligations.StepRunsDecodedCommand : Prop :=
  ∀ (s : State) (w : Word32) (rest : List HostEvent) (i : Instr),
    s.inputs = .cmd w :: rest → decode w = .ok i → step s = exec i { s with inputs := rest }

/-- Outside the FAULT phase a step on a command word that belongs to none of the 28 rows takes the ILLEGAL fault: PHASE is
FAULT, FAULT is ILLEGAL, FPHASE is the phase before, the response is (1, 0); OUT, the deliveries and the payloads are as
they were. That the host's acts stand in a queue is the model's choice (log 1). (30_encoding.md section 5,
40_system_commands.md section 1, 60_exceptions.md section 1.) -/
def Obligations.ReservedWordIsIllegal : Prop :=
  ∀ (s : State) (w : Word32) (rest : List HostEvent),
    s.inputs = .cmd w :: rest → s.phase ≠ .fault → (∀ r ∈ opcodeRows, ¬ r.holds w) →
      ∃ t, step s = .next t ∧ FaultTaken .illegal s t ∧ Precise s t ∧ t.inputs = rest

/-- With no act of the host pending a step changes nothing. A step on rst gives the reset values, keeps everything of the
host's and gives no response. A step on which the host takes OUT empties OUT and changes nothing else. That the host's acts
stand in a queue, the taking of OUT among them, is the model's choice (log 1, 2). (20_memory.md section 11,
70_reset_and_hazards.md section 1.) -/
def Obligations.HostActsBetweenCommands : Prop :=
  (∀ s : State, s.inputs = [] → step s = .next s) ∧
  (∀ (s : State) (rest : List HostEvent), s.inputs = .rst :: rest →
    ∃ t, step s = .next t ∧ AfterReset t ∧ HostSideKept { s with inputs := rest } t ∧ t.rsp = s.rsp) ∧
  (∀ (s : State) (rest : List HostEvent), s.inputs = .takeOut :: rest →
    step s = .next { s with inputs := rest, stream := { s.stream with out := [] } })

/-- The word 0x00000000 is NOP; in every state, the FAULT phase included, executing it appends the response (0, 0) and
leaves everything else as it was. (R81.) -/
def Obligations.NopRule : Prop :=
  decode 0x00000000 = .ok .nop ∧ ∀ s : State, exec .nop s = .next (answered 0 s)

/-- In every state, the FAULT phase included, RESET gives PHASE, FAULT, FPHASE, the valid bits, NEXTCH, BLKCNT, WIDTH,
HEIGHT, SCALE, DCP, ACC, NBITS and SBCUR their reset values, responds (0, 0), delivers nothing and leaves OUT, the record of
deliveries, the payloads and the constants as they were. (40_system_commands.md section 3, 70_reset_and_hazards.md section
1.) -/
def Obligations.ResetCommand : Prop :=
  ∀ s : State, ∃ t, exec .reset s = .next t ∧ AfterReset t ∧ HostSideKept s t ∧ t.rsp = s.rsp ++ [⟨0, 0⟩]

/-- The machine right after reset has every value that the reset rule gives, and its STATUS is 0. (QT, HT, COEF and ZZB, for
which the rule gives none, are not spoken of: log 7.) (70_reset_and_hazards.md section 1, 10_state.md section 1.) -/
def Obligations.ResetState : Prop :=
  AfterReset State.reset ∧ statusWord State.reset = 0

/-- Every word with opcode 0x02 decodes to WRREG. Outside the FAULT phase an address other than 1, 2 or 3 takes the ADDR
fault in every phase; with one of the three addresses the phases 1 to 7 take SEQ; in IDLE and DONE the command writes WIDTH,
HEIGHT, or SCALE with QT_VALID cleared, responds (0, 0) and changes nothing else, QT included. (R83.) -/
def Obligations.WrregRule : Prop :=
  (∀ (a : BitVec 8) (d : Word16), decode ((0x02 : BitVec 8) ++ a ++ d) = .ok (.wrreg a d)) ∧
  (∀ (a : BitVec 8) (d : Word16) (s : State), s.phase ≠ .fault → a ≠ 0x01 → a ≠ 0x02 → a ≠ 0x03 →
    ∃ t, exec (.wrreg a d) s = .next t ∧ FaultTaken .addr s t ∧ Precise s t) ∧
  (∀ (a : BitVec 8) (d : Word16) (s : State), s.phase ≠ .fault → s.phase ≠ .idle → s.phase ≠ .done →
    (a = 0x01 ∨ a = 0x02 ∨ a = 0x03) → ∃ t, exec (.wrreg a d) s = .next t ∧ FaultTaken .seq s t ∧ Precise s t) ∧
  (∀ (d : Word16) (s : State), (s.phase = .idle ∨ s.phase = .done) →
    exec (.wrreg 0x01 d) s = .next (answered 0 { s with width := d }) ∧
    exec (.wrreg 0x02 d) s = .next (answered 0 { s with height := d }) ∧
    exec (.wrreg 0x03 d) s = .next (answered 0 { s with scale := d, qtValid := false }))

/-- A word with opcode 0x03 and data not 0 is reserved. In every phase but FAULT the eleven addresses answer (0, value):
STATUS, WIDTH, HEIGHT, SCALE, BLKCNT, the MCU total, SBCUR, SINK_CAP and the three sign-extended predictors, and no state
changes; every other address takes the ADDR fault. In FAULT only address 0 executes; every other address is refused with the
stored cause. (R84.) -/
def Obligations.RdregRule : Prop :=
  (∀ (a : BitVec 8) (d : Word16), d ≠ 0 → ∀ i, decode ((0x03 : BitVec 8) ++ a ++ d) ≠ .ok i) ∧
  (∀ s : State, s.phase ≠ .fault →
    exec (.rdreg 0x00) s = .next (answered (statusWord s) s) ∧
    exec (.rdreg 0x01) s = .next (answered (BitVec.ofNat 32 s.width.toNat) s) ∧
    exec (.rdreg 0x02) s = .next (answered (BitVec.ofNat 32 s.height.toNat) s) ∧
    exec (.rdreg 0x03) s = .next (answered (BitVec.ofNat 32 s.scale.toNat) s) ∧
    exec (.rdreg 0x04) s = .next (answered s.blkcnt s) ∧
    exec (.rdreg 0x05) s =
      .next (answered (BitVec.ofNat 32 ((s.width.toNat + 7) / 8 * ((s.height.toNat + 7) / 8))) s) ∧
    exec (.rdreg 0x06) s = .next (answered (BitVec.ofNat 32 s.stream.sb.length) s) ∧
    exec (.rdreg 0x07) s = .next (answered s.build.sinkCap s) ∧
    exec (.rdreg 0x08) s = .next (answered (BitVec.ofInt 32 (s.dcp[0]).toInt) s) ∧
    exec (.rdreg 0x09) s = .next (answered (BitVec.ofInt 32 (s.dcp[1]).toInt) s) ∧
    exec (.rdreg 0x0A) s = .next (answered (BitVec.ofInt 32 (s.dcp[2]).toInt) s)) ∧
  (∀ (a : BitVec 8) (s : State), s.phase ≠ .fault → 0x0A < a.toNat →
    ∃ t, exec (.rdreg a) s = .next t ∧ FaultTaken .addr s t ∧ Precise s t) ∧
  (∀ s : State, s.phase = .fault → exec (.rdreg 0x00) s = .next (answered (statusWord s) s)) ∧
  (∀ (a : BitVec 8) (s : State), s.phase = .fault → a ≠ 0x00 →
    exec (.rdreg a) s = .next { s with rsp := s.rsp ++ [⟨faultField s.fault, 0⟩] })

/-- Outside the FAULT phase the number STATUS shows is PHASE + QT_VALID*2^4 + HT_VALID*2^5 + NEXTCH*2^6 + FAULT*2^8 +
FPHASE*2^12 + NBITS*2^16 + DU_VALID*2^19 + ACC*2^24; in the FAULT phase it is 15 + FAULT*2^8 + FPHASE*2^12, whatever the
rest of the state is. (10_state.md section 5, 60_exceptions.md section 4.) -/
def Obligations.StatusLayout : Prop :=
  ∀ s : State, (statusWord s).toNat =
    if s.phase = .fault then 15 + (faultField s.fault).toNat * 2 ^ 8 + s.fphase.code.toNat * 2 ^ 12
    else
      s.phase.code.toNat + s.qtValid.toNat * 2 ^ 4 + s.htValid.toNat * 2 ^ 5 + (chanIdx s.nextch).val * 2 ^ 6 +
        (faultField s.fault).toNat * 2 ^ 8 + s.fphase.code.toNat * 2 ^ 12 + s.stream.nbits.toNat * 2 ^ 16 +
        s.duValid.toNat * 2 ^ 19 + s.stream.acc.toNat * 2 ^ 24

/-- In every phase but FAULT, RDTBL answers (0, value) and changes no state: for QT_Y and QT_C the step (needs QT_VALID),
for the four Huffman windows len*65536 + code (needs HT_VALID), for COEF and ZZB the sign-extended coefficient (needs
DU_VALID), at every index the window has. With the valid bit 0 it takes the TBL_INVALID fault. (40_system_commands.md
section 3, 60_exceptions.md section 1.) -/
def Obligations.RdtblRule : Prop :=
  ∀ s : State, s.phase ≠ .fault →
    (∀ k : Fin 64, s.qtValid = true →
      exec (.rdtbl .qtY (BitVec.ofNat 8 k.val)) s = .next (answered (BitVec.ofNat 32 ((s.qt[0])[k]).toNat) s) ∧
      exec (.rdtbl .qtC (BitVec.ofNat 8 k.val)) s = .next (answered (BitVec.ofNat 32 ((s.qt[1])[k]).toNat) s)) ∧
    (∀ k : Fin 256, s.htValid = true →
      exec (.rdtbl .htDcY (BitVec.ofNat 8 k.val)) s = .next (answered
        (BitVec.ofNat 32 (((s.ht[0])[k]).len.toNat * 65536 + ((s.ht[0])[k]).code.toNat)) s) ∧
      exec (.rdtbl .htAcY (BitVec.ofNat 8 k.val)) s = .next (answered
        (BitVec.ofNat 32 (((s.ht[1])[k]).len.toNat * 65536 + ((s.ht[1])[k]).code.toNat)) s) ∧
      exec (.rdtbl .htDcC (BitVec.ofNat 8 k.val)) s = .next (answered
        (BitVec.ofNat 32 (((s.ht[2])[k]).len.toNat * 65536 + ((s.ht[2])[k]).code.toNat)) s) ∧
      exec (.rdtbl .htAcC (BitVec.ofNat 8 k.val)) s = .next (answered
        (BitVec.ofNat 32 (((s.ht[3])[k]).len.toNat * 65536 + ((s.ht[3])[k]).code.toNat)) s)) ∧
    (∀ k : Fin 64, s.duValid = true →
      exec (.rdtbl .coef (BitVec.ofNat 8 k.val)) s = .next (answered (BitVec.ofInt 32 (s.coef[k]).toInt) s) ∧
      exec (.rdtbl .zzb (BitVec.ofNat 8 k.val)) s = .next (answered (BitVec.ofInt 32 (s.zzb[k]).toInt) s)) ∧
    (∀ (sel : Window) (idx : BitVec 8), idx.toNat < sel.entries →
      ((sel = .qtY ∨ sel = .qtC) ∧ s.qtValid = false ∨
        (sel = .htDcY ∨ sel = .htAcY ∨ sel = .htDcC ∨ sel = .htAcC) ∧ s.htValid = false ∨
        (sel = .coef ∨ sel = .zzb) ∧ s.duValid = false) →
      ∃ t, exec (.rdtbl sel idx) s = .next t ∧ FaultTaken .tblInvalid s t ∧ Precise s t)

/-- In IDLE and DONE, on a build whose zigzag table is a permutation, BLDQT responds (0, 0), sets QT_VALID and fills QT so
that entry i of table q is clamp((QBASE[q][i]*SCALE + 50) div 100, 1, 255); nothing else changes. (41_table_builder.md
section 2.) -/
def Obligations.BldqtBuilds : Prop :=
  ∀ s : State, BuildOk s.build → (s.phase = .idle ∨ s.phase = .done) →
    ∃ tables : Vector (Vector Byte 64) 2,
      exec .bldqt s = .next (answered 0 { s with qt := tables, qtValid := true }) ∧
      ∀ (q : Fin 2) (i : Fin 64), ((tables[q])[i]).toNat =
        max 1 (min 255 ((((s.build.qbase[q])[i]).toNat * s.scale.toNat + 50) / 100))

/-- In IDLE and DONE, if none of the four specifications is malformed, BLDHT stores the four built tables, sets HT_VALID,
responds (0, 0) and changes nothing else; if one is malformed it takes the HSPEC_BAD fault. (41_table_builder.md section 1.)
-/
def Obligations.BldhtBuilds : Prop :=
  ∀ s : State, (s.phase = .idle ∨ s.phase = .done) →
    ((∀ t : Fin 4, malformed s.build.hspec[t] = false) →
      exec .bldht s = .next (answered 0 { s with ht := vec fun t : Fin 4 => buildHuff s.build.hspec[t], htValid := true })) ∧
    ((∃ t : Fin 4, malformed s.build.hspec[t] = true) → ∃ u, exec .bldht s = .next u ∧ FaultTaken .hspecBad s u)

/-- The test of a Huffman specification holds exactly if the counts do not sum to the number of symbols, or some symbol
occurs twice, or there is a length L with sum over l <= L of counts[l]*2^(L-l) > 2^L. (41_table_builder.md section 1.) -/
def Obligations.MalformedMeans : Prop :=
  ∀ h : HuffSpec, malformed h = true ↔
    ((∑ l : Fin 16, (h.counts[l]).toNat) ≠ h.symbols.length ∨ ¬ h.symbols.Nodup ∨
      ∃ L : Fin 16,
        2 ^ (L.val + 1) < ∑ l : Fin 16, if l ≤ L then (h.counts[l]).toNat * 2 ^ (L.val - l.val) else 0)

/-- For every specification that is not malformed: a listed symbol has a length 1..16 and a code below 2^length, every other
symbol has the entry (0, 0); two different listed symbols never share (length, code) and no code is a prefix of another;
along the list the lengths do not decrease, codes of one length are consecutive, and a longer code is larger than a shorter
one extended with zeros. (41_table_builder.md section 3, 41_table_builder.md section 1.) -/
def Obligations.BuiltCodesArePrefixCode : Prop :=
  ∀ h : HuffSpec, malformed h = false →
    (∀ s : Fin 256, BitVec.ofNat 8 s.val ∈ h.symbols →
      1 ≤ ((buildHuff h)[s]).len.toNat ∧ ((buildHuff h)[s]).len.toNat ≤ 16 ∧
        ((buildHuff h)[s]).code.toNat < 2 ^ ((buildHuff h)[s]).len.toNat) ∧
    (∀ s : Fin 256, BitVec.ofNat 8 s.val ∉ h.symbols → (buildHuff h)[s] = ⟨0, 0⟩) ∧
    (∀ s t : Fin 256, BitVec.ofNat 8 s.val ∈ h.symbols → BitVec.ofNat 8 t.val ∈ h.symbols → s ≠ t →
      (buildHuff h)[s] ≠ (buildHuff h)[t] ∧
      ¬ bitString ((buildHuff h)[s]).code.toNat ((buildHuff h)[s]).len.toNat <+:
          bitString ((buildHuff h)[t]).code.toNat ((buildHuff h)[t]).len.toNat) ∧
    (∀ (j k : Nat) (hk : k < h.symbols.length) (hj : j < k),
      let a := (buildHuff h)[(h.symbols[j]'(Nat.lt_trans hj hk)).toFin]
      let b := (buildHuff h)[(h.symbols[k]).toFin]
      a.len.toNat ≤ b.len.toNat ∧
      (a.len = b.len → b.code.toNat = a.code.toNat + (k - j)) ∧
      (a.len.toNat < b.len.toNat → a.code.toNat * 2 ^ (b.len.toNat - a.len.toNat) < b.code.toNat))

/-- None of the four default specifications is malformed; their DC tables have codes for exactly the symbols 0..11, their AC
tables for exactly 162 symbols (0x00, 0xF0, and run*16+size with size 1..10), and no code is all 1-bits.
(41_table_builder.md section 1, 41_table_builder.md section 3, 10_state.md section 6.) -/
def Obligations.DefaultSpecsBuild : Prop :=
  (∀ t : Fin 4, malformed defaultBuild.hspec[t] = false) ∧
  (∀ s : Fin 256,
    ((buildHuff defaultBuild.hspec[0])[s].len ≠ 0 ↔ s.val ≤ 11) ∧
    ((buildHuff defaultBuild.hspec[2])[s].len ≠ 0 ↔ s.val ≤ 11) ∧
    ((buildHuff defaultBuild.hspec[1])[s].len ≠ 0 ↔
      s.val = 0x00 ∨ s.val = 0xF0 ∨ (1 ≤ s.val % 16 ∧ s.val % 16 ≤ 10)) ∧
    ((buildHuff defaultBuild.hspec[3])[s].len ≠ 0 ↔
      s.val = 0x00 ∨ s.val = 0xF0 ∨ (1 ≤ s.val % 16 ∧ s.val % 16 ≤ 10))) ∧
  (∀ (t : Fin 4) (s : Fin 256), (buildHuff defaultBuild.hspec[t])[s].len ≠ 0 →
    (buildHuff defaultBuild.hspec[t])[s].code.toNat + 1 < 2 ^ (buildHuff defaultBuild.hspec[t])[s].len.toNat)

/-- In SCAN, for a length up to 16 and a host that accepts every delivery, WBITS responds (0, 0) and appends the bits
code[len-1..0] behind the pending ones: whole bytes go to the logical stream with 00 after every FF, the rest stays pending
in ACC and NBITS; nothing else of the state changes. (44_bit_writer.md section 1, 44_bit_writer.md section 2, 20_memory.md
section 5.) -/
def Obligations.WbitsCompletes : Prop :=
  ∀ (s : State) (len : BitVec 5) (code : Word16), s.phase = .scan → len.toNat ≤ 16 → Ready s.build.sinkCap.toNat s.stream →
    ∃ st, exec (.wbits len code) s = .next (answered 0 { s with stream := st }) ∧
      WritesBits s.build.sinkCap.toNat s.stream st (bitString code.toNat len.toNat)

/-- In the phases S_SOI to S_DHT and ALIGNED, with a host that accepts every delivery, WBYTE appends its byte and WWORD its
high byte then its low byte to the logical stream, unstuffed; both respond (0, 0), the accumulator and everything else stay.
(44_bit_writer.md section 1, 44_bit_writer.md section 2, 20_memory.md section 5.) -/
def Obligations.WbyteWwordComplete : Prop :=
  ∀ s : State,
    (s.phase = .sSoi ∨ s.phase = .sApp0 ∨ s.phase = .sDqt ∨ s.phase = .sSof0 ∨ s.phase = .sDht ∨ s.phase = .aligned) →
    AllOk s.stream → s.stream.sb.length < s.build.sinkCap.toNat →
    (∀ b : Byte, ∃ st, exec (.wbyte b) s = .next (answered 0 { s with stream := st }) ∧
      WritesBytes s.build.sinkCap.toNat s.stream st [b]) ∧
    (∀ w : Word16, ∃ st, exec (.wword w) s = .next (answered 0 { s with stream := st }) ∧
      WritesBytes s.build.sinkCap.toNat s.stream st (bigEndian w.toNat))

/-- In SCAN with NEXTCH = 0 and a host that accepts every delivery, ALIGN writes 8 - NBITS one-bits if bits are pending and
none otherwise, leaves NBITS = 0 and ACC = 0, sets PHASE to ALIGNED and responds (0, 0); nothing else changes.
(44_bit_writer.md section 1, 44_bit_writer.md section 2, 20_memory.md section 10.) -/
def Obligations.AlignCompletes : Prop :=
  ∀ s : State, s.phase = .scan → s.nextch = .y → Ready s.build.sinkCap.toNat s.stream →
    ∃ st, exec .align s = .next (answered 0 { s with stream := st, phase := .aligned }) ∧
      WritesBits s.build.sinkCap.toNat s.stream st (List.replicate ((8 - s.stream.nbits.toNat) % 8) true) ∧
      st.nbits = 0 ∧ st.acc = 0

/-- In every phase but FAULT, with a host that accepts the delivery, SYNC responds (0, 0); afterwards SBCUR is 0 and OUT is
the logical stream as it was, the chunk delivered is the buffer, or there is no transaction if the buffer was empty; nothing
else changes, ACC and NBITS included. (44_bit_writer.md section 2, 20_memory.md section 3, 20_memory.md section 10.) -/
def Obligations.SyncCompletes : Prop :=
  ∀ s : State, s.phase ≠ .fault →
    (s.stream.sb = [] → exec .sync s = .next (answered 0 s)) ∧
    (s.stream.sb ≠ [] → s.stream.nextAnswer = .ok →
      exec .sync s = .next (answered 0 { s with stream :=
        { s.stream with
          out := s.stream.out ++ s.stream.sb, sb := [], chunks := s.stream.chunks ++ [s.stream.sb],
          answers := s.stream.answers.tail } }))

/-- For every command outside the FAULT phase with SBCUR < SINK_CAP before it: each chunk it offers is a whole full buffer
of SINK_CAP bytes (for SYNC the buffer as it is, for EOI the last chunk may be shorter), every chunk but the last was
answered ok, and the command takes SINK_WRITE if and only if one of them was answered fail. In particular, whatever the
buffer holds: a SYNC of a non-empty buffer, and an EOI in ALIGNED, whose first delivery is answered fail take SINK_WRITE
with one chunk offered. And for WBYTE in a legal phase exactly: a byte that does not fill the buffer is only put there; one
that fills it sends the whole buffer to OUT as one chunk and empties it if the host answers ok, and takes SINK_WRITE, with
OUT keeping what it held, if it answers fail. (20_memory.md section 3, 60_exceptions.md section 1, 45_marker_framer.md
section 2, 44_bit_writer.md section 2.) -/
def Obligations.SinkBufferDeliversWhenFull : Prop :=
  (∀ (i : Instr) (s t : State), s.phase ≠ .fault → s.stream.sb.length < s.build.sinkCap.toNat → exec i s = .next t →
    ∃ new : List (List Byte), t.stream.chunks = s.stream.chunks ++ new ∧
      (i ≠ .sync → i ≠ .eoi → ∀ c ∈ new, c.length = s.build.sinkCap.toNat) ∧
      (i = .sync → ∀ c ∈ new, c = s.stream.sb) ∧
      (i = .eoi → ∀ c ∈ new.dropLast, c.length = s.build.sinkCap.toNat) ∧
      (∀ k, k + 1 < new.length → answerAt s.stream k = .ok) ∧
      (FaultTaken .sinkWrite s t ↔ ∃ k < new.length, answerAt s.stream k = .fail)) ∧
  (∀ s : State, s.phase ≠ .fault → s.stream.sb ≠ [] → answerAt s.stream 0 = .fail →
    ∃ t, exec .sync s = .next t ∧ FaultTaken .sinkWrite s t ∧ s.stream.out <+: t.stream.out ∧
      t.stream.chunks = s.stream.chunks ++ [s.stream.sb]) ∧
  (∀ s : State, s.phase = .aligned → answerAt s.stream 0 = .fail →
    ∃ t, exec .eoi s = .next t ∧ FaultTaken .sinkWrite s t ∧ s.stream.out <+: t.stream.out ∧
      ∃ c, t.stream.chunks = s.stream.chunks ++ [c]) ∧
  ∀ (s : State) (b : Byte),
    (s.phase = .sSoi ∨ s.phase = .sApp0 ∨ s.phase = .sDqt ∨ s.phase = .sSof0 ∨ s.phase = .sDht ∨ s.phase = .aligned) →
    (s.stream.sb.length + 1 ≠ s.build.sinkCap.toNat →
      exec (.wbyte b) s = .next (answered 0 { s with stream := { s.stream with sb := s.stream.sb ++ [b] } })) ∧
    (s.stream.sb.length + 1 = s.build.sinkCap.toNat → answerAt s.stream 0 = .ok →
      exec (.wbyte b) s = .next (answered 0 { s with stream :=
        { s.stream with
          out := s.stream.out ++ (s.stream.sb ++ [b]), sb := [], chunks := s.stream.chunks ++ [s.stream.sb ++ [b]],
          answers := s.stream.answers.tail } })) ∧
    (s.stream.sb.length + 1 = s.build.sinkCap.toNat → answerAt s.stream 0 = .fail →
      ∃ t, exec (.wbyte b) s = .next t ∧ FaultTaken .sinkWrite s t ∧ s.stream.out <+: t.stream.out ∧
        t.stream.chunks = s.stream.chunks ++ [s.stream.sb ++ [b]])

/-- For every command executed in SCAN that ends in SCAN or ALIGNED, with a host that accepts every delivery, the bytes it
adds to the logical stream have an FF only in front of a 00, whatever the data, and the last byte is no FF.
(44_bit_writer.md section 3, 44_bit_writer.md section 1.) -/
def Obligations.ScanDataHasNoMarker : Prop :=
  ∀ (i : Instr) (s t : State), s.phase = .scan → AllOk s.stream → exec i s = .next t →
    (t.phase = .scan ∨ t.phase = .aligned) →
      ∃ l, t.stream.ls = s.stream.ls ++ l ∧ markerFree l = true

/-- In IDLE and DONE: with QT_VALID or HT_VALID 0, SOI takes TBL_INVALID, also when a dimension is 0; with both valid and a
dimension 0 it takes CFG; otherwise, with a host that accepts every delivery, it zeroes DCP, NEXTCH, BLKCNT, ACC, NBITS and
DU_VALID, appends FF D8, sets PHASE to S_SOI and responds (0, 0); nothing else changes. (45_marker_framer.md section 2,
60_exceptions.md section 1, 60_exceptions.md section 2.) -/
def Obligations.SoiStartsStream : Prop :=
  ∀ s : State, (s.phase = .idle ∨ s.phase = .done) →
    ((s.qtValid = false ∨ s.htValid = false) →
      ∃ t, exec .soi s = .next t ∧ FaultTaken .tblInvalid s t ∧ Precise s t) ∧
    (s.qtValid = true → s.htValid = true → (s.width = 0 ∨ s.height = 0) →
      ∃ t, exec .soi s = .next t ∧ FaultTaken .cfg s t ∧ Precise s t) ∧
    (s.qtValid = true → s.htValid = true → s.width ≠ 0 → s.height ≠ 0 → AllOk s.stream →
      s.stream.sb.length < s.build.sinkCap.toNat →
      ∃ st, exec .soi s = .next (answered 0
          { s with
            dcp := Vector.replicate 3 0, nextch := .y, blkcnt := 0, duValid := false, stream := st, phase := .sSoi }) ∧
        WritesBytes s.build.sinkCap.toNat { s.stream with acc := 0, nbits := 0 } st [0xFF, 0xD8])

/-- With a host that accepts every delivery, APP0 in S_SOI appends the 18 bytes of the JFIF segment (units 0, densities 1)
and leaves S_APP0, and SOS in S_DHT appends the 14 bytes of the scan header and opens the scan; both respond (0, 0) and
change nothing else. (45_marker_framer.md section 2.) -/
def Obligations.App0AndSosSegments : Prop :=
  ∀ s : State, AllOk s.stream → s.stream.sb.length < s.build.sinkCap.toNat →
    (s.phase = .sSoi → ∃ st, exec .app0 s = .next (answered 0 { s with stream := st, phase := .sApp0 }) ∧
      WritesBytes s.build.sinkCap.toNat s.stream st
        [0xFF, 0xE0, 0x00, 0x10, 0x4A, 0x46, 0x49, 0x46, 0x00, 0x01, 0x01, 0x00, 0x00, 0x01, 0x00, 0x01, 0x00, 0x00]) ∧
    (s.phase = .sDht → ∃ st, exec .sos s = .next (answered 0 { s with stream := st, phase := .scan }) ∧
      WritesBytes s.build.sinkCap.toNat s.stream st
        [0xFF, 0xDA, 0x00, 0x0C, 0x03, 0x01, 0x00, 0x02, 0x11, 0x03, 0x11, 0x00, 0x3F, 0x00])

/-- In S_APP0, on a build whose zigzag table is a permutation and with a host that accepts every delivery, DQT appends FF DB
00 84, then 00 and the 64 luma entries, then 01 and the 64 chroma entries, entry QT[q][i] standing at zigzag position ZZ[i];
it leaves S_DQT, responds (0, 0) and changes nothing else. (45_marker_framer.md section 2.) -/
def Obligations.DqtSegment : Prop :=
  ∀ s : State, s.phase = .sApp0 → BuildOk s.build → AllOk s.stream → s.stream.sb.length < s.build.sinkCap.toNat →
    ∃ (st : Stream) (luma chroma : List Byte),
      exec .dqt s = .next (answered 0 { s with stream := st, phase := .sDqt }) ∧
      WritesBytes s.build.sinkCap.toNat s.stream st ([0xFF, 0xDB, 0x00, 0x84, 0x00] ++ luma ++ [0x01] ++ chroma) ∧
      luma.length = 64 ∧ chroma.length = 64 ∧
      ∀ i : Fin 64, luma[(s.build.zz[i]).val]? = some (s.qt[0])[i] ∧ chroma[(s.build.zz[i]).val]? = some (s.qt[1])[i]

/-- In S_DQT, with a host that accepts every delivery, SOF0 appends FF C0 00 11 08, HEIGHT and WIDTH big-endian, 03, and the
three component records 01 11 00, 02 11 01, 03 11 01; it leaves S_SOF0, responds (0, 0) and changes nothing else.
(45_marker_framer.md section 2.) -/
def Obligations.Sof0Segment : Prop :=
  ∀ s : State, s.phase = .sDqt → AllOk s.stream → s.stream.sb.length < s.build.sinkCap.toNat →
    ∃ st, exec .sof0 s = .next (answered 0 { s with stream := st, phase := .sSof0 }) ∧
      WritesBytes s.build.sinkCap.toNat s.stream st
        ([0xFF, 0xC0, 0x00, 0x11, 0x08] ++ bigEndian s.height.toNat ++ bigEndian s.width.toNat ++
          [0x03, 0x01, 0x11, 0x00, 0x02, 0x11, 0x01, 0x03, 0x11, 0x01])

/-- In S_SOF0, with a host that accepts every delivery, DHT appends FF C4, the length 2 + sum of 17 + len(symbols)
big-endian, and for the indices 00, 10, 01, 11 of luma DC, luma AC, chroma DC, chroma AC the 16 counts and the symbols of
HSPEC; it leaves S_DHT, responds (0, 0) and changes nothing else. (45_marker_framer.md section 2.) -/
def Obligations.DhtSegment : Prop :=
  ∀ s : State, s.phase = .sSof0 → AllOk s.stream → s.stream.sb.length < s.build.sinkCap.toNat →
    ∃ st, exec .dht s = .next (answered 0 { s with stream := st, phase := .sDht }) ∧
      WritesBytes s.build.sinkCap.toNat s.stream st
        (([0xFF, 0xC4] : List Byte) ++ bigEndian (2 + ∑ t : Fin 4, (17 + (s.build.hspec[t]).symbols.length)) ++
          (((0x00 : Byte) :: (s.build.hspec[0]).counts.toList) ++ (s.build.hspec[0]).symbols) ++
          (((0x10 : Byte) :: (s.build.hspec[1]).counts.toList) ++ (s.build.hspec[1]).symbols) ++
          (((0x01 : Byte) :: (s.build.hspec[2]).counts.toList) ++ (s.build.hspec[2]).symbols) ++
          (((0x11 : Byte) :: (s.build.hspec[3]).counts.toList) ++ (s.build.hspec[3]).symbols))

/-- In ALIGNED, with a host that accepts every delivery, EOI responds (0, 0) and leaves PHASE = DONE, SBCUR = 0 and OUT
equal to the logical stream followed by FF D9; nothing else but the record of deliveries changes. (45_marker_framer.md
section 2, 20_memory.md section 10.) -/
def Obligations.EoiDeliversStream : Prop :=
  ∀ s : State, s.phase = .aligned → AllOk s.stream → s.stream.sb.length < s.build.sinkCap.toNat →
    ∃ st, exec .eoi s = .next (answered 0 { s with stream := st, phase := .done }) ∧
      st.sb = [] ∧ st.out = s.stream.ls ++ [0xFF, 0xD9] ∧ st.acc = s.stream.acc ∧ st.nbits = s.stream.nbits ∧ AllOk st

/-- With the default Huffman specifications, valid tables, non-zero dimensions and a host that accepts every delivery, SOI,
APP0, DQT, SOF0, DHT and SOS, issued in this order from IDLE or DONE, all complete; the logical stream has grown by 2, 20,
154, 173, 593 and 607 bytes after them, and SCAN is open with NEXTCH, BLKCNT and NBITS 0. (45_marker_framer.md section 3,
40_system_commands.md section 2.) -/
def Obligations.HeaderIs607Bytes : Prop :=
  ∀ s : State, (s.phase = .idle ∨ s.phase = .done) → s.qtValid = true → s.htValid = true → s.width ≠ 0 → s.height ≠ 0 →
    s.build.hspec = defaultBuild.hspec → AllOk s.stream → s.stream.sb.length < s.build.sinkCap.toNat →
    ∃ t1 t2 t3 t4 t5 t6 : State,
      exec .soi s = .next t1 ∧ exec .app0 t1 = .next t2 ∧ exec .dqt t2 = .next t3 ∧ exec .sof0 t3 = .next t4 ∧
      exec .dht t4 = .next t5 ∧ exec .sos t5 = .next t6 ∧
      t6.phase = .scan ∧ t6.nextch = .y ∧ t6.blkcnt = 0 ∧ t6.stream.nbits = 0 ∧
      t1.stream.ls.length = s.stream.ls.length + 2 ∧ t2.stream.ls.length = s.stream.ls.length + 20 ∧
      t3.stream.ls.length = s.stream.ls.length + 154 ∧ t4.stream.ls.length = s.stream.ls.length + 173 ∧
      t5.stream.ls.length = s.stream.ls.length + 593 ∧ t6.stream.ls.length = s.stream.ls.length + 607 ∧
      s.stream.ls <+: t6.stream.ls

/-- On a build whose zigzag table is a permutation with ZZ[0] = 0, the reordered unit holds COEF[i] at position ZZ[i] for
every i, equally COEF[NAT[k]] at every position k, COEF[0] at position 0; reading position ZZ[i] for every i gives the input
back. (R115.) -/
def Obligations.ZigzagReorder : Prop :=
  ∀ (b : Build) (coef : Vector Word16 64), BuildOk b →
    (∀ i : Fin 64, (reorder b.zz coef)[b.zz[i]] = coef[i]) ∧
    (∀ k : Fin 64, (reorder b.zz coef)[k] = coef[natIndex b.zz k] ∧ b.zz[natIndex b.zz k] = k) ∧
    (reorder b.zz coef)[0] = coef[0] ∧
    (vec fun i : Fin 64 => (reorder b.zz coef)[b.zz[i]]) = coef

/-- MagBits(0) = (0, 0). For v not 0 the size n has 2^(n-1) <= |v| <= 2^n - 1; a positive value's code is v itself and is at
least 2^(n-1), a negative value's code is v + 2^n - 1 and is below 2^(n-1); and v is the code if the code is at least
2^(n-1), else the code minus (2^n - 1). (R116.) -/
def Obligations.AmplitudeCoding : Prop :=
  magBits 0 = (0, 0) ∧
  ∀ v : Int, v ≠ 0 →
    2 ^ ((magBits v).1 - 1) ≤ v.natAbs ∧ v.natAbs ≤ 2 ^ (magBits v).1 - 1 ∧
    (0 < v → ((magBits v).2 : Int) = v ∧ 2 ^ ((magBits v).1 - 1) ≤ (magBits v).2) ∧
    (v < 0 → ((magBits v).2 : Int) = v + 2 ^ (magBits v).1 - 1 ∧ (magBits v).2 < 2 ^ ((magBits v).1 - 1)) ∧
    v = (if 2 ^ ((magBits v).1 - 1) ≤ (magBits v).2 then ((magBits v).2 : Int)
      else ((magBits v).2 : Int) - (2 ^ (magBits v).1 - 1))

/-- In SCAN with ch = NEXTCH, a 128-byte payload all of whose symbols have codes and a host that accepts every delivery,
ENCCOEF responds (0, 0), writes the DC size and amplitude of the difference to DCP[ch], the AC run/size symbols with ZRLs
and amplitudes, and EOB unless position 63 is non-zero; COEF, ZZB, DCP[ch], DU_VALID, NEXTCH and (for Cr) BLKCNT are
updated, the payload is used up, nothing else changes. (43_entropy_coder.md section 1, 43_entropy_coder.md section 2,
42_transform.md section 4.) -/
def Obligations.EnccoefCompletes : Prop :=
  ∀ (s : State) (ch : Channel) (b : List Byte) (rest : List PayloadAnswer) (bits : List Bool),
    s.phase = .scan → ch = s.nextch → Ready s.build.sinkCap.toNat s.stream →
    s.payloads = .bytes b :: rest → b.length = 128 →
    Reference.channelBits ch (coefsOfBytes b) s = some bits →
    ∃ st, exec (.enccoef ch) s = .next (answered 0 (unitDone ch (coefsOfBytes b) st rest s)) ∧
      WritesBits s.build.sinkCap.toNat s.stream st bits

/-- In SCAN with the channel NEXTCH asks for, a payload of the command's length and a host that accepts every delivery:
ENCCOEF, ENCDU (on the quantized unit) and ENCMCU (on any of its three quantized units) take the UNCODED fault if some
symbol of a data unit has no code in the channel's tables, an AC size above 15 included; the payload is used up.
(43_entropy_coder.md section 1, 43_entropy_coder.md section 3, 60_exceptions.md section 1.) -/
def Obligations.DataCommandsUncoded : Prop :=
  ∀ (s : State) (ch : Channel) (b : List Byte) (rest : List PayloadAnswer),
    s.phase = .scan → ch = s.nextch → Ready s.build.sinkCap.toNat s.stream →
    s.payloads = .bytes b :: rest →
    (b.length = 128 → Reference.channelBits ch (coefsOfBytes b) s = none →
      ∃ t, exec (.enccoef ch) s = .next t ∧ FaultTaken .uncoded s t ∧ t.payloads = rest) ∧
    (b.length = 64 → Reference.channelBits ch (fdctq s.build.fdctq (samplesOfBytes b) s.qt[qsel ch]) s = none →
      ∃ t, exec (.encdu ch) s = .next t ∧ FaultTaken .uncoded s t ∧ t.payloads = rest) ∧
    (b.length = 192 → ch = .y →
      (∃ c, Reference.channelBits c (fdctq s.build.fdctq (samplesOfPixels s.build.csc c b) s.qt[qsel c]) s = none) →
      ∃ t, exec .encmcu s = .next t ∧ FaultTaken .uncoded s t ∧ t.payloads = rest)

/-- Two states in SCAN that agree on ch = NEXTCH, the zigzag table, HT, DCP[ch], ACC, NBITS and the payload, whatever else
differs (earlier COEF and ZZB, the other predictors, QT, BLKCNT, the registers, SINK_CAP), with hosts that accept every
delivery: if ENCCOEF completes in the one it completes in the other, adds the same bytes to both logical streams and leaves
the same ACC, NBITS, DCP[ch], COEF and ZZB. (43_entropy_coder.md section 1, 43_entropy_coder.md section 3.) -/
def Obligations.UnitsDoNotLeak : Prop :=
  ∀ (s s' t : State) (ch : Channel) (b : List Byte) (rest rest' : List PayloadAnswer),
    s.phase = .scan → s'.phase = .scan → ch = s.nextch → ch = s'.nextch →
    Ready s.build.sinkCap.toNat s.stream → Ready s'.build.sinkCap.toNat s'.stream →
    s.build.zz = s'.build.zz → s.ht = s'.ht → s.dcp[chanIdx ch] = s'.dcp[chanIdx ch] →
    s.stream.acc = s'.stream.acc → s.stream.nbits = s'.stream.nbits →
    s.payloads = .bytes b :: rest → s'.payloads = .bytes b :: rest' →
    exec (.enccoef ch) s = .next t → t.phase = .scan →
    ∃ (t' : State) (l : List Byte), exec (.enccoef ch) s' = .next t' ∧ t'.phase = .scan ∧
      t.stream.ls = s.stream.ls ++ l ∧ t'.stream.ls = s'.stream.ls ++ l ∧
      t.stream.acc = t'.stream.acc ∧ t.stream.nbits = t'.stream.nbits ∧
      t.dcp[chanIdx ch] = t'.dcp[chanIdx ch] ∧ t.coef = t'.coef ∧ t.zzb = t'.zzb

/-- In SCAN with ch = NEXTCH, a 64-byte payload whose quantized unit has a code for every symbol and a host that accepts
every delivery, ENCDU responds (0, 0), writes the bit string of FDCTQ(samples, QT[QSEL(ch)]), updates COEF, ZZB, DCP[ch],
DU_VALID, NEXTCH and (for Cr) BLKCNT, and uses up the payload; nothing else changes. (42_transform.md section 4,
43_entropy_coder.md section 1.) -/
def Obligations.EncduCompletes : Prop :=
  ∀ (s : State) (ch : Channel) (b : List Byte) (rest : List PayloadAnswer) (bits : List Bool),
    s.phase = .scan → ch = s.nextch → Ready s.build.sinkCap.toNat s.stream →
    s.payloads = .bytes b :: rest → b.length = 64 →
    Reference.channelBits ch (fdctq s.build.fdctq (samplesOfBytes b) s.qt[qsel ch]) s = some bits →
    ∃ st, exec (.encdu ch) s =
        .next (answered 0 (unitDone ch (fdctq s.build.fdctq (samplesOfBytes b) s.qt[qsel ch]) st rest s)) ∧
      WritesBits s.build.sinkCap.toNat s.stream st bits

/-- In SCAN with NEXTCH = 0, a 192-byte payload whose three quantized units have codes for all symbols and a host that
accepts every delivery, ENCMCU responds (0, 0), writes the three bit strings in the order Y, Cb, Cr, leaves COEF and ZZB
holding the Cr unit, DCP the three DC terms, DU_VALID 1, NEXTCH 0 and BLKCNT one higher modulo 2^32; nothing else changes.
(42_transform.md section 4, 43_entropy_coder.md section 1.) -/
def Obligations.EncmcuCompletes : Prop :=
  ∀ (s : State) (b : List Byte) (rest : List PayloadAnswer) (bitsY bitsCb bitsCr : List Bool),
    s.phase = .scan → s.nextch = .y → Ready s.build.sinkCap.toNat s.stream →
    s.payloads = .bytes b :: rest → b.length = 192 →
    let unit (c : Channel) := fdctq s.build.fdctq (samplesOfPixels s.build.csc c b) s.qt[qsel c]
    Reference.channelBits .y (unit .y) s = some bitsY → Reference.channelBits .cb (unit .cb) s = some bitsCb →
    Reference.channelBits .cr (unit .cr) s = some bitsCr →
    ∃ st, exec .encmcu s = .next (answered 0
        { s with
          coef := unit .cr, zzb := reorder s.build.zz (unit .cr),
          dcp := #v[(reorder s.build.zz (unit .y))[0], (reorder s.build.zz (unit .cb))[0],
            (reorder s.build.zz (unit .cr))[0]],
          duValid := true, blkcnt := nextBlkcnt .cr s.blkcnt, stream := st, payloads := rest }) ∧
      WritesBits s.build.sinkCap.toNat s.stream st (bitsY ++ bitsCb ++ bitsCr)

/-- In SCAN with ch = NEXTCH, executing ENCDU on 64 sample bytes and executing ENCCOEF on FDCTQ of those samples as 128
big-endian bytes give the same outcome, in the whole state and whatever the host answers. (42_transform.md section 4.) -/
def Obligations.EncduIsEnccoefOfTransform : Prop :=
  ∀ (s : State) (ch : Channel) (b : List Byte) (rest : List PayloadAnswer),
    s.phase = .scan → ch = s.nextch → b.length = 64 →
    let unit := bytesOfCoefs (fdctq s.build.fdctq (samplesOfBytes b) s.qt[qsel ch])
    exec (.encdu ch) { s with payloads := .bytes b :: rest } =
      exec (.enccoef ch) { s with payloads := .bytes unit :: rest }

/-- In SCAN with NEXTCH = 0: if ENCDU 0, 1, 2 on the three sample arrays that the colour transform gives for a pixel block
all complete, then ENCMCU on that block gives the state they leave, but for the responses, of which it gives one.
(42_transform.md section 4.) -/
def Obligations.EncmcuIsThreeEncdu : Prop :=
  ∀ (s t0 t1 t2 : State) (b : List Byte) (rest : List PayloadAnswer),
    s.phase = .scan → s.nextch = .y → b.length = 192 →
    let samples (c : Channel) := PayloadAnswer.bytes (samplesOfPixels s.build.csc c b).toList
    exec (.encdu .y) { s with payloads := samples .y :: samples .cb :: samples .cr :: rest } = .next t0 →
    t0.phase = .scan →
    exec (.encdu .cb) t0 = .next t1 → t1.phase = .scan →
    exec (.encdu .cr) t1 = .next t2 → t2.phase = .scan →
    exec .encmcu { s with payloads := .bytes b :: rest } = .next { t2 with rsp := s.rsp ++ [⟨0, 0⟩] }

/-- For every pixel, CSC_IDEAL gives Y = round(0.299R + 0.587G + 0.114B) - 128, Cb = round(-0.16874R - 0.33126G + 0.5B) and
Cr = round(0.5R - 0.41869G - 0.08131B), each evaluated over the rationals, rounded half up and clamped to [-128, 127].
(42_transform.md section 1.) -/
def Obligations.ColourTransformExact : Prop :=
  ∀ b g r : Byte,
    cscIdeal .y b g r = max (-128) (min 127
      (⌊(0.299 * r.toNat + 0.587 * g.toNat + 0.114 * b.toNat : ℚ) + 1 / 2⌋ - 128)) ∧
    cscIdeal .cb b g r = max (-128) (min 127
      ⌊(-0.16874 * r.toNat - 0.33126 * g.toNat + 0.5 * b.toNat : ℚ) + 1 / 2⌋) ∧
    cscIdeal .cr b g r = max (-128) (min 127
      ⌊(0.5 * r.toNat - 0.41869 * g.toNat - 0.08131 * b.toNat : ℚ) + 1 / 2⌋)

/-- For every instance of the colour transform, pixel and channel the output is in [-128, 127] and differs from CSC_IDEAL by
at most 1; the instance that is neither the default nor known is a free deviation (log 13). (42_transform.md section 1.) -/
def Obligations.CscTol1 : Prop :=
  ∀ (inst : CscInstance) (c : Channel) (b g r : Byte),
    -128 ≤ csc inst c b g r ∧ csc inst c b g r ≤ 127 ∧ |csc inst c b g r - cscIdeal c b g r| ≤ 1

/-- For every 64 samples, every table of steps in 1..255 and every frequency (v, u), the model's integer computation of
FDCTQ_IDEAL gives floor(F[8v+u]/Q[8v+u] + 1/2) with F the real number of the DCT formula with cosines, and the result is in
[-1024, 1020]. (R104.) -/
def Obligations.FdctqIdealIsRoundedDct : Prop :=
  ∀ (s steps : Vector Byte 64), (∀ i : Fin 64, 1 ≤ (steps[i]).toNat) → ∀ v u : Fin 8,
    fdctqIdeal s steps (natural v u) = ⌊dctReal s v u / ((steps[natural v u]).toNat : ℝ) + 1 / 2⌋ ∧
    -1024 ≤ fdctqIdeal s steps (natural v u) ∧ fdctqIdeal s steps (natural v u) ≤ 1020

/-- For every instance, samples, steps in 1..255 and coefficient, the instance's result differs from FDCTQ_IDEAL by at most
1; for FDCTQ_TAB this bounds the error of its 64-integer table. The instance that is neither the default nor FDCTQ_TAB is a
free deviation (log 13). (42_transform.md section 3.) -/
def Obligations.FdctqTol1 : Prop :=
  ∀ (inst : FdctqInstance) (s steps : Vector Byte 64) (i : Fin 64), (∀ j : Fin 64, 1 ≤ (steps[j]).toNat) →
    |fdctqAt inst s steps i - fdctqIdeal s steps i| ≤ 1

/-- For FDCTQ_IDEAL and for FDCTQ_TAB, every constant block of samples c and every table of steps in 1..255: coefficient 0
is floor(8c/Q[0] + 1/2) and every other coefficient is 0. (42_transform.md section 3, 42_transform.md section 5.) -/
def Obligations.FdctqConst : Prop :=
  ∀ (inst : FdctqInstance) (c : Byte) (steps : Vector Byte 64),
    (inst = .ideal ∨ inst = .tab) → (∀ j : Fin 64, 1 ≤ (steps[j]).toNat) →
    fdctqAt inst (Vector.replicate 64 c) steps 0 = (16 * c.toInt + (steps[0]).toNat) / (2 * (steps[0]).toNat) ∧
    ∀ i : Fin 64, i ≠ 0 → fdctqAt inst (Vector.replicate 64 c) steps i = 0

/-- With HT built from the default specifications, a zigzag permutation, steps of at least 1 and predictors in [-1025,
1017], for every instance of DCT and quantizer (one that is neither FDCTQ_IDEAL nor FDCTQ_TAB is a free deviation within 1,
log 13): the quantized unit of every 64 samples has a bit string and a DC term in [-1025, 1017]; from such a state in SCAN
no command but ENCCOEF takes UNCODED, ENCDU and ENCMCU that take no fault leave such a state again, and so does every other
command that stays in SCAN. As an invariant of the step, on every build with the default specifications: if a state meets
Inv and its predictors are in that range whenever a stream is open, then a step that does not run ENCCOEF takes no UNCODED
and leaves a state of which the same holds. (The host's acts in a queue: log 1.) (43_entropy_coder.md section 3,
42_transform.md section 2, 42_transform.md section 3.) -/
def Obligations.TransformedUnitsAreCoded : Prop :=
  (∀ (s : State) (c : Channel) (samples : Vector Byte 64),
    s.ht = buildAllHuff defaultBuild.hspec → BuildOk s.build → (∀ i : Fin 64, 1 ≤ ((s.qt[qsel c])[i]).toNat) →
    -1025 ≤ (s.dcp[chanIdx c]).toInt → (s.dcp[chanIdx c]).toInt ≤ 1017 →
    (∃ bits, Reference.channelBits c (fdctq s.build.fdctq samples s.qt[qsel c]) s = some bits) ∧
    -1025 ≤ ((reorder s.build.zz (fdctq s.build.fdctq samples s.qt[qsel c]))[0]).toInt ∧
    ((reorder s.build.zz (fdctq s.build.fdctq samples s.qt[qsel c]))[0]).toInt ≤ 1017) ∧
  (∀ (i : Instr) (s t : State), CodedScan s → (∀ ch, i ≠ .enccoef ch) → exec i s = .next t →
    ¬ FaultTaken .uncoded s t ∧
    ((i = .encmcu ∨ ∃ ch, i = .encdu ch) → t.phase ≠ .fault → CodedScan t) ∧
    (t.phase = .scan → CodedScan t)) ∧
  (∀ s t : State, Inv s → s.build.hspec = defaultBuild.hspec →
    (inStream s.phase → ∀ c : Fin 3, -1025 ≤ (s.dcp[c]).toInt ∧ (s.dcp[c]).toInt ≤ 1017) →
    (∀ w rest ch, s.inputs = .cmd w :: rest → decode w ≠ .ok (.enccoef ch)) → step s = .next t →
    ¬ FaultTaken .uncoded s t ∧ Inv t ∧ t.build.hspec = defaultBuild.hspec ∧
      (inStream t.phase → ∀ c : Fin 3, -1025 ≤ (t.dcp[c]).toInt ∧ (t.dcp[c]).toInt ≤ 1017))

/-- For every command and every state outside the FAULT phase: if the next state is in the FAULT phase, there is one cause
with FAULT equal to it, FPHASE equal to PHASE before the command and exactly one new response (cause, 0). It holds also for
faults raised half way through a command's own pseudocode. (60_exceptions.md section 3, 60_exceptions.md section 4.) -/
def Obligations.FaultEntry : Prop :=
  ∀ (i : Instr) (s t : State), s.phase ≠ .fault → exec i s = .next t → t.phase = .fault → ∃ c, FaultTaken c s t

/-- A step in the FAULT phase on a command word (at the head of the model's queue of host acts, log 1): 0x00000000 answers
(0, 0) with no effect; 0x01000000 answers (0, 0) and gives the reset values; 0x03000000 answers (0, 15 + FAULT*256 +
FPHASE*4096) with no effect; every other word, legal or reserved, answers (FAULT, 0) with no effect, pulls no payload and
appends nothing. (60_exceptions.md section 4.) -/
def Obligations.FaultPhaseRule : Prop :=
  ∀ (s : State) (w : Word32) (rest : List HostEvent), s.phase = .fault → s.inputs = .cmd w :: rest →
    (w = 0x00000000 → step s = .next (answered 0 { s with inputs := rest })) ∧
    (w = 0x01000000 → ∃ t, step s = .next t ∧ AfterReset t ∧ HostSideKept { s with inputs := rest } t ∧
      t.rsp = s.rsp ++ [⟨0, 0⟩]) ∧
    (w = 0x03000000 → step s = .next (answered
      (BitVec.ofNat 32 (15 + (faultField s.fault).toNat * 256 + s.fphase.code.toNat * 4096)) { s with inputs := rest })) ∧
    (w ≠ 0x00000000 → w ≠ 0x01000000 → w ≠ 0x03000000 →
      step s = .next { s with inputs := rest, rsp := s.rsp ++ [⟨faultField s.fault, 0⟩] })

/-- If a step leaves the FAULT phase, the host's act (log 1) was rst or the word 0x01000000 and the state has the reset
values, and each of these two does leave it; as long as the core stays in the FAULT phase, FAULT and FPHASE keep their
values. (60_exceptions.md section 4, 60_exceptions.md section 5.) -/
def Obligations.OnlyResetLeavesFault : Prop :=
  ∀ s : State, s.phase = .fault →
    (∀ t, step s = .next t → t.phase ≠ .fault →
      (∃ rest, s.inputs = .rst :: rest ∨ s.inputs = .cmd 0x01000000 :: rest) ∧ AfterReset t) ∧
    (∀ t, step s = .next t → t.phase = .fault → t.fault = s.fault ∧ t.fphase = s.fphase) ∧
    (∀ rest, (s.inputs = .rst :: rest ∨ s.inputs = .cmd 0x01000000 :: rest) → ∃ t, step s = .next t ∧ AfterReset t)

/-- For every well-formed command with an address it may access, outside the FAULT phase: if the command is not legal in the
current PHASE and NEXTCH by the table of legal phases, it takes the SEQ fault with nothing delivered and no payload pulled;
if it is legal, it never takes SEQ. (40_system_commands.md section 2, 60_exceptions.md section 1.) -/
def Obligations.SequenceRule : Prop :=
  ∀ (i : Instr) (s : State), i.wellFormed = true → addressOk i = true → s.phase ≠ .fault →
    (¬ IsLegal i s.phase s.nextch → ∃ t, exec i s = .next t ∧ FaultTaken .seq s t ∧ Precise s t) ∧
    (IsLegal i s.phase s.nextch → ∀ t, exec i s = .next t → ¬ FaultTaken .seq s t)

/-- For ENCMCU, ENCDU and ENCCOEF where they are legal: if the host answers the pull with SourceFailure, the command takes
the SRC_READ fault, nothing is appended or delivered, and that answer is used up. (60_exceptions.md section 1, 20_memory.md
section 4.) -/
def Obligations.SourceFailureRule : Prop :=
  ∀ (i : Instr) (s : State) (rest : List PayloadAnswer),
    (i = .encmcu ∨ ∃ ch, i = .encdu ch ∨ i = .enccoef ch) → IsLegal i s.phase s.nextch →
    s.payloads = .sourceFailure :: rest →
    ∃ t, exec i s = .next t ∧ FaultTaken .srcRead s t ∧ t.stream.out = s.stream.out ∧
      t.stream.chunks = s.stream.chunks ∧ t.stream.answers = s.stream.answers ∧ t.payloads = rest

/-- For every well-formed command outside the FAULT phase, a fault it takes has a cause in the table's column for that
command: ADDR only WRREG and RDREG, TBL_INVALID only SOI and RDTBL, CFG only SOI, SRC_READ and UNCODED only the three ENC
commands, HSPEC_BAD only BLDHT, SINK_WRITE only what appends or drains, SEQ never the observers, NOP and RESET none, ILLEGAL
none. (60_exceptions.md section 1, 40_system_commands.md section 1.) -/
def Obligations.FaultsOfEachCommand : Prop :=
  ∀ (i : Instr) (s t : State) (c : FaultCause), i.wellFormed = true → s.phase ≠ .fault → exec i s = .next t →
    FaultTaken c s t → c ∈ mayRaise i

/-- For every command outside the FAULT phase: if it takes ILLEGAL, ADDR, SEQ, TBL_INVALID or CFG, then OUT, the deliveries,
the host's answers and the payloads are as they were; if it takes SRC_READ, OUT, the deliveries and the answers are as they
were and one payload answer is used up if there was one. The ILLEGAL of exec is that of an ill-formed command, which no word
encodes (log 15; a reserved word is ReservedWordIsIllegal), and SRC_READ also answers an empty payload queue and an answer
of another length (log 4). (60_exceptions.md section 3, 40_system_commands.md section 1.) -/
def Obligations.PreciseFaults : Prop :=
  ∀ (i : Instr) (s t : State) (c : FaultCause), s.phase ≠ .fault → exec i s = .next t → FaultTaken c s t →
    ((c = .illegal ∨ c = .addr ∨ c = .seq ∨ c = .tblInvalid ∨ c = .cfg) → Precise s t) ∧
    (c = .srcRead → t.stream.out = s.stream.out ∧ t.stream.chunks = s.stream.chunks ∧
      t.stream.answers = s.stream.answers ∧ t.payloads = s.payloads.tail)

/-- Every command in every state has a next state with exactly one more response; a status other than 0 means that PHASE is
FAULT now and FAULT is that status, and its data is 0; outside the FAULT phase a status of 0 means that no fault was taken;
the data is 0 for every command but RDREG and RDTBL. (20_memory.md section 2, 40_system_commands.md section 1,
70_reset_and_hazards.md section 4.) -/
def Obligations.OneResponsePerCommand : Prop :=
  ∀ (i : Instr) (s : State), ∃ (t : State) (r : Response), exec i s = .next t ∧ t.rsp = s.rsp ++ [r] ∧
    (r.status ≠ 0 → t.phase = .fault ∧ faultField t.fault = r.status ∧ r.data = 0) ∧
    (r.status = 0 → s.phase ≠ .fault → t.phase ≠ .fault) ∧
    ((∀ a, i ≠ .rdreg a) → (∀ w k, i ≠ .rdtbl w k) → r.data = 0)

/-- Whatever a command does: the deliveries it makes are appended to the record and none is empty; OUT keeps what it held in
front; if the command does not take SINK_WRITE, OUT has grown by exactly those chunks in order; if it takes SINK_WRITE, OUT
has grown by all of them but the last, followed by some part that is left open. (20_memory.md section 3, 60_exceptions.md
section 3.) -/
def Obligations.OutOnlyGrows : Prop :=
  ∀ (i : Instr) (s t : State), s.phase ≠ .fault → exec i s = .next t →
    ∃ new : List (List Byte), t.stream.chunks = s.stream.chunks ++ new ∧ (∀ c ∈ new, c ≠ []) ∧
      s.stream.out <+: t.stream.out ∧
      (¬ FaultTaken .sinkWrite s t → t.stream.out = s.stream.out ++ new.flatten) ∧
      (FaultTaken .sinkWrite s t → ∃ (init : List (List Byte)) (last part : List Byte),
        new = init ++ [last] ∧ t.stream.out = s.stream.out ++ init.flatten ++ part)

/-- For every command executed outside the FAULT phase that takes no fault, PHASE afterwards is the one of the column 'PHASE
after success': IDLE for RESET, the next stream phase for the seven framer commands and ALIGN, unchanged for every other
command. (40_system_commands.md section 2.) -/
def Obligations.PhaseGraph : Prop :=
  ∀ (i : Instr) (s t : State), s.phase ≠ .fault → exec i s = .next t → t.phase ≠ .fault →
    t.phase = phaseAfter i s.phase

/-- For every command executed in a phase 1 to 7, other than RESET, that takes no fault: QT, HT, QT_VALID, HT_VALID, WIDTH,
HEIGHT and SCALE are unchanged. (20_memory.md section 10, 40_system_commands.md section 2, 70_reset_and_hazards.md section
2.) -/
def Obligations.TablesFrozenInStream : Prop :=
  ∀ (i : Instr) (s t : State), inStream s.phase → i ≠ .reset → exec i s = .next t → t.phase ≠ .fault →
    t.qt = s.qt ∧ t.ht = s.ht ∧ t.qtValid = s.qtValid ∧ t.htValid = s.htValid ∧ t.width = s.width ∧
      t.height = s.height ∧ t.scale = s.scale

/-- The machine right after reset meets the invariant Inv of Safety.lean. Its clause on the build is about the default build
with SINK_CAP = 4096, a value the spec leaves open and the model chose (log 5). (10_state.md section 1,
40_system_commands.md section 2.) -/
def Obligations.ResetMeetsInvariant : Prop :=
  Inv State.reset

/-- From every state that meets Inv, a step gives a state that meets it: the build's constants stay sound; FAULT is set
exactly in the FAULT phase; SBCUR < SINK_CAP, the free bits of ACC are 0, NBITS and NEXTCH are 0 outside SCAN; in the phases
1 to 7 the tables are valid and the dimensions not 0; a valid QT is the one built from SCALE, a valid HT the one built from
HSPEC, a valid ZZB the reordered COEF; in IDLE and DONE nothing waits for delivery. The clause on tables and dimensions is
for the phases 1 to 7 and not 8, as R86's last paragraph has it, because WRREG is legal in DONE and may clear QT_VALID or
write a zero there (log 14). (10_state.md section 3, 10_state.md section 4, 10_state.md section 8, 40_system_commands.md
section 2, 20_memory.md section 3.) -/
def Obligations.StepKeepsInvariant : Prop :=
  ∀ s t : State, Inv s → step s = .next t → Inv t
end

