-- ==== Sys2Proof/Laws/State.lean ====
section
/-! SUPPORT. What every named update of State does to every field: one lemma a field, true by definition, so that no proof
unfolds a record update. -/

namespace Sys2Proof.Machine

/-! ## respond -/

@[simp] theorem respond_phase (st : BitVec 4) (d : Word32) (s : State) : (respond st d s).phase = s.phase := rfl
@[simp] theorem respond_fault (st : BitVec 4) (d : Word32) (s : State) : (respond st d s).fault = s.fault := rfl
@[simp] theorem respond_fphase (st : BitVec 4) (d : Word32) (s : State) : (respond st d s).fphase = s.fphase := rfl
@[simp] theorem respond_qtValid (st : BitVec 4) (d : Word32) (s : State) : (respond st d s).qtValid = s.qtValid := rfl
@[simp] theorem respond_htValid (st : BitVec 4) (d : Word32) (s : State) : (respond st d s).htValid = s.htValid := rfl
@[simp] theorem respond_duValid (st : BitVec 4) (d : Word32) (s : State) : (respond st d s).duValid = s.duValid := rfl
@[simp] theorem respond_nextch (st : BitVec 4) (d : Word32) (s : State) : (respond st d s).nextch = s.nextch := rfl
@[simp] theorem respond_blkcnt (st : BitVec 4) (d : Word32) (s : State) : (respond st d s).blkcnt = s.blkcnt := rfl
@[simp] theorem respond_width (st : BitVec 4) (d : Word32) (s : State) : (respond st d s).width = s.width := rfl
@[simp] theorem respond_height (st : BitVec 4) (d : Word32) (s : State) : (respond st d s).height = s.height := rfl
@[simp] theorem respond_scale (st : BitVec 4) (d : Word32) (s : State) : (respond st d s).scale = s.scale := rfl
@[simp] theorem respond_dcp (st : BitVec 4) (d : Word32) (s : State) : (respond st d s).dcp = s.dcp := rfl
@[simp] theorem respond_qt (st : BitVec 4) (d : Word32) (s : State) : (respond st d s).qt = s.qt := rfl
@[simp] theorem respond_ht (st : BitVec 4) (d : Word32) (s : State) : (respond st d s).ht = s.ht := rfl
@[simp] theorem respond_coef (st : BitVec 4) (d : Word32) (s : State) : (respond st d s).coef = s.coef := rfl
@[simp] theorem respond_zzb (st : BitVec 4) (d : Word32) (s : State) : (respond st d s).zzb = s.zzb := rfl
@[simp] theorem respond_stream (st : BitVec 4) (d : Word32) (s : State) : (respond st d s).stream = s.stream := rfl
@[simp] theorem respond_inputs (st : BitVec 4) (d : Word32) (s : State) : (respond st d s).inputs = s.inputs := rfl
@[simp] theorem respond_payloads (st : BitVec 4) (d : Word32) (s : State) : (respond st d s).payloads = s.payloads := rfl
@[simp] theorem respond_rsp (st : BitVec 4) (d : Word32) (s : State) : (respond st d s).rsp = s.rsp ++ [⟨st, d⟩] := rfl
@[simp] theorem respond_build (st : BitVec 4) (d : Word32) (s : State) : (respond st d s).build = s.build := rfl
@[simp] theorem respond_freeCount (st : BitVec 4) (d : Word32) (s : State) : (respond st d s).freeCount = s.freeCount := rfl

/-! ## Taking a fault -/

@[simp] theorem takeFault_phase (c : FaultCause) (s : State) : (takeFault c s).phase = .fault := rfl
@[simp] theorem takeFault_fault (c : FaultCause) (s : State) : (takeFault c s).fault = some c := rfl
@[simp] theorem takeFault_fphase (c : FaultCause) (s : State) : (takeFault c s).fphase = s.phase := rfl
@[simp] theorem takeFault_qtValid (c : FaultCause) (s : State) : (takeFault c s).qtValid = Config.freeQtValid s.freeCount := rfl
@[simp] theorem takeFault_htValid (c : FaultCause) (s : State) : (takeFault c s).htValid = Config.freeHtValid s.freeCount := rfl
@[simp] theorem takeFault_duValid (c : FaultCause) (s : State) : (takeFault c s).duValid = Config.freeDuValid s.freeCount := rfl
@[simp] theorem takeFault_nextch (c : FaultCause) (s : State) : (takeFault c s).nextch = Config.freeNextch s.freeCount := rfl
@[simp] theorem takeFault_blkcnt (c : FaultCause) (s : State) : (takeFault c s).blkcnt = Config.freeBlkcnt s.freeCount := rfl
@[simp] theorem takeFault_width (c : FaultCause) (s : State) : (takeFault c s).width = Config.freeWidth s.freeCount := rfl
@[simp] theorem takeFault_height (c : FaultCause) (s : State) : (takeFault c s).height = Config.freeHeight s.freeCount := rfl
@[simp] theorem takeFault_scale (c : FaultCause) (s : State) : (takeFault c s).scale = Config.freeScale s.freeCount := rfl
@[simp] theorem takeFault_dcp (c : FaultCause) (s : State) : (takeFault c s).dcp = Config.freeDcp s.freeCount := rfl
@[simp] theorem takeFault_qt (c : FaultCause) (s : State) : (takeFault c s).qt = Config.freeQt s.freeCount := rfl
@[simp] theorem takeFault_ht (c : FaultCause) (s : State) : (takeFault c s).ht = Config.freeHt s.freeCount := rfl
@[simp] theorem takeFault_coef (c : FaultCause) (s : State) : (takeFault c s).coef = Config.freeCoef s.freeCount := rfl
@[simp] theorem takeFault_zzb (c : FaultCause) (s : State) : (takeFault c s).zzb = Config.freeZzb s.freeCount := rfl
@[simp] theorem takeFault_stream_acc (c : FaultCause) (s : State) :
    (takeFault c s).stream.acc = Config.freeAcc s.freeCount := rfl
@[simp] theorem takeFault_stream_nbits (c : FaultCause) (s : State) :
    (takeFault c s).stream.nbits = Config.freeNbits s.freeCount := rfl
@[simp] theorem takeFault_stream_sb (c : FaultCause) (s : State) :
    (takeFault c s).stream.sb = Config.freeSb s.freeCount := rfl
@[simp] theorem takeFault_stream_out (c : FaultCause) (s : State) :
    (takeFault c s).stream.out = s.stream.out := rfl
@[simp] theorem takeFault_stream_chunks (c : FaultCause) (s : State) :
    (takeFault c s).stream.chunks = s.stream.chunks := rfl
@[simp] theorem takeFault_stream_answers (c : FaultCause) (s : State) :
    (takeFault c s).stream.answers = s.stream.answers := rfl
@[simp] theorem takeFault_stream_thereafter (c : FaultCause) (s : State) :
    (takeFault c s).stream.thereafter = s.stream.thereafter := rfl
@[simp] theorem takeFault_inputs (c : FaultCause) (s : State) : (takeFault c s).inputs = s.inputs := rfl
@[simp] theorem takeFault_payloads (c : FaultCause) (s : State) : (takeFault c s).payloads = s.payloads := rfl
@[simp] theorem takeFault_rsp (c : FaultCause) (s : State) : (takeFault c s).rsp = s.rsp ++ [⟨c.code, 0⟩] := rfl
@[simp] theorem takeFault_build (c : FaultCause) (s : State) : (takeFault c s).build = s.build := rfl
@[simp] theorem takeFault_freeCount (c : FaultCause) (s : State) : (takeFault c s).freeCount = s.freeCount + 1 := rfl

/-! ## Reset -/

@[simp] theorem doReset_phase (s : State) : (doReset s).phase = .idle := rfl
@[simp] theorem doReset_fault (s : State) : (doReset s).fault = none := rfl
@[simp] theorem doReset_fphase (s : State) : (doReset s).fphase = .idle := rfl
@[simp] theorem doReset_qtValid (s : State) : (doReset s).qtValid = false := rfl
@[simp] theorem doReset_htValid (s : State) : (doReset s).htValid = false := rfl
@[simp] theorem doReset_duValid (s : State) : (doReset s).duValid = false := rfl
@[simp] theorem doReset_nextch (s : State) : (doReset s).nextch = .y := rfl
@[simp] theorem doReset_blkcnt (s : State) : (doReset s).blkcnt = 0 := rfl
@[simp] theorem doReset_width (s : State) : (doReset s).width = 0 := rfl
@[simp] theorem doReset_height (s : State) : (doReset s).height = 0 := rfl
@[simp] theorem doReset_scale (s : State) : (doReset s).scale = 50 := rfl
@[simp] theorem doReset_dcp (s : State) : (doReset s).dcp = Vector.replicate 3 0 := rfl
@[simp] theorem doReset_qt (s : State) : (doReset s).qt = Config.freeQt s.freeCount := rfl
@[simp] theorem doReset_ht (s : State) : (doReset s).ht = Config.freeHt s.freeCount := rfl
@[simp] theorem doReset_coef (s : State) : (doReset s).coef = Config.freeCoef s.freeCount := rfl
@[simp] theorem doReset_zzb (s : State) : (doReset s).zzb = Config.freeZzb s.freeCount := rfl
@[simp] theorem doReset_stream_acc (s : State) :
    (doReset s).stream.acc = 0 := rfl
@[simp] theorem doReset_stream_nbits (s : State) :
    (doReset s).stream.nbits = 0 := rfl
@[simp] theorem doReset_stream_sb (s : State) :
    (doReset s).stream.sb = [] := rfl
@[simp] theorem doReset_stream_out (s : State) :
    (doReset s).stream.out = s.stream.out := rfl
@[simp] theorem doReset_stream_chunks (s : State) :
    (doReset s).stream.chunks = s.stream.chunks := rfl
@[simp] theorem doReset_stream_answers (s : State) :
    (doReset s).stream.answers = s.stream.answers := rfl
@[simp] theorem doReset_stream_thereafter (s : State) :
    (doReset s).stream.thereafter = s.stream.thereafter := rfl
@[simp] theorem doReset_inputs (s : State) : (doReset s).inputs = s.inputs := rfl
@[simp] theorem doReset_payloads (s : State) : (doReset s).payloads = s.payloads := rfl
@[simp] theorem doReset_rsp (s : State) : (doReset s).rsp = s.rsp := rfl
@[simp] theorem doReset_build (s : State) : (doReset s).build = s.build := rfl
@[simp] theorem doReset_freeCount (s : State) : (doReset s).freeCount = s.freeCount + 1 := rfl

/-! ## A refused command in the FAULT phase -/

@[simp] theorem refuseInFault_phase (s : State) : (refuseInFault s).phase = s.phase := rfl
@[simp] theorem refuseInFault_fault (s : State) : (refuseInFault s).fault = s.fault := rfl
@[simp] theorem refuseInFault_fphase (s : State) : (refuseInFault s).fphase = s.fphase := rfl
@[simp] theorem refuseInFault_qtValid (s : State) : (refuseInFault s).qtValid = s.qtValid := rfl
@[simp] theorem refuseInFault_htValid (s : State) : (refuseInFault s).htValid = s.htValid := rfl
@[simp] theorem refuseInFault_duValid (s : State) : (refuseInFault s).duValid = s.duValid := rfl
@[simp] theorem refuseInFault_nextch (s : State) : (refuseInFault s).nextch = s.nextch := rfl
@[simp] theorem refuseInFault_blkcnt (s : State) : (refuseInFault s).blkcnt = s.blkcnt := rfl
@[simp] theorem refuseInFault_width (s : State) : (refuseInFault s).width = s.width := rfl
@[simp] theorem refuseInFault_height (s : State) : (refuseInFault s).height = s.height := rfl
@[simp] theorem refuseInFault_scale (s : State) : (refuseInFault s).scale = s.scale := rfl
@[simp] theorem refuseInFault_dcp (s : State) : (refuseInFault s).dcp = s.dcp := rfl
@[simp] theorem refuseInFault_qt (s : State) : (refuseInFault s).qt = s.qt := rfl
@[simp] theorem refuseInFault_ht (s : State) : (refuseInFault s).ht = s.ht := rfl
@[simp] theorem refuseInFault_coef (s : State) : (refuseInFault s).coef = s.coef := rfl
@[simp] theorem refuseInFault_zzb (s : State) : (refuseInFault s).zzb = s.zzb := rfl
@[simp] theorem refuseInFault_stream (s : State) : (refuseInFault s).stream = s.stream := rfl
@[simp] theorem refuseInFault_inputs (s : State) : (refuseInFault s).inputs = s.inputs := rfl
@[simp] theorem refuseInFault_payloads (s : State) : (refuseInFault s).payloads = s.payloads := rfl
@[simp] theorem refuseInFault_rsp (s : State) : (refuseInFault s).rsp = s.rsp ++ [⟨faultField s.fault, 0⟩] := rfl
@[simp] theorem refuseInFault_build (s : State) : (refuseInFault s).build = s.build := rfl
@[simp] theorem refuseInFault_freeCount (s : State) : (refuseInFault s).freeCount = s.freeCount := rfl

/-! ## The host takes OUT -/

@[simp] theorem takeOut_phase (s : State) : (takeOut s).phase = s.phase := rfl
@[simp] theorem takeOut_fault (s : State) : (takeOut s).fault = s.fault := rfl
@[simp] theorem takeOut_fphase (s : State) : (takeOut s).fphase = s.fphase := rfl
@[simp] theorem takeOut_qtValid (s : State) : (takeOut s).qtValid = s.qtValid := rfl
@[simp] theorem takeOut_htValid (s : State) : (takeOut s).htValid = s.htValid := rfl
@[simp] theorem takeOut_duValid (s : State) : (takeOut s).duValid = s.duValid := rfl
@[simp] theorem takeOut_nextch (s : State) : (takeOut s).nextch = s.nextch := rfl
@[simp] theorem takeOut_blkcnt (s : State) : (takeOut s).blkcnt = s.blkcnt := rfl
@[simp] theorem takeOut_width (s : State) : (takeOut s).width = s.width := rfl
@[simp] theorem takeOut_height (s : State) : (takeOut s).height = s.height := rfl
@[simp] theorem takeOut_scale (s : State) : (takeOut s).scale = s.scale := rfl
@[simp] theorem takeOut_dcp (s : State) : (takeOut s).dcp = s.dcp := rfl
@[simp] theorem takeOut_qt (s : State) : (takeOut s).qt = s.qt := rfl
@[simp] theorem takeOut_ht (s : State) : (takeOut s).ht = s.ht := rfl
@[simp] theorem takeOut_coef (s : State) : (takeOut s).coef = s.coef := rfl
@[simp] theorem takeOut_zzb (s : State) : (takeOut s).zzb = s.zzb := rfl
@[simp] theorem takeOut_stream_acc (s : State) :
    (takeOut s).stream.acc = s.stream.acc := rfl
@[simp] theorem takeOut_stream_nbits (s : State) :
    (takeOut s).stream.nbits = s.stream.nbits := rfl
@[simp] theorem takeOut_stream_sb (s : State) :
    (takeOut s).stream.sb = s.stream.sb := rfl
@[simp] theorem takeOut_stream_out (s : State) :
    (takeOut s).stream.out = [] := rfl
@[simp] theorem takeOut_stream_chunks (s : State) :
    (takeOut s).stream.chunks = s.stream.chunks := rfl
@[simp] theorem takeOut_stream_answers (s : State) :
    (takeOut s).stream.answers = s.stream.answers := rfl
@[simp] theorem takeOut_stream_thereafter (s : State) :
    (takeOut s).stream.thereafter = s.stream.thereafter := rfl
@[simp] theorem takeOut_inputs (s : State) : (takeOut s).inputs = s.inputs := rfl
@[simp] theorem takeOut_payloads (s : State) : (takeOut s).payloads = s.payloads := rfl
@[simp] theorem takeOut_rsp (s : State) : (takeOut s).rsp = s.rsp := rfl
@[simp] theorem takeOut_build (s : State) : (takeOut s).build = s.build := rfl
@[simp] theorem takeOut_freeCount (s : State) : (takeOut s).freeCount = s.freeCount := rfl

/-! ## The start of a stream -/

@[simp] theorem clearStream_phase (s : State) : (clearStream s).phase = s.phase := rfl
@[simp] theorem clearStream_fault (s : State) : (clearStream s).fault = s.fault := rfl
@[simp] theorem clearStream_fphase (s : State) : (clearStream s).fphase = s.fphase := rfl
@[simp] theorem clearStream_qtValid (s : State) : (clearStream s).qtValid = s.qtValid := rfl
@[simp] theorem clearStream_htValid (s : State) : (clearStream s).htValid = s.htValid := rfl
@[simp] theorem clearStream_duValid (s : State) : (clearStream s).duValid = false := rfl
@[simp] theorem clearStream_nextch (s : State) : (clearStream s).nextch = .y := rfl
@[simp] theorem clearStream_blkcnt (s : State) : (clearStream s).blkcnt = 0 := rfl
@[simp] theorem clearStream_width (s : State) : (clearStream s).width = s.width := rfl
@[simp] theorem clearStream_height (s : State) : (clearStream s).height = s.height := rfl
@[simp] theorem clearStream_scale (s : State) : (clearStream s).scale = s.scale := rfl
@[simp] theorem clearStream_dcp (s : State) : (clearStream s).dcp = Vector.replicate 3 0 := rfl
@[simp] theorem clearStream_qt (s : State) : (clearStream s).qt = s.qt := rfl
@[simp] theorem clearStream_ht (s : State) : (clearStream s).ht = s.ht := rfl
@[simp] theorem clearStream_coef (s : State) : (clearStream s).coef = s.coef := rfl
@[simp] theorem clearStream_zzb (s : State) : (clearStream s).zzb = s.zzb := rfl
@[simp] theorem clearStream_stream_acc (s : State) :
    (clearStream s).stream.acc = 0 := rfl
@[simp] theorem clearStream_stream_nbits (s : State) :
    (clearStream s).stream.nbits = 0 := rfl
@[simp] theorem clearStream_stream_sb (s : State) :
    (clearStream s).stream.sb = s.stream.sb := rfl
@[simp] theorem clearStream_stream_out (s : State) :
    (clearStream s).stream.out = s.stream.out := rfl
@[simp] theorem clearStream_stream_chunks (s : State) :
    (clearStream s).stream.chunks = s.stream.chunks := rfl
@[simp] theorem clearStream_stream_answers (s : State) :
    (clearStream s).stream.answers = s.stream.answers := rfl
@[simp] theorem clearStream_stream_thereafter (s : State) :
    (clearStream s).stream.thereafter = s.stream.thereafter := rfl
@[simp] theorem clearStream_inputs (s : State) : (clearStream s).inputs = s.inputs := rfl
@[simp] theorem clearStream_payloads (s : State) : (clearStream s).payloads = s.payloads := rfl
@[simp] theorem clearStream_rsp (s : State) : (clearStream s).rsp = s.rsp := rfl
@[simp] theorem clearStream_build (s : State) : (clearStream s).build = s.build := rfl
@[simp] theorem clearStream_freeCount (s : State) : (clearStream s).freeCount = s.freeCount := rfl

/-! ## The counters after a data unit -/

@[simp] theorem advance_phase (c : Channel) (s : State) : (advance c s).phase = s.phase := by
  cases c <;> rfl
@[simp] theorem advance_fault (c : Channel) (s : State) : (advance c s).fault = s.fault := by
  cases c <;> rfl
@[simp] theorem advance_fphase (c : Channel) (s : State) : (advance c s).fphase = s.fphase := by
  cases c <;> rfl
@[simp] theorem advance_qtValid (c : Channel) (s : State) : (advance c s).qtValid = s.qtValid := by
  cases c <;> rfl
@[simp] theorem advance_htValid (c : Channel) (s : State) : (advance c s).htValid = s.htValid := by
  cases c <;> rfl
@[simp] theorem advance_duValid (c : Channel) (s : State) : (advance c s).duValid = true := by
  cases c <;> rfl
@[simp] theorem advance_width (c : Channel) (s : State) : (advance c s).width = s.width := by
  cases c <;> rfl
@[simp] theorem advance_height (c : Channel) (s : State) : (advance c s).height = s.height := by
  cases c <;> rfl
@[simp] theorem advance_scale (c : Channel) (s : State) : (advance c s).scale = s.scale := by
  cases c <;> rfl
@[simp] theorem advance_dcp (c : Channel) (s : State) : (advance c s).dcp = s.dcp := by
  cases c <;> rfl
@[simp] theorem advance_qt (c : Channel) (s : State) : (advance c s).qt = s.qt := by
  cases c <;> rfl
@[simp] theorem advance_ht (c : Channel) (s : State) : (advance c s).ht = s.ht := by
  cases c <;> rfl
@[simp] theorem advance_coef (c : Channel) (s : State) : (advance c s).coef = s.coef := by
  cases c <;> rfl
@[simp] theorem advance_zzb (c : Channel) (s : State) : (advance c s).zzb = s.zzb := by
  cases c <;> rfl
@[simp] theorem advance_stream (c : Channel) (s : State) : (advance c s).stream = s.stream := by
  cases c <;> rfl
@[simp] theorem advance_inputs (c : Channel) (s : State) : (advance c s).inputs = s.inputs := by
  cases c <;> rfl
@[simp] theorem advance_payloads (c : Channel) (s : State) : (advance c s).payloads = s.payloads := by
  cases c <;> rfl
@[simp] theorem advance_rsp (c : Channel) (s : State) : (advance c s).rsp = s.rsp := by
  cases c <;> rfl
@[simp] theorem advance_build (c : Channel) (s : State) : (advance c s).build = s.build := by
  cases c <;> rfl
@[simp] theorem advance_freeCount (c : Channel) (s : State) : (advance c s).freeCount = s.freeCount := by
  cases c <;> rfl

/-! ## A register write -/

@[simp] theorem writeRegister_phase (a : BitVec 8) (d : Word16) (s : State) : (writeRegister a d s).phase = s.phase := by
  unfold writeRegister; split <;> rfl
@[simp] theorem writeRegister_fault (a : BitVec 8) (d : Word16) (s : State) : (writeRegister a d s).fault = s.fault := by
  unfold writeRegister; split <;> rfl
@[simp] theorem writeRegister_fphase (a : BitVec 8) (d : Word16) (s : State) : (writeRegister a d s).fphase = s.fphase := by
  unfold writeRegister; split <;> rfl
@[simp] theorem writeRegister_htValid (a : BitVec 8) (d : Word16) (s : State) : (writeRegister a d s).htValid = s.htValid := by
  unfold writeRegister; split <;> rfl
@[simp] theorem writeRegister_duValid (a : BitVec 8) (d : Word16) (s : State) : (writeRegister a d s).duValid = s.duValid := by
  unfold writeRegister; split <;> rfl
@[simp] theorem writeRegister_nextch (a : BitVec 8) (d : Word16) (s : State) : (writeRegister a d s).nextch = s.nextch := by
  unfold writeRegister; split <;> rfl
@[simp] theorem writeRegister_blkcnt (a : BitVec 8) (d : Word16) (s : State) : (writeRegister a d s).blkcnt = s.blkcnt := by
  unfold writeRegister; split <;> rfl
@[simp] theorem writeRegister_dcp (a : BitVec 8) (d : Word16) (s : State) : (writeRegister a d s).dcp = s.dcp := by
  unfold writeRegister; split <;> rfl
@[simp] theorem writeRegister_qt (a : BitVec 8) (d : Word16) (s : State) : (writeRegister a d s).qt = s.qt := by
  unfold writeRegister; split <;> rfl
@[simp] theorem writeRegister_ht (a : BitVec 8) (d : Word16) (s : State) : (writeRegister a d s).ht = s.ht := by
  unfold writeRegister; split <;> rfl
@[simp] theorem writeRegister_coef (a : BitVec 8) (d : Word16) (s : State) : (writeRegister a d s).coef = s.coef := by
  unfold writeRegister; split <;> rfl
@[simp] theorem writeRegister_zzb (a : BitVec 8) (d : Word16) (s : State) : (writeRegister a d s).zzb = s.zzb := by
  unfold writeRegister; split <;> rfl
@[simp] theorem writeRegister_stream (a : BitVec 8) (d : Word16) (s : State) : (writeRegister a d s).stream = s.stream := by
  unfold writeRegister; split <;> rfl
@[simp] theorem writeRegister_inputs (a : BitVec 8) (d : Word16) (s : State) : (writeRegister a d s).inputs = s.inputs := by
  unfold writeRegister; split <;> rfl
@[simp] theorem writeRegister_payloads (a : BitVec 8) (d : Word16) (s : State) : (writeRegister a d s).payloads = s.payloads := by
  unfold writeRegister; split <;> rfl
@[simp] theorem writeRegister_rsp (a : BitVec 8) (d : Word16) (s : State) : (writeRegister a d s).rsp = s.rsp := by
  unfold writeRegister; split <;> rfl
@[simp] theorem writeRegister_build (a : BitVec 8) (d : Word16) (s : State) : (writeRegister a d s).build = s.build := by
  unfold writeRegister; split <;> rfl
@[simp] theorem writeRegister_freeCount (a : BitVec 8) (d : Word16) (s : State) : (writeRegister a d s).freeCount = s.freeCount := by
  unfold writeRegister; split <;> rfl

/-! ## A chunk offered to the host -/

@[simp] theorem offer_acc (st : Stream) : st.offer.acc = st.acc := rfl
@[simp] theorem offer_nbits (st : Stream) : st.offer.nbits = st.nbits := rfl
@[simp] theorem offer_sb (st : Stream) : st.offer.sb = st.sb := rfl
@[simp] theorem offer_out (st : Stream) : st.offer.out = st.out := rfl
@[simp] theorem offer_chunks (st : Stream) : st.offer.chunks = st.chunks ++ [st.sb] := rfl
@[simp] theorem offer_answers (st : Stream) : st.offer.answers = st.answers.tail := rfl
@[simp] theorem offer_thereafter (st : Stream) : st.offer.thereafter = st.thereafter := rfl

/-! ## The host issues a word -/

@[simp] theorem withFetchWord_phase (s : State) (nbits w : Nat) : (s.withFetchWord nbits w).phase = s.phase := rfl
@[simp] theorem withFetchWord_fault (s : State) (nbits w : Nat) : (s.withFetchWord nbits w).fault = s.fault := rfl
@[simp] theorem withFetchWord_fphase (s : State) (nbits w : Nat) : (s.withFetchWord nbits w).fphase = s.fphase := rfl
@[simp] theorem withFetchWord_qtValid (s : State) (nbits w : Nat) : (s.withFetchWord nbits w).qtValid = s.qtValid := rfl
@[simp] theorem withFetchWord_htValid (s : State) (nbits w : Nat) : (s.withFetchWord nbits w).htValid = s.htValid := rfl
@[simp] theorem withFetchWord_duValid (s : State) (nbits w : Nat) : (s.withFetchWord nbits w).duValid = s.duValid := rfl
@[simp] theorem withFetchWord_nextch (s : State) (nbits w : Nat) : (s.withFetchWord nbits w).nextch = s.nextch := rfl
@[simp] theorem withFetchWord_blkcnt (s : State) (nbits w : Nat) : (s.withFetchWord nbits w).blkcnt = s.blkcnt := rfl
@[simp] theorem withFetchWord_width (s : State) (nbits w : Nat) : (s.withFetchWord nbits w).width = s.width := rfl
@[simp] theorem withFetchWord_height (s : State) (nbits w : Nat) : (s.withFetchWord nbits w).height = s.height := rfl
@[simp] theorem withFetchWord_scale (s : State) (nbits w : Nat) : (s.withFetchWord nbits w).scale = s.scale := rfl
@[simp] theorem withFetchWord_dcp (s : State) (nbits w : Nat) : (s.withFetchWord nbits w).dcp = s.dcp := rfl
@[simp] theorem withFetchWord_qt (s : State) (nbits w : Nat) : (s.withFetchWord nbits w).qt = s.qt := rfl
@[simp] theorem withFetchWord_ht (s : State) (nbits w : Nat) : (s.withFetchWord nbits w).ht = s.ht := rfl
@[simp] theorem withFetchWord_coef (s : State) (nbits w : Nat) : (s.withFetchWord nbits w).coef = s.coef := rfl
@[simp] theorem withFetchWord_zzb (s : State) (nbits w : Nat) : (s.withFetchWord nbits w).zzb = s.zzb := rfl
@[simp] theorem withFetchWord_stream (s : State) (nbits w : Nat) : (s.withFetchWord nbits w).stream = s.stream := rfl
@[simp] theorem withFetchWord_inputs (s : State) (nbits w : Nat) : (s.withFetchWord nbits w).inputs = .cmd (BitVec.ofNat 32 (w % 2 ^ nbits)) :: s.inputs := rfl
@[simp] theorem withFetchWord_payloads (s : State) (nbits w : Nat) : (s.withFetchWord nbits w).payloads = s.payloads := rfl
@[simp] theorem withFetchWord_rsp (s : State) (nbits w : Nat) : (s.withFetchWord nbits w).rsp = s.rsp := rfl
@[simp] theorem withFetchWord_build (s : State) (nbits w : Nat) : (s.withFetchWord nbits w).build = s.build := rfl
@[simp] theorem withFetchWord_freeCount (s : State) (nbits w : Nat) : (s.withFetchWord nbits w).freeCount = s.freeCount := rfl

end Sys2Proof.Machine
end

