-- ==== Sys2Proof/Laws/Ops.lean ====
section
/-! SUPPORT. For each shared operation of Machine/Ops.lean, once, everything it can do. -/

namespace Sys2Proof.Machine

/-! ## Runs -/

@[simp] theorem Run.andThen_done {α : Type} (a : α) (k : α → Run α) : (Run.done a).andThen k = k a := rfl

@[simp] theorem Run.andThen_raised {α : Type} (c : FaultCause) (a : α) (k : α → Run α) :
    (Run.raised c a).andThen k = .raised c a := rfl

@[simp] theorem Run.thenDo_done {α : Type} (a : α) (f : α → α) : (Run.done a).thenDo f = .done (f a) := rfl

@[simp] theorem Run.thenDo_raised {α : Type} (c : FaultCause) (a : α) (f : α → α) :
    (Run.raised c a).thenDo f = .raised c a := rfl

@[simp] theorem Run.map_done {α β : Type} (f : α → β) (a : α) : (Run.done a).map f = .done (f a) := rfl

@[simp] theorem Run.map_raised {α β : Type} (f : α → β) (c : FaultCause) (a : α) :
    (Run.raised c a).map f = .raised c (f a) := rfl

theorem Run.andThen_eq_done {α : Type} {r : Run α} {k : α → Run α} {b : α} :
    r.andThen k = .done b ↔ ∃ a, r = .done a ∧ k a = .done b := by
  cases r <;> simp

theorem Run.andThen_eq_raised {α : Type} {r : Run α} {k : α → Run α} {c : FaultCause} {b : α} :
    r.andThen k = .raised c b ↔ r = .raised c b ∨ ∃ a, r = .done a ∧ k a = .raised c b := by
  cases r <;> simp

theorem Run.thenDo_eq_done {α : Type} {r : Run α} {f : α → α} {b : α} :
    r.thenDo f = .done b ↔ ∃ a, r = .done a ∧ f a = b := by
  cases r <;> simp

theorem Run.thenDo_eq_raised {α : Type} {r : Run α} {f : α → α} {c : FaultCause} {b : α} :
    r.thenDo f = .raised c b ↔ r = .raised c b := by
  cases r <;> simp

/-! ## Execute -/

/-- In the FAULT phase nothing but the gate counts. -/
theorem execute_fault {i : Instr} {body : State → Run State} {data : State → Word32} {s : State}
    (hf : s.phase = .fault) : execute i body data s = .next (faultGate i s) := by
  simp [execute, hf]

/-- A failing check takes the fault it names. -/
theorem execute_checked {i : Instr} {body : State → Run State} {data : State → Word32} {s : State} {c : FaultCause}
    (hf : s.phase ≠ .fault) (hc : check i s = some c) : execute i body data s = .next (takeFault c s) := by
  simp [execute, hf, hc]

/-- With every check passed the body runs. -/
theorem execute_passed {i : Instr} {body : State → Run State} {data : State → Word32} {s : State}
    (hf : s.phase ≠ .fault) (hc : check i s = none) :
    execute i body data s = .next (finish (data s) (body s)) := by
  simp [execute, hf, hc]

/-- Everything Execute can do. -/
theorem execute_cases (i : Instr) (body : State → Run State) (data : State → Word32) (s : State) :
    (s.phase = .fault ∧ execute i body data s = .next (faultGate i s)) ∨
    (s.phase ≠ .fault ∧ ∃ c, check i s = some c ∧ execute i body data s = .next (takeFault c s)) ∨
    (s.phase ≠ .fault ∧ check i s = none ∧ ∃ c t, body s = .raised c t ∧
      execute i body data s = .next (takeFault c t)) ∨
    (s.phase ≠ .fault ∧ check i s = none ∧ ∃ t, body s = .done t ∧
      execute i body data s = .next (respond 0 (data s) t)) := by
  by_cases hf : s.phase = .fault
  · exact .inl ⟨hf, execute_fault hf⟩
  · cases hc : check i s with
    | some c => exact .inr (.inl ⟨hf, c, rfl, execute_checked hf hc⟩)
    | none =>
      cases hb : body s with
      | raised c t => exact .inr (.inr (.inl ⟨hf, rfl, c, t, rfl, by rw [execute_passed hf hc, hb]; rfl⟩))
      | done t => exact .inr (.inr (.inr ⟨hf, rfl, t, rfl, by rw [execute_passed hf hc, hb]; rfl⟩))

/-- When every check passes. -/
theorem check_eq_none {i : Instr} {s : State} :
    check i s = none ↔
      i.wellFormed = true ∧ addressOk i = true ∧ legal i s.phase s.nextch = true ∧ precondition i s = none := by
  unfold check
  cases i.wellFormed <;> cases addressOk i <;> cases legal i s.phase s.nextch <;> simp

/-! ## The sink buffer -/

@[simp] theorem onStream_done {f : Nat → Stream → Run Stream} {s : State} {st : Stream}
    (h : f s.build.sinkCap.toNat s.stream = .done st) : onStream f s = .done { s with stream := st } := by
  simp [onStream, h]

@[simp] theorem onStream_raised {f : Nat → Stream → Run Stream} {s : State} {st : Stream} {c : FaultCause}
    (h : f s.build.sinkCap.toNat s.stream = .raised c st) : onStream f s = .raised c { s with stream := st } := by
  simp [onStream, h]

/-- Everything Drain can do. -/
theorem drain_cases (st : Stream) :
    (st.sb = [] ∧ drain st = .done st) ∨
    (st.sb ≠ [] ∧ st.nextAnswer = .ok ∧ drain st = .done { st.offer with out := st.out ++ st.sb, sb := [] }) ∨
    (st.sb ≠ [] ∧ st.nextAnswer = .fail ∧
      drain st = .raised .sinkWrite { st.offer with out := st.out ++ partOf st.chunks.length st.sb }) := by
  by_cases h : st.sb = []
  · exact .inl ⟨h, by simp [drain, h]⟩
  · cases ha : st.nextAnswer with
    | ok => exact .inr (.inl ⟨h, rfl, by simp [drain, h, ha]⟩)
    | fail => exact .inr (.inr ⟨h, rfl, by simp [drain, h, ha]⟩)

/-- A host that accepts everything accepts the next delivery. -/
theorem nextAnswer_of_allOk {st : Stream} (h : Safety.AllOk st) : st.nextAnswer = .ok := by
  unfold Stream.nextAnswer
  split
  · exact h.thereafter
  · next a _ ha => exact h.scripted a (by simp [ha])

/-- Drain with a host that accepts everything: what SB held is in OUT, and SB is empty. -/
theorem drain_ok {st : Stream} (h : Safety.AllOk st) :
    ∃ st', drain st = .done st' ∧ st'.sb = [] ∧ st'.out = st.out ++ st.sb ∧ st'.acc = st.acc ∧
      st'.nbits = st.nbits ∧ Safety.AllOk st' := by
  rcases drain_cases st with ⟨he, hd⟩ | ⟨_, _, hd⟩ | ⟨_, ha, _⟩
  · exact ⟨st, hd, he, by simp [he], rfl, rfl, h⟩
  · exact ⟨_, hd, rfl, rfl, rfl, rfl, fun a ha => h.scripted a (List.mem_of_mem_tail ha), h.thereafter⟩
  · rw [nextAnswer_of_allOk h] at ha; cases ha

/-- No delivery. -/
theorem deliversFull_none {cap : Nat} {st st' : Stream} (hc : st'.chunks = st.chunks) (ho : st'.out = st.out)
    (ha : st'.answers = st.answers) (ht : st'.thereafter = st.thereafter) : Safety.DeliversFull cap st st' :=
  ⟨[], by simp [hc], by simp [ho], by simp [ha], ht, by simp⟩

/-- Deliveries one after the other. -/
theorem deliversFull_trans {cap : Nat} {a b c : Stream} (h : Safety.DeliversFull cap a b)
    (k : Safety.DeliversFull cap b c) : Safety.DeliversFull cap a c := by
  obtain ⟨m, h1, h2, h3, h4, h5⟩ := h
  obtain ⟨n, k1, k2, k3, k4, k5⟩ := k
  refine ⟨m ++ n, by rw [k1, h1, List.append_assoc], by rw [k2, h2, List.flatten_append, List.append_assoc], ?_,
    k4.trans h4, fun x hx => (List.mem_append.mp hx).elim (h5 x) (k5 x)⟩
  rw [k3, h3, List.drop_drop, List.length_append]

/-- OUT keeps what it held. -/
theorem deliversFull_grows {cap : Nat} {st st' : Stream} (h : Safety.DeliversFull cap st st') : st.out <+: st'.out := by
  obtain ⟨new, _, h, _⟩ := h
  exact ⟨new.flatten, h.symm⟩

/-- One byte appended, with a host that accepts everything. -/
theorem sinkAppend_writes {cap : Nat} {b : Byte} {st : Stream} (h : Safety.AllOk st) (hr : st.sb.length < cap) :
    ∃ st', sinkAppend cap b st = .done st' ∧ Safety.WritesBytes cap st st' [b] := by
  unfold sinkAppend Stream.sbcur
  split
  · next hc =>
    have hok : Safety.AllOk { st with sb := st.sb ++ [b] } := ⟨h.scripted, h.thereafter⟩
    rcases drain_cases { st with sb := st.sb ++ [b] } with ⟨he, _⟩ | ⟨_, _, hd⟩ | ⟨_, ha, _⟩
    · simp at he
    · refine ⟨_, hd, by simp [Stream.ls], rfl, rfl, ⟨[st.sb ++ [b]], rfl, by simp, by simp [Stream.offer], rfl, ?_⟩,
        ⟨fun a ha => h.scripted a (List.mem_of_mem_tail ha), h.thereafter⟩, by simp; omega⟩
      simpa using hc
    · rw [nextAnswer_of_allOk hok] at ha; cases ha
  · next hc =>
    exact ⟨_, rfl, by simp [Stream.ls], rfl, rfl, deliversFull_none rfl rfl rfl rfl, ⟨h.scripted, h.thereafter⟩,
      by simp; omega⟩

/-- Two writes one after the other. -/
theorem writesBytes_trans {cap : Nat} {a b c : Stream} {l m : List Byte} (h : Safety.WritesBytes cap a b l)
    (k : Safety.WritesBytes cap b c m) : Safety.WritesBytes cap a c (l ++ m) :=
  ⟨by rw [k.ls, h.ls, List.append_assoc], k.acc.trans h.acc, k.nbits.trans h.nbits, deliversFull_trans h.split k.split,
    k.ok, k.room⟩

/-- Bytes appended, with a host that accepts everything: they end up in the logical stream, in order. -/
theorem appendBytes_writes {cap : Nat} (l : List Byte) {st : Stream} (h : Safety.AllOk st) (hr : st.sb.length < cap) :
    ∃ st', appendBytes cap l st = .done st' ∧ Safety.WritesBytes cap st st' l := by
  induction l generalizing st with
  | nil => exact ⟨st, rfl, by simp, rfl, rfl, deliversFull_none rfl rfl rfl rfl, h, hr⟩
  | cons b rest ih =>
    obtain ⟨st1, h1, w1⟩ := sinkAppend_writes (b := b) h hr
    obtain ⟨st2, h2, w2⟩ := ih w1.ok w1.room
    exact ⟨st2, by simp [appendBytes, h1, h2], writesBytes_trans w1 w2⟩

/-! ## The payload -/

/-- A pull answered with exactly n bytes. -/
theorem pull_bytes {n : Nat} {b : List Byte} {rest : List PayloadAnswer} {s : State}
    (h : s.payloads = .bytes b :: rest) (hl : b.length = n) :
    pull n s = (some ⟨b.toArray, by simp [hl]⟩, { s with payloads := rest }) := by
  simp [pull, h, hl]

/-- A data command with its payload there. -/
theorem withPayload_bytes {n : Nat} {b : List Byte} {rest : List PayloadAnswer} {s : State}
    {k : Vector Byte n → State → Run State} (h : s.payloads = .bytes b :: rest) (hl : b.length = n) :
    withPayload n k s = k ⟨b.toArray, by simp [hl]⟩ { s with payloads := rest } := by
  simp [withPayload, pull_bytes h hl]

end Sys2Proof.Machine
end

