-- ==== Sys2Proof/Laws/BitWriter.lean ====
section
/-! SUPPORT. The bit writer's functions, each with everything it does when the host accepts every delivery. -/

namespace Sys2Proof.Machine

open Sys2Proof.Reference Sys2Proof.Safety

/-! ## The accumulator -/

theorem pendingBits_empty {st : Stream} (h : st.nbits = 0) : pendingBits st = [] := by
  simp [pendingBits, h]

theorem pendingBits_length (st : Stream) : (pendingBits st).length = st.nbits.toNat := by
  simp [pendingBits]

/-- The accumulator's arithmetic as bits, for every content it can have. -/
theorem accumulator_step : ∀ (acc : BitVec 8) (n : BitVec 3) (b : Bool), acc.toNat % 2 ^ (8 - n.toNat) = 0 →
    if n = 7 then
      BitVec.ofNat 8 (bitsValue (((List.range n.toNat).map fun j => acc.getLsbD (7 - j)) ++ [b])) =
        acc + (if b then (1 : Byte) <<< (7 - n.toNat) else 0)
    else
      (acc + (if b then (1 : Byte) <<< (7 - n.toNat) else 0)).toNat % 2 ^ (8 - (n + 1).toNat) = 0 ∧
      ((List.range (n + 1).toNat).map fun j =>
        (acc + (if b then (1 : Byte) <<< (7 - n.toNat) else 0)).getLsbD (7 - j)) =
        ((List.range n.toNat).map fun j => acc.getLsbD (7 - j)) ++ [b] := by
  decide +kernel

/-! ## Bytes of a bit string -/

theorem stuffed_cons (b : Byte) (l : List Byte) : stuffed (b :: l) = stuffed [b] ++ stuffed l := by
  simp only [stuffed]; split <;> rfl

theorem fullBytes_cons {l : List Bool} (h : l.length = 8) (m : List Bool) :
    fullBytes (l ++ m) = BitVec.ofNat 8 (bitsValue l) :: fullBytes m := by
  match l, h with
  | [a, b, c, d, e, f, g, i], _ => rfl

theorem leftoverBits_cons {l : List Bool} (h : l.length = 8) (m : List Bool) :
    leftoverBits (l ++ m) = leftoverBits m := by
  match l, h with
  | [a, b, c, d, e, f, g, i], _ => rfl

theorem short_bits {l : List Bool} (h : l.length < 8) : fullBytes l = [] ∧ leftoverBits l = l := by
  match l, h with
  | [], _ => exact ⟨rfl, rfl⟩
  | [_], _ => exact ⟨rfl, rfl⟩
  | [_, _], _ => exact ⟨rfl, rfl⟩
  | [_, _, _], _ => exact ⟨rfl, rfl⟩
  | [_, _, _, _], _ => exact ⟨rfl, rfl⟩
  | [_, _, _, _, _], _ => exact ⟨rfl, rfl⟩
  | [_, _, _, _, _, _], _ => exact ⟨rfl, rfl⟩
  | [_, _, _, _, _, _, _], _ => exact ⟨rfl, rfl⟩

theorem bitString_succ (code k : Nat) : bitString code (k + 1) = code.testBit k :: bitString code k := by
  simp only [bitString, List.range_succ_eq_map, List.map_cons, List.map_map]
  refine congrArg₂ _ (by simp) (List.map_congr_left fun j _ => ?_)
  simp only [Function.comp]
  congr 1
  omega

/-! ## Writing -/

/-- Nothing written. -/
theorem writesBits_nil {cap : Nat} {st : Stream} (h : Ready cap st) : WritesBits cap st st [] := by
  have hl : (pendingBits st).length < 8 := by rw [pendingBits_length]; omega
  obtain ⟨hf, ho⟩ := short_bits hl
  exact ⟨by simp [hf, stuffed], by simp [ho], deliversFull_none rfl rfl rfl rfl, h⟩

/-- A completed byte, stuffed if it is FF. -/
theorem putDataByte_writes {cap : Nat} (b : Byte) {st : Stream} (h : AllOk st) (hr : st.sb.length < cap) :
    ∃ st', putDataByte cap b st = .done st' ∧ WritesBytes cap st st' (stuffed [b]) := by
  obtain ⟨st1, h1, w1⟩ := sinkAppend_writes (b := b) h hr
  by_cases hb : b = 0xFF
  · obtain ⟨st2, h2, w2⟩ := sinkAppend_writes (b := 0x00) w1.ok w1.room
    refine ⟨st2, ?_, by simp only [stuffed]; rw [if_pos hb]; exact writesBytes_trans w1 w2⟩
    simp only [putDataByte, h1, Run.andThen_done]
    rw [if_pos hb, h2]
  · refine ⟨st1, ?_, by simp only [stuffed]; rw [if_neg hb]; exact w1⟩
    simp only [putDataByte, h1, Run.andThen_done]
    rw [if_neg hb]

/-- One bit, and then more. -/
theorem writeBit_writes {cap : Nat} (b : Bool) {st : Stream} (h : Ready cap st) :
    ∃ st1, writeBit cap b st = .done st1 ∧ Ready cap st1 ∧
      ∀ st2 bits, WritesBits cap st1 st2 bits → WritesBits cap st st2 (b :: bits) := by
  have key := accumulator_step st.acc st.nbits b h.tidy
  by_cases hn : st.nbits = 7
  · rw [if_pos hn] at key
    obtain ⟨st1, h1, w1⟩ := putDataByte_writes (cap := cap)
      (st.acc + (if b then (1 : Byte) <<< (7 - st.nbits.toNat) else 0)) (st := { st with acc := 0, nbits := 0 })
      ⟨h.ok.scripted, h.ok.thereafter⟩ h.room
    have hp : pendingBits st1 = [] := pendingBits_empty (by rw [w1.nbits])
    refine ⟨st1, by simp only [writeBit]; rw [if_pos hn]; exact h1, ⟨w1.ok, w1.room, ?_⟩, fun st2 bits w => ?_⟩
    · simp [Tidy, w1.acc]
    · have hl : (pendingBits st ++ [b]).length = 8 := by simp [pendingBits_length, hn]
      have he : pendingBits st ++ b :: bits = (pendingBits st ++ [b]) ++ bits := by simp
      refine ⟨?_, ?_, deliversFull_trans w1.split w.split, w.ready⟩
      · rw [w.ls, w1.ls, he, fullBytes_cons hl, stuffed_cons (BitVec.ofNat 8 _), hp]
        have : BitVec.ofNat 8 (bitsValue (pendingBits st ++ [b])) =
          st.acc + (if b then (1 : Byte) <<< (7 - st.nbits.toNat) else 0) := key
        rw [this]
        simp only [Stream.ls, List.nil_append, List.append_assoc]
      · rw [w.pending, he, leftoverBits_cons hl, hp]; rfl
  · rw [if_neg hn] at key
    refine ⟨{ st with
        acc := st.acc + (if b then (1 : Byte) <<< (7 - st.nbits.toNat) else 0), nbits := st.nbits + 1 },
      by simp only [writeBit]; rw [if_neg hn], ⟨⟨h.ok.scripted, h.ok.thereafter⟩, h.room, key.1⟩,
      fun st2 bits w => ?_⟩
    have hp : pendingBits { st with
        acc := st.acc + (if b then (1 : Byte) <<< (7 - st.nbits.toNat) else 0), nbits := st.nbits + 1 } =
        pendingBits st ++ [b] := key.2
    have hl := w.ls
    have hq := w.pending
    rw [hp] at hl hq
    exact ⟨by simpa [Stream.ls] using hl, by simpa using hq, w.split, w.ready⟩

/-- WriteBits appends the n low bits of the code, first written first. -/
theorem writeBits_writes {cap : Nat} (code n : Nat) {st : Stream} (h : Ready cap st) :
    ∃ st', writeBits cap code n st = .done st' ∧ WritesBits cap st st' (bitString code n) := by
  induction n generalizing st with
  | zero => exact ⟨st, rfl, writesBits_nil h⟩
  | succ k ih =>
    obtain ⟨st1, h1, r1, w1⟩ := writeBit_writes (code.testBit k) h
    obtain ⟨st2, h2, w2⟩ := ih r1
    exact ⟨st2, by simp [writeBits, h1, h2], by rw [bitString_succ]; exact w1 st2 _ w2⟩

end Sys2Proof.Machine
end

