-- ==== Sys2Proof/Laws/EntropyCoder.lean ====
section
/-! SUPPORT. The entropy coder's functions, each with everything it does when the host accepts every delivery: it writes the
bit string of Safety/Reference.lean, or raises UNCODED where that has none. -/

namespace Sys2Proof.Machine

open Sys2Proof.Reference Sys2Proof.Safety

/-! ## Bit strings one after the other -/

theorem bytes_append (n : Nat) (l m : List Bool) (hn : l.length ≤ n) :
    fullBytes (l ++ m) = fullBytes l ++ fullBytes (leftoverBits l ++ m) ∧
      leftoverBits (l ++ m) = leftoverBits (leftoverBits l ++ m) := by
  induction n generalizing l with
  | zero =>
    obtain rfl := List.length_eq_zero_iff.mp (Nat.le_zero.mp hn)
    exact ⟨rfl, rfl⟩
  | succ k ih =>
    by_cases h : l.length < 8
    · obtain ⟨h1, h2⟩ := short_bits h
      simp [h1, h2]
    · have ht : (l.take 8).length = 8 := by rw [List.length_take]; omega
      obtain ⟨h1, h2⟩ := ih (l.drop 8) (by rw [List.length_drop]; omega)
      have hf := fullBytes_cons ht (l.drop 8)
      have hf' := fullBytes_cons ht (l.drop 8 ++ m)
      have hl := leftoverBits_cons ht (l.drop 8)
      have hl' := leftoverBits_cons ht (l.drop 8 ++ m)
      rw [← List.append_assoc] at hf' hl'
      rw [List.take_append_drop] at hf hf' hl hl'
      rw [hf, hf', hl, hl']
      exact ⟨by rw [h1]; rfl, h2⟩

theorem fullBytes_append (l m : List Bool) : fullBytes (l ++ m) = fullBytes l ++ fullBytes (leftoverBits l ++ m) :=
  (bytes_append _ l m le_rfl).1

theorem leftoverBits_append (l m : List Bool) : leftoverBits (l ++ m) = leftoverBits (leftoverBits l ++ m) :=
  (bytes_append _ l m le_rfl).2

theorem stuffed_append (l m : List Byte) : stuffed (l ++ m) = stuffed l ++ stuffed m := by
  induction l with
  | nil => rfl
  | cons b rest ih => rw [List.cons_append, stuffed_cons, ih, stuffed_cons b rest, List.append_assoc]

/-- Two bit strings written one after the other. -/
theorem writesBits_trans {cap : Nat} {a b c : Stream} {l m : List Bool} (h : WritesBits cap a b l)
    (k : WritesBits cap b c m) : WritesBits cap a c (l ++ m) := by
  refine ⟨?_, ?_, deliversFull_trans h.split k.split, k.ready⟩
  · rw [k.ls, h.ls, h.pending, ← List.append_assoc, fullBytes_append (pendingBits a ++ l), stuffed_append,
      List.append_assoc]
  · rw [k.pending, h.pending, ← List.append_assoc, ← leftoverBits_append]

/-! ## Runs that write an optional bit string -/

/-- The run writes the bit string, or raises UNCODED if there is none. -/
def Follows (cap : Nat) (st : Stream) (r : Run Stream) (o : Option (List Bool)) : Prop :=
  match o with
  | some bits => ∃ st', r = .done st' ∧ WritesBits cap st st' bits
  | none => ∃ st', r = .raised .uncoded st'

theorem follows_nil {cap : Nat} {st : Stream} (h : Ready cap st) : Follows cap st (.done st) (some []) :=
  ⟨st, rfl, writesBits_nil h⟩

theorem follows_writeBits {cap : Nat} {st : Stream} (h : Ready cap st) (code n : Nat) :
    Follows cap st (writeBits cap code n st) (some (bitString code n)) :=
  writeBits_writes code n h

/-- One run after another. -/
theorem follows_andThen {cap : Nat} {st : Stream} {r : Run Stream} {k : Stream → Run Stream} {o p : Option (List Bool)}
    (h : Follows cap st r o) (hk : ∀ st', Ready cap st' → Follows cap st' (k st') p) :
    Follows cap st (r.andThen k) (o.bind fun a => p.map (a ++ ·)) := by
  cases o with
  | none =>
    obtain ⟨st1, h1⟩ := h
    exact ⟨st1, by rw [h1]; rfl⟩
  | some a =>
    obtain ⟨st1, h1, w1⟩ := h
    have h2 := hk st1 w1.ready
    cases p with
    | none =>
      obtain ⟨st2, h2⟩ := h2
      exact ⟨st2, by rw [h1]; exact h2⟩
    | some b =>
      obtain ⟨st2, h2, w2⟩ := h2
      exact ⟨st2, by rw [h1]; exact h2, writesBits_trans w1 w2⟩

/-- A symbol, or UNCODED. -/
theorem follows_emitSym {cap : Nat} {st : Stream} (h : Ready cap st) (t : Vector HuffEntry 256) (sym : Nat) :
    Follows cap st (emitSym cap t sym st) (symbolBits t sym) := by
  simp only [emitSym, symbolBits]
  split
  · exact ⟨st, rfl⟩
  · exact follows_writeBits h _ _

/-! ## Amplitudes -/

theorem bitlen_eq_size (n : Nat) : bitlen n = n.size := by
  by_cases h : n = 0
  · simp [bitlen, h]
  · apply le_antisymm
    · simp only [bitlen, h, if_false, Nat.succ_le_iff, Nat.lt_size]
      exact Nat.log2_self_le h
    · simp only [bitlen, h, if_false, Nat.size_le]
      exact Nat.lt_log2_self

theorem magBits_size (v : Int) : (magBits v).1 = valueSize v := bitlen_eq_size _

/-- The amplitude bits, however they are formed. -/
theorem magBits_amplitude (v : Int) : bitString (magBits v).2 (magBits v).1 = amplitudeBits v := by
  have hs := bitlen_eq_size v.natAbs
  simp only [magBits, amplitudeBits, valueSize, hs]
  congr 1
  split
  · rfl
  · have := Nat.lt_size_self v.natAbs
    have hp : ((2 ^ v.natAbs.size : Nat) : Int) = 2 ^ v.natAbs.size := by push_cast; rfl
    rw [← hp]
    omega

/-! ## The terms -/

theorem follows_encodeDc {cap : Nat} {st : Stream} (h : Ready cap st) (t : Vector HuffEntry 256) (diff : Int) :
    Follows cap st (encodeDc cap t diff st) (dcBits t diff) := by
  have hd : dcBits t diff = (symbolBits t (magBits diff).1).bind fun a => (some (amplitudeBits diff)).map (a ++ ·) := by
    rw [magBits_size]; simp [dcBits, Option.map_eq_bind]
  rw [hd]
  refine follows_andThen (follows_emitSym h t _) fun st' h' => ?_
  rw [← magBits_amplitude]
  by_cases hp : 0 < (magBits diff).1
  · rw [if_pos hp]; exact follows_writeBits h' _ _
  · rw [if_neg hp, Nat.eq_zero_of_not_pos hp]; exact follows_nil h'

theorem follows_emitZrl {cap : Nat} (t : Vector HuffEntry 256) (n : Nat) {st : Stream} (h : Ready cap st) :
    Follows cap st (emitZrl cap t n st) (zrlBits t n) := by
  induction n generalizing st with
  | zero => exact follows_nil h
  | succ k ih => exact follows_andThen (follows_emitSym h t _) fun st' h' => ih h'

theorem follows_encodeTerm {cap : Nat} {st : Stream} (h : Ready cap st) (t : Vector HuffEntry 256) (run : Nat) (v : Int) :
    Follows cap st (encodeTerm cap t run v st) (termBits t run v) := by
  have hd : termBits t run v = (zrlBits t (run / 16)).bind fun z =>
      (if 15 < (magBits v).1 then none
        else (symbolBits t (run % 16 * 16 + (magBits v).1)).bind fun a => (some (amplitudeBits v)).map (a ++ ·)).map
        (z ++ ·) := by
    rw [magBits_size]
    unfold termBits
    split
    · cases zrlBits t (run / 16) <;> rfl
    · cases zrlBits t (run / 16) <;> simp
      cases symbolBits t (run % 16 * 16 + valueSize v) <;> simp
  rw [hd]
  refine follows_andThen (follows_emitZrl t _ h) fun st' h' => ?_
  simp only []
  split
  · exact ⟨st', rfl⟩
  · refine follows_andThen (follows_emitSym h' t _) fun st'' h'' => ?_
    rw [← magBits_amplitude]
    exact follows_writeBits h'' _ _

/-- The end of block is written: there are zeros behind the last non-zero term. -/
def endsShort (run : Nat) (l : List Int) : Prop := if acEnd l = 0 then l.length + run ≠ 0 else acEnd l < l.length

theorem follows_terms {cap : Nat} (t : Vector HuffEntry 256) (l : List Int) (run : Nat) {st : Stream} (h : Ready cap st)
    (k : Stream → Run Stream)
    (hk : ∀ st', Ready cap st' →
      (endsShort run l → k st' = emitSym cap t 0x00 st') ∧ (¬ endsShort run l → k st' = .done st')) :
    Follows cap st ((encodeTerms cap t run (l.take (acEnd l)) st).andThen k) (acBits t run l) := by
  induction l generalizing run st with
  | nil =>
    obtain ⟨h1, h2⟩ := hk st h
    simp only [List.take_nil, encodeTerms, Run.andThen_done, acBits]
    split
    · next hz => rw [h2 (by simp [endsShort, acEnd, hz])]; exact follows_nil h
    · next hz => rw [h1 (by simp [endsShort, acEnd, hz])]; exact follows_emitSym h t _
  | cons v rest ih =>
    by_cases hv : v = 0
    · subst hv
      have ha : acEnd (0 :: rest) = if acEnd rest = 0 then 0 else acEnd rest + 1 := by simp [acEnd]
      have he : endsShort (run + 1) rest ↔ endsShort run (0 :: rest) := by
        unfold endsShort
        rw [ha]
        by_cases hz : acEnd rest = 0 <;> simp [hz]
      have ht : encodeTerms cap t run ((0 :: rest).take (acEnd (0 :: rest))) st =
          encodeTerms cap t (run + 1) (rest.take (acEnd rest)) st := by
        rw [ha]
        by_cases hz : acEnd rest = 0 <;> simp [hz, encodeTerms]
      rw [ht]
      simp only [acBits, if_true]
      exact ih (run + 1) h fun st' h' => by rw [he]; exact hk st' h'
    · have ha : acEnd (v :: rest) = acEnd rest + 1 := by
        by_cases hz : acEnd rest = 0 <;> simp [acEnd, hv, hz]
      have he : endsShort 0 rest ↔ endsShort run (v :: rest) := by
        unfold endsShort
        rw [ha]
        by_cases hz : acEnd rest = 0
        · simp [hz, List.length_pos_iff]
        · simp [hz]
      rw [ha]
      simp only [List.take_succ_cons, encodeTerms, hv, if_false, acBits]
      have hassoc : ((encodeTerm cap t run v st).andThen (encodeTerms cap t 0 (rest.take (acEnd rest)))).andThen k =
          (encodeTerm cap t run v st).andThen
            fun st' => (encodeTerms cap t 0 (rest.take (acEnd rest)) st').andThen k := by
        cases encodeTerm cap t run v st <;> rfl
      rw [hassoc]
      refine follows_andThen (follows_encodeTerm h t run v) fun st' h' => ?_
      exact ih 0 h' fun st'' h'' => by rw [he]; exact hk st'' h''

/-- A data unit: its bit string is written, or UNCODED is raised if some symbol of it has no code. -/
theorem follows_encodeUnit {cap : Nat} {st : Stream} (h : Ready cap st) (dcTable acTable : Vector HuffEntry 256)
    (pred : Word16) (zzb : Vector Word16 64) :
    Follows cap st (encodeUnit cap dcTable acTable pred zzb st) (unitBits dcTable acTable pred zzb) := by
  refine follows_andThen (follows_encodeDc h dcTable _) fun st' h' => ?_
  have hl : (acTerms zzb).length = 63 := by
    rw [acTerms, List.length_map, List.length_tail, Vector.length_toList]
  refine follows_terms acTable (acTerms zzb) 0 h' _ fun st'' _ => ?_
  have he : endsShort 0 (acTerms zzb) ↔ acEnd (acTerms zzb) < 63 := by
    unfold endsShort
    rw [hl]
    by_cases hz : acEnd (acTerms zzb) = 0 <;> simp [hz]
  rw [he]
  exact ⟨fun hc => by simp [hc], fun hc => by simp [hc]⟩

end Sys2Proof.Machine
end

