-- ==== Sys2Proof/Laws/PerInstr.lean ====
section
/-! SUPPORT. Per-instruction family TableRow: the word that `encode` writes for a well-formed command lies in a row of the
opcode table that carries the command's mnemonic (30_encoding.md R62). -/

namespace Sys2Proof.Laws.TableRow

open Sys2Proof.Reference

/-- The word of a well-formed command belongs to a row of its mnemonic. -/
def Statement (i : Instr) : Prop :=
  i.wellFormed = true → ∃ r ∈ opcodeRows, r.mnemonic = mnemonic i ∧ r.holds (encode i)

/-- A row of the table, by its place, that holds the word. -/
theorem of_row {i : Instr} (n : Nat) (hn : n < opcodeRows.length) (hm : (opcodeRows[n]).mnemonic = mnemonic i)
    (h : encode i &&& (opcodeRows[n]).mask = (opcodeRows[n]).pattern) :
    ∃ r ∈ opcodeRows, r.mnemonic = mnemonic i ∧ r.holds (encode i) :=
  ⟨opcodeRows[n], List.getElem_mem hn, hm, h⟩

/-- Bits 6 and up of an index into a 64-entry window. -/
theorem index_bit {idx : BitVec 8} (h : idx.toNat < 64) : idx.getLsbD 6 = false ∧ idx.getLsbD 7 = false :=
  ⟨Nat.testBit_lt_two_pow (by omega), Nat.testBit_lt_two_pow (by omega)⟩

theorem nop : Statement .nop := fun _ => of_row 0 (by decide) rfl rfl
theorem reset : Statement .reset := fun _ => of_row 1 (by decide) rfl rfl
theorem bldqt : Statement .bldqt := fun _ => of_row 8 (by decide) rfl rfl
theorem bldht : Statement .bldht := fun _ => of_row 9 (by decide) rfl rfl
theorem align : Statement .align := fun _ => of_row 14 (by decide) rfl rfl
theorem sync : Statement .sync := fun _ => of_row 15 (by decide) rfl rfl
theorem soi : Statement .soi := fun _ => of_row 16 (by decide) rfl rfl
theorem app0 : Statement .app0 := fun _ => of_row 17 (by decide) rfl rfl
theorem dqt : Statement .dqt := fun _ => of_row 18 (by decide) rfl rfl
theorem sof0 : Statement .sof0 := fun _ => of_row 19 (by decide) rfl rfl
theorem dht : Statement .dht := fun _ => of_row 20 (by decide) rfl rfl
theorem sos : Statement .sos := fun _ => of_row 21 (by decide) rfl rfl
theorem eoi : Statement .eoi := fun _ => of_row 22 (by decide) rfl rfl
theorem encmcu : Statement .encmcu := fun _ => of_row 23 (by decide) rfl rfl

theorem wrreg (addr : BitVec 8) (data : Word16) : Statement (.wrreg addr data) := fun _ => by
  refine of_row 2 (by decide) rfl ?_
  show (0x02 : BitVec 8) ++ addr ++ data &&& (0xFF000000 : BitVec 32) = 0x02000000
  apply BitVec.eq_of_getLsbD_eq
  intro i hi
  rw [BitVec.getLsbD_and, BitVec.getLsbD_append, BitVec.getLsbD_append]
  interval_cases i <;> simp

theorem rdreg (addr : BitVec 8) : Statement (.rdreg addr) := fun _ => by
  refine of_row 3 (by decide) rfl ?_
  show (0x03 : BitVec 8) ++ addr ++ (0 : BitVec 16) &&& (0xFF00FFFF : BitVec 32) = 0x03000000
  apply BitVec.eq_of_getLsbD_eq
  intro i hi
  rw [BitVec.getLsbD_and, BitVec.getLsbD_append, BitVec.getLsbD_append]
  interval_cases i <;> simp

theorem wbyte (byte : Byte) : Statement (.wbyte byte) := fun _ => by
  refine of_row 12 (by decide) rfl ?_
  show (0x21 : BitVec 8) ++ (0 : BitVec 16) ++ byte &&& (0xFFFFFF00 : BitVec 32) = 0x21000000
  apply BitVec.eq_of_getLsbD_eq
  intro i hi
  rw [BitVec.getLsbD_and, BitVec.getLsbD_append, BitVec.getLsbD_append]
  interval_cases i <;> simp

theorem wword (word : Word16) : Statement (.wword word) := fun _ => by
  refine of_row 13 (by decide) rfl ?_
  show (0x22 : BitVec 8) ++ (0 : BitVec 8) ++ word &&& (0xFFFF0000 : BitVec 32) = 0x22000000
  apply BitVec.eq_of_getLsbD_eq
  intro i hi
  rw [BitVec.getLsbD_and, BitVec.getLsbD_append, BitVec.getLsbD_append]
  interval_cases i <;> simp

theorem wbits (len : BitVec 5) (code : Word16) : Statement (.wbits len code) := fun h => by
  have hl : len.toNat ≤ 16 := by simpa [Instr.wellFormed] using h
  by_cases h16 : len = 16
  · subst h16
    refine of_row 11 (by decide) rfl ?_
    show (0x20 : BitVec 8) ++ (0 : BitVec 3) ++ (16 : BitVec 5) ++ code &&& (0xFFFF0000 : BitVec 32) = 0x20100000
    apply BitVec.eq_of_getLsbD_eq
    intro i hi
    rw [BitVec.getLsbD_and, BitVec.getLsbD_append, BitVec.getLsbD_append, BitVec.getLsbD_append]
    interval_cases i <;> simp
  · have hb : len.getLsbD 4 = false :=
      Nat.testBit_lt_two_pow (by have := (BitVec.toNat_ne_iff_ne (y := (16 : BitVec 5))).mpr h16; simp at this; omega)
    refine of_row 10 (by decide) rfl ?_
    show (0x20 : BitVec 8) ++ (0 : BitVec 3) ++ len ++ code &&& (0xFFF00000 : BitVec 32) = 0x20000000
    apply BitVec.eq_of_getLsbD_eq
    intro i hi
    rw [BitVec.getLsbD_and, BitVec.getLsbD_append, BitVec.getLsbD_append, BitVec.getLsbD_append]
    interval_cases i <;> simp_all

theorem rdtbl (sel : Window) (idx : BitVec 8) : Statement (.rdtbl sel idx) := fun h => by
  have hw : idx.toNat < sel.entries := by simpa [Instr.wellFormed] using h
  cases sel
  case qtY =>
    obtain ⟨h6, h7⟩ := index_bit hw
    refine of_row 4 (by decide) rfl ?_
    show (0x04 : BitVec 8) ++ (0 : BitVec 12) ++ (0 : BitVec 4) ++ idx &&& (0xFFFFFEC0 : BitVec 32) = 0x04000000
    apply BitVec.eq_of_getLsbD_eq
    intro i hi
    rw [BitVec.getLsbD_and, BitVec.getLsbD_append, BitVec.getLsbD_append, BitVec.getLsbD_append]
    interval_cases i <;> simp_all
  case qtC =>
    obtain ⟨h6, h7⟩ := index_bit hw
    refine of_row 4 (by decide) rfl ?_
    show (0x04 : BitVec 8) ++ (0 : BitVec 12) ++ (1 : BitVec 4) ++ idx &&& (0xFFFFFEC0 : BitVec 32) = 0x04000000
    apply BitVec.eq_of_getLsbD_eq
    intro i hi
    rw [BitVec.getLsbD_and, BitVec.getLsbD_append, BitVec.getLsbD_append, BitVec.getLsbD_append]
    interval_cases i <;> simp_all
  case htDcY =>
    refine of_row 5 (by decide) rfl ?_
    show (0x04 : BitVec 8) ++ (0 : BitVec 12) ++ (2 : BitVec 4) ++ idx &&& (0xFFFFFE00 : BitVec 32) = 0x04000200
    apply BitVec.eq_of_getLsbD_eq
    intro i hi
    rw [BitVec.getLsbD_and, BitVec.getLsbD_append, BitVec.getLsbD_append, BitVec.getLsbD_append]
    interval_cases i <;> simp
  case htAcY =>
    refine of_row 5 (by decide) rfl ?_
    show (0x04 : BitVec 8) ++ (0 : BitVec 12) ++ (3 : BitVec 4) ++ idx &&& (0xFFFFFE00 : BitVec 32) = 0x04000200
    apply BitVec.eq_of_getLsbD_eq
    intro i hi
    rw [BitVec.getLsbD_and, BitVec.getLsbD_append, BitVec.getLsbD_append, BitVec.getLsbD_append]
    interval_cases i <;> simp
  case htDcC =>
    refine of_row 6 (by decide) rfl ?_
    show (0x04 : BitVec 8) ++ (0 : BitVec 12) ++ (4 : BitVec 4) ++ idx &&& (0xFFFFFE00 : BitVec 32) = 0x04000400
    apply BitVec.eq_of_getLsbD_eq
    intro i hi
    rw [BitVec.getLsbD_and, BitVec.getLsbD_append, BitVec.getLsbD_append, BitVec.getLsbD_append]
    interval_cases i <;> simp
  case htAcC =>
    refine of_row 6 (by decide) rfl ?_
    show (0x04 : BitVec 8) ++ (0 : BitVec 12) ++ (5 : BitVec 4) ++ idx &&& (0xFFFFFE00 : BitVec 32) = 0x04000400
    apply BitVec.eq_of_getLsbD_eq
    intro i hi
    rw [BitVec.getLsbD_and, BitVec.getLsbD_append, BitVec.getLsbD_append, BitVec.getLsbD_append]
    interval_cases i <;> simp
  case coef =>
    obtain ⟨h6, h7⟩ := index_bit hw
    refine of_row 7 (by decide) rfl ?_
    show (0x04 : BitVec 8) ++ (0 : BitVec 12) ++ (6 : BitVec 4) ++ idx &&& (0xFFFFFEC0 : BitVec 32) = 0x04000600
    apply BitVec.eq_of_getLsbD_eq
    intro i hi
    rw [BitVec.getLsbD_and, BitVec.getLsbD_append, BitVec.getLsbD_append, BitVec.getLsbD_append]
    interval_cases i <;> simp_all
  case zzb =>
    obtain ⟨h6, h7⟩ := index_bit hw
    refine of_row 7 (by decide) rfl ?_
    show (0x04 : BitVec 8) ++ (0 : BitVec 12) ++ (7 : BitVec 4) ++ idx &&& (0xFFFFFEC0 : BitVec 32) = 0x04000600
    apply BitVec.eq_of_getLsbD_eq
    intro i hi
    rw [BitVec.getLsbD_and, BitVec.getLsbD_append, BitVec.getLsbD_append, BitVec.getLsbD_append]
    interval_cases i <;> simp_all

theorem encdu (ch : Channel) : Statement (.encdu ch) := fun _ => by
  cases ch
  case y => exact of_row 24 (by decide) rfl rfl
  case cb => exact of_row 24 (by decide) rfl rfl
  case cr => exact of_row 25 (by decide) rfl rfl

theorem enccoef (ch : Channel) : Statement (.enccoef ch) := fun _ => by
  cases ch
  case y => exact of_row 26 (by decide) rfl rfl
  case cb => exact of_row 26 (by decide) rfl rfl
  case cr => exact of_row 27 (by decide) rfl rfl

end Sys2Proof.Laws.TableRow
end

