-- ==== Sys2Proof/Laws/Tables.lean ====
section
/-! SUPPORT. Reading a vector that is given by a function. -/

namespace Sys2Proof.Machine

@[simp] theorem vec_getElem {α : Type} {n : Nat} (f : Fin n → α) (i : Nat) (h : i < n) : (vec f)[i] = f ⟨i, h⟩ := by
  simp only [vec, Vector.getElem_mk, List.getElem_toArray, List.getElem_ofFn]

@[simp] theorem vec_getElem_fin {α : Type} {n : Nat} (f : Fin n → α) (i : Fin n) : (vec f)[i] = f i :=
  vec_getElem f i.val i.isLt

end Sys2Proof.Machine
end

