-- ==== Sys2Proof/Tests/Slice0.lean ====
section
/-! SUPPORT. Tests: the WellFormed smoke tests, decode words written out from the formats of the spec, single steps whose expected
results are the spec's own (the rule or vector is named), and a witness for the hypotheses of each statement. -/

namespace Sys2Proof.Tests

open Sys2Proof.Machine Sys2Proof.Safety Sys2Proof.Reference

/-! ## WellFormed and reserved words (30_encoding.md R64) -/

theorem test_wellFormed_wbits_17 : (Instr.wbits 17 0).wellFormed = false := by decide
theorem test_wellFormed_rdtbl_64 : (Instr.rdtbl .qtY 64).wellFormed = false := by decide
theorem test_reserved_length : decode 0x20110000 = .error .bitLength := by decide
theorem test_reserved_index : decode 0x04000640 = .error .windowIndex := by decide
theorem test_reserved_selector : decode 0x04000800 = .error .windowSelector := by decide
theorem test_reserved_channel : decode 0x41000003 = .error .channelThree := by decide
theorem test_reserved_zero_field : decode 0x30000001 = .error .zeroField := by decide
theorem test_reserved_rdreg_data : decode 0x03550001 = .error .rdregData := by decide
theorem test_reserved_opcode : decode 0x25000000 = .error .opcode := by decide

/-! ## Words written out field by field from the formats of 30_encoding.md R61 and R62 -/

theorem test_decode_reset : decode (0b00000001#8 ++ 0#24) = .ok .reset := by decide
theorem test_decode_wrreg : decode (0b00000010#8 ++ 0b00000010#8 ++ 0b0000000000001010#16) = .ok (.wrreg 0x02 10) := by
  decide
theorem test_decode_rdreg : decode (0b00000011#8 ++ 0b00000101#8 ++ 0#16) = .ok (.rdreg 0x05) := by decide
theorem test_decode_rdtbl : decode (0b00000100#8 ++ 0#12 ++ 0b0111#4 ++ 0b00111111#8) = .ok (.rdtbl .zzb 63) := by decide
theorem test_decode_bldqt : decode (0b00010000#8 ++ 0#24) = .ok .bldqt := by decide
theorem test_decode_wbits : decode (0b00100000#8 ++ 0#3 ++ 0b10000#5 ++ 0b1111111111111110#16) = .ok (.wbits 16 0xFFFE) := by
  decide
theorem test_decode_wword : decode (0b00100010#8 ++ 0#8 ++ 0b1111111111011000#16) = .ok (.wword 0xFFD8) := by decide
theorem test_decode_eoi : decode (0b00110110#8 ++ 0#24) = .ok .eoi := by decide
theorem test_decode_encmcu : decode (0b01000000#8 ++ 0#24) = .ok .encmcu := by decide
theorem test_decode_encdu : decode (0b01000001#8 ++ 0#22 ++ 0b10#2) = .ok (.encdu .cr) := by decide
theorem test_decode_enccoef : decode (0b01000010#8 ++ 0#22 ++ 0b01#2) = .ok (.enccoef .cb) := by decide

/-- 30_encoding.md R65: the words of SETDIM 8, 16; SETSCALE 100; HEADERS. -/
theorem test_assemble : assemble [.setdim 8 16, .setscale 100, .headers] =
    [0x02010008, 0x02020010, 0x02030064, 0x10000000, 0x30000000, 0x31000000, 0x32000000, 0x33000000, 0x34000000,
      0x35000000] := by decide

/-! ## Helpers -/

/-- The outcome is a next state that passes the test. -/
def after (o : Host.Outcome State Fault Refusal) (p : State → Bool) : Bool :=
  match o with
  | .next t => p t
  | .fault _ => false
  | .refused _ => false

theorem after_exists {o : Host.Outcome State Fault Refusal} {p : State → Bool} (h : after o p = true) :
    ∃ t, o = .next t ∧ p t = true := by
  cases o with
  | next t => exact ⟨t, rfl, h⟩
  | fault _ => cases h
  | refused _ => cases h

/-- The state after reset, in another phase. -/
def inPhase (p : Phase) : State := { State.reset with phase := p }

/-- In SCAN, with every symbol coded by the four bits 0101 and the integer instance of the transform. -/
def scanState : State :=
  { inPhase .scan with
    qt := Vector.replicate 2 (Vector.replicate 64 1)
    ht := Vector.replicate 4 (Vector.replicate 256 ⟨4, 5⟩)
    build := { defaultBuild with fdctq := .tab } }

/-- In SCAN, with the default Huffman tables. -/
def codedState : State := { inPhase .scan with ht := buildAllHuff defaultBuild.hspec }

/-- The core as it is in the state, with a payload of n bytes b. -/
def withBytes (n : Nat) (b : Byte) (s : State) : State := { s with payloads := [.bytes (List.replicate n b)] }

/-- Pending bits and the sink buffer of a state. -/
def pending (t : State) : List Byte × Byte × Nat := (t.stream.sb, t.stream.acc, t.stream.nbits.toNat)

/-- The data of the last response. -/
def lastData (t : State) : Nat := (t.rsp.getLast?.getD ⟨15, 0⟩).data.toNat

/-- The status of the last response. -/
def lastStatus (t : State) : Nat := (t.rsp.getLast?.getD ⟨15, 0⟩).status.toNat

/-! ## Single steps -/

/-- 60_exceptions.md R174: NOP answers (0, 0) in the FAULT phase. -/
theorem test_nop_in_fault : after (exec .nop { inPhase .fault with fault := some .seq }) (lastStatus · == 0) = true := by
  decide

/-- 70_reset_and_hazards.md R185: SCALE is 50 and OUT stays. -/
theorem test_reset : after (exec .reset { inPhase .fault with stream := { State.reset.stream with out := [0xAB] } })
    (fun t => t.scale == 50 && t.phase == .idle && t.stream.out == [0xAB]) = true := by decide

/-- 10_state.md R20: a write to SCALE clears QT_VALID, also with the old value. -/
theorem test_wrreg_scale : after (exec (.wrreg 0x03 50) { State.reset with qtValid := true })
    (fun t => t.scale == 50 && t.qtValid == false && lastStatus t == 0) = true := by decide

/-- 60_exceptions.md R171, R172: WRREG to BLKCNT in SCAN is ADDR, not SEQ. -/
theorem test_wrreg_addr : after (exec (.wrreg 0x04 8) (inPhase .scan))
    (fun t => lastStatus t == 9 && t.fphase == .scan) = true := by decide

/-- 10_state.md R22: MCUTOT of 10 by 10 is 4. -/
theorem test_rdreg_mcutot : after (exec (.rdreg 0x05) { State.reset with width := 10, height := 10 }) (lastData · == 4) = true := by
  decide

/-- 10_state.md R24: a predictor of -128 reads 0xFFFFFF80. -/
theorem test_rdreg_dcp : after (exec (.rdreg 0x08) { State.reset with dcp := #v[-128, 0, 0] })
    (lastData · == 0xFFFFFF80) = true := by decide

/-- 40_system_commands.md R85: RDTBL HT_ACY, 0xF0 reads 0x000B07F9 with the default tables. -/
theorem test_rdtbl_zrl : after (exec (.rdtbl .htAcY 0xF0) { codedState with htValid := true })
    (lastData · == 0x000B07F9) = true := by decide +kernel

/-- 41_table_builder.md R93: base 11 at scale 50 is the tie 5.5 and gives 6. -/
theorem test_bldqt_tie : after (exec .bldqt State.reset) (fun t => (t.qt[0])[1].toNat == 6 && t.qtValid) = true := by
  decide +kernel

/-- 40_system_commands.md R85: after BLDHT, HT_DCY entry 8 is 0x0006003E. -/
theorem test_bldht : after (exec .bldht State.reset) (fun t => (huffWord (t.ht[0])[8]).toNat == 0x0006003E) = true := by
  decide +kernel

/-- 44_bit_writer.md R135: WBITS 13, 0x1ABC appends D5 and leaves NBITS = 5, ACC = 0xE0. -/
theorem test_wbits : after (exec (.wbits 13 0x1ABC) (inPhase .scan)) (pending · == ([0xD5], 0xE0, 5)) = true := by decide

/-- 44_bit_writer.md R135: WBITS 16, 0xFFFF appends FF 00 FF 00. -/
theorem test_wbits_stuffs : after (exec (.wbits 16 0xFFFF) (inPhase .scan))
    (pending · == ([0xFF, 0x00, 0xFF, 0x00], 0, 0)) = true := by decide

/-- 44_bit_writer.md R133: a header byte FF is not stuffed. -/
theorem test_wbyte : after (exec (.wbyte 0xFF) (inPhase .aligned)) (pending · == ([0xFF], 0, 0)) = true := by decide

/-- 44_bit_writer.md R137: WWORD 0xFFD8 appends FF D8. -/
theorem test_wword : after (exec (.wword 0xFFD8) (inPhase .sSoi)) (pending · == ([0xFF, 0xD8], 0, 0)) = true := by decide

/-- 44_bit_writer.md R138: pending 101 is padded to BF. -/
theorem test_align : after (exec .align { inPhase .scan with stream := { State.reset.stream with acc := 0xA0, nbits := 3 } })
    (fun t => pending t == ([0xBF], 0, 0) && t.phase == .aligned) = true := by decide

/-- 60_exceptions.md R173: a delivery that fails inside ALIGN leaves FPHASE = SCAN, the phase before the command. -/
theorem test_align_sink_fault : after
    (exec .align { inPhase .scan with
      stream := { State.reset.stream with acc := 0xFE, nbits := 7, answers := [.fail] }
      build := { defaultBuild with sinkCap := 1 } })
    (fun t => t.phase == .fault && t.fault == some .sinkWrite && t.fphase == .scan) = true := by decide +kernel

/-- 44_bit_writer.md R139: SYNC delivers the buffer; pending bits stay. -/
theorem test_sync : after (exec .sync { inPhase .scan with stream := { State.reset.stream with sb := [1, 2], acc := 0x80, nbits := 1 } })
    (fun t => t.stream.out == [1, 2] && pending t == ([], 0x80, 1)) = true := by decide

/-- 45_marker_framer.md R146: FF D8, predictors cleared. -/
theorem test_soi : after
    (exec .soi { State.reset with qtValid := true, htValid := true, width := 8, height := 8, dcp := #v[5, 6, 7] })
    (fun t => pending t == ([0xFF, 0xD8], 0, 0) && t.dcp == #v[0, 0, 0] && t.phase == .sSoi) = true := by decide

/-- 60_exceptions.md R172: SOI with invalid tables and WIDTH = 0 is TBL_INVALID. -/
theorem test_soi_priority : after (exec .soi State.reset) (lastStatus · == 4) = true := by decide

/-- 45_marker_framer.md R147: the printed bytes. -/
theorem test_app0 : after (exec .app0 (inPhase .sSoi)) (fun t => t.stream.sb ==
    [0xFF, 0xE0, 0x00, 0x10, 0x4A, 0x46, 0x49, 0x46, 0x00, 0x01, 0x01, 0x00, 0x00, 0x01, 0x00, 0x01, 0x00, 0x00]) = true := by
  decide

/-- 45_marker_framer.md R148: 134 bytes; at scale 50 the luma record begins 08 06 06 07 06 05. -/
theorem test_dqt : after
    (exec .dqt { inPhase .sApp0 with qt := buildBothQt defaultBuild 50 })
    (fun t => t.stream.sb.take 11 == [0xFF, 0xDB, 0x00, 0x84, 0x00, 0x08, 0x06, 0x06, 0x07, 0x06, 0x05] &&
      t.stream.sb.length == 134) = true := by decide +kernel

/-- 45_marker_framer.md R149: the printed bytes for 8 by 8. -/
theorem test_sof0 : after (exec .sof0 { inPhase .sDqt with width := 8, height := 8 }) (fun t => t.stream.sb ==
    [0xFF, 0xC0, 0x00, 0x11, 0x08, 0x00, 0x08, 0x00, 0x08, 0x03, 0x01, 0x11, 0x00, 0x02, 0x11, 0x01, 0x03, 0x11, 0x01]) =
    true := by decide

/-- 45_marker_framer.md R150: the segment is 420 bytes and begins FF C4 01 A2 00. -/
theorem test_dht : (dhtBytes defaultBuild.hspec).length = 420 ∧
    (dhtBytes defaultBuild.hspec).take 5 = [0xFF, 0xC4, 0x01, 0xA2, 0x00] := by decide +kernel

/-- 45_marker_framer.md R151: the printed bytes. -/
theorem test_sos : after (exec .sos (inPhase .sDht)) (fun t => t.stream.sb ==
    [0xFF, 0xDA, 0x00, 0x0C, 0x03, 0x01, 0x00, 0x02, 0x11, 0x03, 0x11, 0x00, 0x3F, 0x00]) = true := by decide

/-- 45_marker_framer.md R152: all of it is delivered. -/
theorem test_eoi : after (exec .eoi { inPhase .aligned with stream := { State.reset.stream with sb := [7] } })
    (fun t => t.stream.out == [7, 0xFF, 0xD9] && t.stream.sb == [] && t.phase == .done) = true := by decide

/-- 43_entropy_coder.md section 4: the Cb unit of all zeros is 00 00. -/
theorem test_enccoef_zero : after (exec (.enccoef .cb) (withBytes 128 0 { codedState with nextch := .cb }))
    (fun t => pending t == ([], 0x00, 4) && t.nextch == .cr && t.duValid) = true := by decide +kernel

/-- 43_entropy_coder.md section 4: Y with DCP 0 and DC 5 is 100 101 1010. -/
theorem test_enccoef_dc : after
    (exec (.enccoef .y) { codedState with payloads := [.bytes (0x00 :: 0x05 :: List.replicate 126 0)] })
    (fun t => pending t == ([0x96], 0x80, 2) && t.dcp[0] == 5) = true := by decide +kernel

/-- 42_transform.md section 5: all 1 under a step of 16 is the tie 0.5 and gives 1; all -3 is -1.5 and gives -1. -/
theorem test_encdu_ties :
    fdctqIdeal (Vector.replicate 64 1) (Vector.replicate 64 16) 0 = 1 ∧
    fdctqIdeal (Vector.replicate 64 (-3)) (Vector.replicate 64 16) 0 = -1 := by decide +kernel

/-- 95_test_vectors.md section 2.7: the horizontal ramp s = 16x - 56 over 11 at natural index 1 is -49 (-48.5910). -/
theorem test_encdu_ramp :
    fdctqIdeal (vec fun i => BitVec.ofNat 8 (16 * (i.val % 8) + 200)) (Vector.replicate 64 6) 1 = -49 := by decide +kernel

/-- 42_transform.md R101: blue saturates Cb at 127; R100: the negative tie of B = 0, G = R = 1 rounds up to 0. -/
theorem test_encmcu_colour : cscIdeal .cb 255 0 0 = 127 ∧ cscIdeal .cb 0 1 1 = 0 ∧ cscIdeal .cb 0 255 255 = -127 := by decide

/-- 60_exceptions.md R162, R172: ENCMCU in the middle of an MCU is SEQ, and the payload is not pulled. -/
theorem test_encmcu_sequence : after (exec .encmcu (withBytes 192 128 { scanState with nextch := .cb }))
    (fun t => lastStatus t == 2 && t.payloads.length == 1) = true := by decide

/-! ## Witnesses: concrete states and operands that meet the hypotheses of each statement, clause by clause -/

/-- A host that accepts everything. -/
theorem accepting : AllOk State.reset.stream := ⟨by decide, rfl⟩

/-- The output path after reset, with the default sink buffer. -/
theorem ready : Ready defaultBuild.sinkCap.toNat State.reset.stream := ⟨accepting, by decide, by unfold Tidy; decide⟩

theorem buildOk : BuildOk defaultBuild :=
  ⟨by decide, by decide +kernel, by decide, by decide +kernel⟩

/-- In SCAN with some bits pending: ACC = E0, NBITS = 3. -/
def pendingState : State := { inPhase .scan with stream := { State.reset.stream with acc := 0xE0, nbits := 3 } }

theorem ready_pending : Ready pendingState.build.sinkCap.toNat pendingState.stream :=
  ⟨⟨by decide, rfl⟩, by decide, by unfold Tidy; decide⟩

/-- In SCAN, with no symbol coded. -/
def uncodedState : State := { scanState with ht := Vector.replicate 4 (Vector.replicate 256 ⟨0, 0⟩) }

/-- The host's next act. -/
def acting (e : HostEvent) (s : State) : State := { s with inputs := [e] }

theorem witness_DecodeEncode : (Instr.wbits 16 0xFFFF).wellFormed = true ∧ (Instr.rdtbl .qtY 63).wellFormed = true ∧
    (Instr.rdtbl .htAcC 255).wellFormed = true ∧ (Instr.wrreg 255 0xFFFF).wellFormed = true := by decide

theorem witness_EncodeDecode : decode 0x2010FFFF = .ok (.wbits 16 0xFFFF) ∧ decode 0x0400063F = .ok (.rdtbl .coef 63) := by
  decide

theorem witness_LegalWordsAreTableRows : decode 0x040005FF = .ok (.rdtbl .htAcC 255) ∧
    ∃ r ∈ opcodeRows, r.holds 0x040005FF := by decide +kernel

theorem witness_StepRunsDecodedCommand : (acting (.cmd 0x36000000) State.reset).inputs = [.cmd 0x36000000] ∧
    decode 0x36000000 = .ok .eoi := by decide

theorem witness_ReservedWordIsIllegal : (acting (.cmd 0x20110000) State.reset).inputs = [.cmd 0x20110000] ∧
    State.reset.phase ≠ .fault ∧ (∀ r ∈ opcodeRows, ¬ r.holds 0x20110000) := by decide +kernel

theorem witness_HostActsBetweenCommands : State.reset.inputs = [] ∧ (acting .rst State.reset).inputs = [.rst] ∧
    (acting .takeOut State.reset).inputs = [.takeOut] := by decide

theorem witness_WrregRule_addr : (inPhase .scan).phase ≠ .fault ∧ (0x00 : BitVec 8) ≠ 0x01 ∧ (0x04 : BitVec 8) ≠ 0x03 ∧
    (0xFF : BitVec 8) ≠ 0x02 := by decide
theorem witness_WrregRule_seq : (inPhase .sSoi).phase ≠ .fault ∧ (inPhase .sSoi).phase ≠ .idle ∧
    (inPhase .sSoi).phase ≠ .done ∧ (inPhase .aligned).phase ≠ .fault ∧ (inPhase .aligned).phase ≠ .done := by decide
theorem witness_WrregRule_write : State.reset.phase = .idle ∧ (inPhase .done).phase = .done := by decide

theorem witness_RdregRule : (1 : Word16) ≠ 0 ∧ (inPhase .done).phase ≠ .fault ∧ 0x0A < (0x0B : BitVec 8).toNat ∧
    0x0A < (0xFF : BitVec 8).toNat ∧ (inPhase .fault).phase = .fault ∧ (0x01 : BitVec 8) ≠ 0x00 := by decide

theorem witness_RdtblRule : ({ inPhase .scan with qtValid := true, htValid := true, duValid := true }).phase ≠ .fault ∧
    ({ inPhase .scan with qtValid := true, htValid := true, duValid := true }).qtValid = true ∧
    ({ inPhase .scan with qtValid := true, htValid := true, duValid := true }).htValid = true ∧
    ({ inPhase .scan with qtValid := true, htValid := true, duValid := true }).duValid = true := by decide
theorem witness_RdtblRule_invalid : State.reset.qtValid = false ∧ State.reset.htValid = false ∧ State.reset.duValid = false ∧
    (63 : BitVec 8).toNat < Window.qtC.entries ∧ (255 : BitVec 8).toNat < Window.htDcY.entries ∧
    (63 : BitVec 8).toNat < Window.zzb.entries := by decide

theorem witness_BldqtBuilds : BuildOk defaultBuild ∧ State.reset.build = defaultBuild ∧ State.reset.phase = .idle :=
  ⟨buildOk, rfl, rfl⟩

theorem witness_BldhtBuilds : State.reset.phase = .idle ∧ ∀ t : Fin 4, malformed State.reset.build.hspec[t] = false := by
  decide +kernel
/-- Three codes of length 1 are more than one bit can tell apart. -/
theorem witness_BldhtBuilds_malformed :
    malformed { counts := #v[3, 0, 0, 0, 0, 0, 0, 0, 0, 0, 0, 0, 0, 0, 0, 0], symbols := [0, 1, 2] } = true := by decide +kernel

theorem witness_BuiltCodesArePrefixCode : malformed defaultBuild.hspec[1] = false ∧ (0xF0 : Byte) ∈ (defaultBuild.hspec[1]).symbols ∧
    (0xFB : Byte) ∉ (defaultBuild.hspec[1]).symbols ∧ 161 < (defaultBuild.hspec[1]).symbols.length := by decide +kernel

theorem witness_DefaultSpecsBuild : (buildHuff defaultBuild.hspec[0])[(11 : Fin 256)].len ≠ 0 := by decide +kernel

theorem witness_WbitsCompletes : pendingState.phase = .scan ∧ (16 : BitVec 5).toNat ≤ 16 ∧
    Ready pendingState.build.sinkCap.toNat pendingState.stream := ⟨rfl, by decide, ready_pending⟩

theorem witness_WbyteWwordComplete : (inPhase .sSoi).phase = .sSoi ∧ (inPhase .aligned).phase = .aligned ∧
    AllOk (inPhase .aligned).stream ∧ (inPhase .aligned).stream.sb.length < (inPhase .aligned).build.sinkCap.toNat :=
  ⟨rfl, rfl, accepting, by decide⟩

theorem witness_AlignCompletes : pendingState.phase = .scan ∧ pendingState.nextch = .y ∧
    Ready pendingState.build.sinkCap.toNat pendingState.stream := ⟨rfl, rfl, ready_pending⟩

theorem witness_SyncCompletes : (inPhase .scan).stream.sb = [] ∧ (inPhase .scan).phase ≠ .fault ∧
    ({ State.reset.stream with sb := [0xFF] }).sb ≠ [] ∧ ({ State.reset.stream with sb := [0xFF] }).nextAnswer = .ok := by
  decide

/-- With a sink buffer of one byte. -/
def smallSink (s : State) : State := { s with build := { s.build with sinkCap := 1 } }

/-- A host that refuses the next delivery. -/
def refused (l : List Byte) (s : State) : State := { s with stream := { s.stream with sb := l, answers := [.fail] } }

theorem witness_SinkBufferDeliversWhenFull_general :
    (smallSink (inPhase .sApp0)).stream.sb.length < (smallSink (inPhase .sApp0)).build.sinkCap.toNat ∧
    (∃ t, exec (.wword 0xFFD8) (smallSink (inPhase .sApp0)) = .next t ∧ (t.stream.chunks == [[0xFF], [0xD8]]) = true) ∧
    ∃ t, exec (.wword 0xFFD8) (smallSink (refused [] (inPhase .sApp0))) = .next t ∧ (t.stream.chunks == [[0xFF]]) = true :=
  ⟨by decide, after_exists (by decide), after_exists (by decide)⟩
theorem witness_SinkBufferDeliversWhenFull_sync : (refused [1] (inPhase .scan)).phase ≠ .fault ∧
    (refused [1] (inPhase .scan)).stream.sb ≠ [] ∧ answerAt (refused [1] (inPhase .scan)).stream 0 = .fail := by decide
theorem witness_SinkBufferDeliversWhenFull_eoi : (refused [] (inPhase .aligned)).phase = .aligned ∧
    answerAt (refused [] (inPhase .aligned)).stream 0 = .fail := by decide
theorem witness_SinkBufferDeliversWhenFull_wbyte : (inPhase .sApp0).phase = .sApp0 ∧
    (inPhase .sApp0).stream.sb.length + 1 ≠ (inPhase .sApp0).build.sinkCap.toNat ∧
    (smallSink (inPhase .sApp0)).stream.sb.length + 1 = (smallSink (inPhase .sApp0)).build.sinkCap.toNat ∧
    answerAt (smallSink (inPhase .sApp0)).stream 0 = .ok ∧
    answerAt (smallSink (refused [] (inPhase .sApp0))).stream 0 = .fail := by decide

theorem witness_ScanDataHasNoMarker : AllOk pendingState.stream ∧
    (∃ t, exec (.wbits 16 0xFFFF) pendingState = .next t ∧ (t.phase == .scan) = true) ∧
    ∃ t, exec .align pendingState = .next t ∧ (t.phase == .aligned) = true :=
  ⟨⟨by decide, rfl⟩, after_exists (by decide), after_exists (by decide)⟩

/-- Ready for SOI. -/
def startState : State := { inPhase .done with qtValid := true, htValid := true, width := 65535, height := 1 }

theorem witness_SoiStartsStream : startState.phase = .done ∧ startState.qtValid = true ∧ startState.htValid = true ∧
    startState.width ≠ 0 ∧ startState.height ≠ 0 ∧ AllOk startState.stream ∧
    startState.stream.sb.length < startState.build.sinkCap.toNat :=
  ⟨rfl, rfl, rfl, by decide, by decide, accepting, by decide⟩
theorem witness_SoiStartsStream_faults : State.reset.phase = .idle ∧ State.reset.qtValid = false ∧
    ({ startState with width := 0 }).qtValid = true ∧ ({ startState with width := 0 }).htValid = true ∧
    ({ startState with width := 0 }).width = 0 := by decide

theorem witness_Segments (p : Phase) : (inPhase p).phase = p ∧ AllOk (inPhase p).stream ∧ BuildOk (inPhase p).build ∧
    (inPhase p).stream.sb.length < (inPhase p).build.sinkCap.toNat :=
  ⟨rfl, accepting, buildOk, by show 0 < defaultBuild.sinkCap.toNat; decide⟩
theorem witness_App0AndSosSegments : (inPhase .sSoi).phase = .sSoi ∧ (inPhase .sDht).phase = .sDht ∧
    AllOk (inPhase .sDht).stream := ⟨rfl, rfl, accepting⟩
theorem witness_DqtSegment : (inPhase .sApp0).phase = .sApp0 ∧ BuildOk (inPhase .sApp0).build :=
  ⟨rfl, (witness_Segments .sApp0).2.2.1⟩
theorem witness_Sof0Segment : (inPhase .sDqt).phase = .sDqt ∧ AllOk (inPhase .sDqt).stream := ⟨rfl, accepting⟩
theorem witness_DhtSegment : (inPhase .sSof0).phase = .sSof0 ∧ AllOk (inPhase .sSof0).stream := ⟨rfl, accepting⟩
theorem witness_EoiDeliversStream : (inPhase .aligned).phase = .aligned ∧ AllOk (inPhase .aligned).stream := ⟨rfl, accepting⟩

theorem witness_HeaderIs607Bytes : startState.phase = .done ∧ startState.qtValid = true ∧ startState.htValid = true ∧
    startState.width ≠ 0 ∧ startState.height ≠ 0 ∧ startState.build.hspec = defaultBuild.hspec ∧ AllOk startState.stream ∧
    startState.stream.sb.length < startState.build.sinkCap.toNat :=
  ⟨rfl, rfl, rfl, by decide, by decide, rfl, accepting, by decide⟩

theorem witness_ZigzagReorder : BuildOk defaultBuild := buildOk
theorem witness_AmplitudeCoding : (-2047 : Int) ≠ 0 ∧ (0 : Int) < 2047 ∧ (-1 : Int) < 0 := by decide

theorem ready_scan (n : Nat) (b : Byte) :
    Ready (withBytes n b scanState).build.sinkCap.toNat (withBytes n b scanState).stream := ready

theorem witness_EnccoefCompletes : (withBytes 128 0 scanState).phase = .scan ∧ (withBytes 128 0 scanState).nextch = .y ∧
    Ready (withBytes 128 0 scanState).build.sinkCap.toNat (withBytes 128 0 scanState).stream ∧
    (withBytes 128 0 scanState).payloads = [.bytes (List.replicate 128 0)] ∧ (List.replicate 128 (0 : Byte)).length = 128 ∧
    Reference.channelBits .y (coefsOfBytes (List.replicate 128 0)) (withBytes 128 0 scanState) =
      some [false, true, false, true, false, true, false, true] :=
  ⟨rfl, rfl, ready_scan 128 0, rfl, List.length_replicate .., by decide +kernel⟩

/-- The same scan with another history: other COEF, predictors of the other channels, QT, counters and buffer size. -/
def otherHistory : State :=
  { scanState with
    coef := Vector.replicate 64 9
    dcp := #v[0, 7, 8]
    blkcnt := 5
    build := { defaultBuild with sinkCap := 1 } }

theorem witness_UnitsDoNotLeak : (withBytes 128 0 otherHistory).phase = .scan ∧ (withBytes 128 0 otherHistory).nextch = .y ∧
    Ready (withBytes 128 0 otherHistory).build.sinkCap.toNat (withBytes 128 0 otherHistory).stream ∧
    (withBytes 128 0 scanState).build.zz = (withBytes 128 0 otherHistory).build.zz ∧
    (withBytes 128 0 scanState).ht = (withBytes 128 0 otherHistory).ht ∧
    (withBytes 128 0 scanState).dcp[chanIdx .y] = (withBytes 128 0 otherHistory).dcp[chanIdx .y] ∧
    ∃ t, exec (.enccoef .y) (withBytes 128 0 scanState) = .next t ∧ (t.phase == .scan) = true :=
  ⟨rfl, rfl, ⟨accepting, by decide, by unfold Tidy; decide⟩, rfl, rfl, by decide +kernel, after_exists (by decide +kernel)⟩

/-- Steps of 1, the table of `scanState`. -/
def ones : Vector Byte 64 := Vector.replicate 64 1

/-- The all-zero data unit. -/
def zeros : Vector Word16 64 := Vector.replicate 64 0

/-- A zero block stays zero. -/
theorem tab_zero : fdctq .tab (Vector.replicate 64 0) ones = zeros := by
  have hs : ∀ f g, separableSum (Vector.replicate 64 0) f g = 0 := by
    intro f g
    simp only [separableSum, Fin.getElem_fin, Vector.getElem_replicate]
    simp
  apply Vector.ext
  intro i hi
  have h1 : (ones[i]).toNat = 1 := by simp [ones]
  have : fdctqAt .tab (Vector.replicate 64 0) ones ⟨i, hi⟩ = 0 := by
    simp only [fdctqAt, fdctqTab, hs, Fin.getElem_fin, h1]
    split <;> norm_num
  rw [fdctq, vec_getElem, this]; simp [zeros]

/-- The zero samples of any channel and their payload. -/
theorem grey_samples : ∀ c : Channel, samplesOfPixels .ideal c (List.replicate 192 128) = Vector.replicate 64 0 := by
  intro c; cases c <;> decide +kernel

theorem zero_samples : samplesOfBytes (List.replicate 64 0) = Vector.replicate 64 0 := by decide +kernel

/-- The state after ENCDU c on zero samples. -/
def zeroUnit (c : Channel) (s : State) : State :=
  finish 0 (dataUnit c zeros { s with payloads := s.payloads.tail })

theorem encdu_zeros {c : Channel} {s : State} {rest : List PayloadAnswer} (hp : s.phase = .scan) (hc : c = s.nextch)
    (hl : s.payloads = .bytes (List.replicate 64 0) :: rest) (hf : s.build.fdctq = .tab) (hq : s.qt[qsel c] = ones) :
    exec (.encdu c) s = .next (zeroUnit c s) := by
  have hk : check (.encdu c) s = none := by
    rw [check_eq_none]; exact ⟨rfl, rfl, by simp [legal, hp, hc], rfl⟩
  show execute (.encdu c) _ _ _ = _
  rw [execute_passed (by rw [hp]; decide) hk, withPayload_bytes hl List.length_replicate]
  have hz : (⟨(List.replicate 64 (0 : Byte)).toArray, by simp⟩ : Vector Byte 64) = Vector.replicate 64 0 := rfl
  simp only [sampleUnit, zeroUnit, hl, List.tail_cons]
  rw [hz, hf, hq, tab_zero]
  rfl
theorem scan_steps (c : Channel) : scanState.qt[qsel c] = ones := by cases c <;> rfl

theorem witness_EncduCompletes : (withBytes 64 0 scanState).phase = .scan ∧ (withBytes 64 0 scanState).nextch = .y ∧
    Ready (withBytes 64 0 scanState).build.sinkCap.toNat (withBytes 64 0 scanState).stream ∧
    (List.replicate 64 (0 : Byte)).length = 64 ∧
    (Reference.channelBits .y (fdctq (withBytes 64 0 scanState).build.fdctq (samplesOfBytes (List.replicate 64 0))
      (withBytes 64 0 scanState).qt[qsel .y]) (withBytes 64 0 scanState)).isSome = true := by
  refine ⟨rfl, rfl, ready_scan 64 0, List.length_replicate .., ?_⟩
  show (Reference.channelBits .y (fdctq .tab (samplesOfBytes (List.replicate 64 0)) scanState.qt[qsel .y]) _).isSome = true
  rw [zero_samples, scan_steps, tab_zero]
  decide +kernel

theorem witness_DataCommandsUncoded (n : Nat) (b : Byte) : (withBytes n b uncodedState).phase = .scan ∧
    (withBytes n b uncodedState).nextch = .y ∧
    Ready (withBytes n b uncodedState).build.sinkCap.toNat (withBytes n b uncodedState).stream ∧
    (withBytes n b uncodedState).payloads = [.bytes (List.replicate n b)] ∧ (List.replicate n b).length = n :=
  ⟨rfl, rfl, ready, rfl, List.length_replicate ..⟩
theorem witness_DataCommandsUncoded_enccoef :
    Reference.channelBits .y (coefsOfBytes (List.replicate 128 0)) (withBytes 128 0 uncodedState) = none := by decide +kernel
theorem witness_DataCommandsUncoded_encdu :
    Reference.channelBits .y (fdctq (withBytes 64 0 uncodedState).build.fdctq (samplesOfBytes (List.replicate 64 0))
      (withBytes 64 0 uncodedState).qt[qsel .y]) (withBytes 64 0 uncodedState) = none := by
  show Reference.channelBits .y (fdctq .tab (samplesOfBytes (List.replicate 64 0)) scanState.qt[qsel .y]) _ = none
  rw [zero_samples, scan_steps, tab_zero]
  decide +kernel
/-- No code in the chroma tables alone: the Cr unit has no bit string. -/
def chromaUncoded : State :=
  { scanState with
    ht := #v[Vector.replicate 256 ⟨4, 5⟩, Vector.replicate 256 ⟨4, 5⟩, Vector.replicate 256 ⟨0, 0⟩, Vector.replicate 256 ⟨0, 0⟩] }
theorem witness_DataCommandsUncoded_encmcu :
    Reference.channelBits .cr (fdctq (withBytes 192 128 chromaUncoded).build.fdctq
      (samplesOfPixels (withBytes 192 128 chromaUncoded).build.csc .cr (List.replicate 192 128))
      (withBytes 192 128 chromaUncoded).qt[qsel .cr]) (withBytes 192 128 chromaUncoded) = none := by
  show Reference.channelBits .cr (fdctq .tab (samplesOfPixels .ideal .cr (List.replicate 192 128)) scanState.qt[qsel .cr])
    _ = none
  rw [grey_samples, scan_steps, tab_zero]
  decide +kernel

theorem witness_EncmcuCompletes (c : Channel) : (withBytes 192 128 scanState).phase = .scan ∧
    (withBytes 192 128 scanState).nextch = .y ∧
    Ready (withBytes 192 128 scanState).build.sinkCap.toNat (withBytes 192 128 scanState).stream ∧
    (List.replicate 192 (128 : Byte)).length = 192 ∧
    (Reference.channelBits c (fdctq (withBytes 192 128 scanState).build.fdctq
        (samplesOfPixels (withBytes 192 128 scanState).build.csc c (List.replicate 192 128))
        (withBytes 192 128 scanState).qt[qsel c]) (withBytes 192 128 scanState)).isSome = true := by
  refine ⟨rfl, rfl, ready_scan 192 128, List.length_replicate .., ?_⟩
  show (Reference.channelBits c (fdctq .tab (samplesOfPixels .ideal c (List.replicate 192 128)) scanState.qt[qsel c])
    _).isSome = true
  rw [grey_samples, scan_steps, tab_zero]
  cases c <;> decide +kernel

theorem witness_EncduIsEnccoefOfTransform : scanState.phase = .scan ∧ scanState.nextch = .y ∧
    (List.replicate 64 (0 : Byte)).length = 64 := ⟨rfl, rfl, List.length_replicate ..⟩

/-- In SCAN, with the samples of a grey pixel block for ENCDU Y, Cb, Cr. -/
def greyState : State :=
  { scanState with payloads :=
      [.bytes (samplesOfPixels .ideal .y (List.replicate 192 128)).toList,
        .bytes (samplesOfPixels .ideal .cb (List.replicate 192 128)).toList,
        .bytes (samplesOfPixels .ideal .cr (List.replicate 192 128)).toList] }

theorem grey_payloads : greyState.payloads = List.replicate 3 (.bytes (List.replicate 64 0)) := by
  simp only [greyState, grey_samples, Vector.toList_replicate]
  rfl

theorem witness_EncmcuIsThreeEncdu : greyState.phase = .scan ∧ greyState.nextch = .y ∧ ∃ t0 t1 t2 : State,
    exec (.encdu .y) greyState = .next t0 ∧ t0.phase = .scan ∧ exec (.encdu .cb) t0 = .next t1 ∧ t1.phase = .scan ∧
    exec (.encdu .cr) t1 = .next t2 ∧ t2.phase = .scan := by
  have hg : greyState = { scanState with payloads := List.replicate 3 (.bytes (List.replicate 64 0)) } := by
    rw [← grey_payloads]; rfl
  rw [hg]
  refine ⟨rfl, rfl, _, _, _, encdu_zeros rfl rfl rfl rfl (scan_steps .y), by decide +kernel,
    encdu_zeros (rest := [.bytes (List.replicate 64 0)]) (by decide +kernel) (by decide +kernel) (by decide +kernel)
      (by decide +kernel) (by decide +kernel), by decide +kernel,
    encdu_zeros (rest := []) (by decide +kernel) (by decide +kernel) (by decide +kernel) (by decide +kernel)
      (by decide +kernel), by decide +kernel⟩

theorem witness_FdctqIdealIsRoundedDct : ∀ i : Fin 64, 1 ≤ ((Vector.replicate 64 (1 : Byte))[i]).toNat := by decide +kernel
theorem witness_FdctqTol1 : ∀ i : Fin 64, 1 ≤ ((Vector.replicate 64 (255 : Byte))[i]).toNat := by decide +kernel
theorem witness_FdctqConst : FdctqInstance.tab = .tab ∧ ∀ i : Fin 64, 1 ≤ ((Vector.replicate 64 (16 : Byte))[i]).toNat := by
  decide +kernel

/-- The default tables, steps of 1 and the lowest predictor. -/
def transformState : State :=
  { codedState with qt := Vector.replicate 2 (Vector.replicate 64 1), dcp := #v[-1025, 1017, 0] }

theorem witness_TransformedUnitsAreCoded : transformState.ht = buildAllHuff defaultBuild.hspec ∧ BuildOk transformState.build ∧
    (∀ i : Fin 64, 1 ≤ ((transformState.qt[qsel .y])[i]).toNat) ∧ -1025 ≤ (transformState.dcp[chanIdx .y]).toInt ∧
    (transformState.dcp[chanIdx .cb]).toInt ≤ 1017 :=
  ⟨rfl, buildOk, by decide +kernel, by decide, by decide⟩

theorem witness_TransformedUnitsAreCoded_scan : CodedScan transformState ∧
    (∃ t, exec (.wbits 3 5) transformState = .next t ∧ (t.phase == .scan) = true) ∧
    ∃ t, exec .encmcu transformState = .next t ∧ (t.fault == some .srcRead) = true :=
  ⟨⟨rfl, buildOk, rfl, by decide +kernel, by decide +kernel⟩, after_exists (by decide), after_exists (by decide)⟩

theorem witness_FaultEntry : State.reset.phase ≠ .fault ∧
    ∃ t, exec .eoi State.reset = .next t ∧ (t.phase == .fault) = true := ⟨by decide, after_exists (by decide)⟩

/-- In the FAULT phase, with a word issued. -/
def faulted (w : Word32) : State := { inPhase .fault with fault := some .uncoded, inputs := [.cmd w] }

theorem witness_FaultPhaseRule (w : Word32) : (faulted w).phase = .fault ∧ (faulted w).inputs = [.cmd w] := ⟨rfl, rfl⟩
theorem witness_FaultPhaseRule_refused : (0x03010000 : Word32) ≠ 0x00000000 ∧ (0x03010000 : Word32) ≠ 0x01000000 ∧
    (0x03010000 : Word32) ≠ 0x03000000 := by decide

theorem witness_OnlyResetLeavesFault : (∃ t, step (faulted 0x01000000) = .next t ∧ (t.phase == .idle) = true) ∧
    ∃ t, step (faulted 0x30000000) = .next t ∧ (t.phase == .fault) = true :=
  ⟨after_exists (by decide), after_exists (by decide)⟩

theorem witness_SequenceRule : (Instr.encdu .cb).wellFormed = true ∧ addressOk (.encdu .cb) = true ∧
    ¬ IsLegal (.encdu .cb) scanState.phase scanState.nextch ∧ IsLegal (.encdu .y) scanState.phase scanState.nextch := by decide

theorem witness_SourceFailureRule : IsLegal .encmcu scanState.phase scanState.nextch ∧
    IsLegal (.enccoef .y) scanState.phase scanState.nextch ∧
    ({ scanState with payloads := [.sourceFailure] }).payloads = [.sourceFailure] := by decide

theorem witness_FaultsOfEachCommand : (Instr.soi).wellFormed = true ∧
    ∃ t, exec .soi State.reset = .next t ∧ FaultTaken .tblInvalid State.reset t :=
  ⟨rfl, _, rfl, ⟨rfl, rfl, rfl, rfl⟩⟩

/-- In SCAN, with a host that cannot supply the payload. -/
def failedSource : State := { inPhase .scan with payloads := [.sourceFailure] }

theorem witness_PreciseFaults : (∃ t, exec .eoi State.reset = .next t ∧ FaultTaken .seq State.reset t) ∧
    (∃ t, exec .encmcu failedSource = .next t ∧ FaultTaken .srcRead failedSource t) ∧
    ∃ t, exec (.wbits 17 0) State.reset = .next t ∧ FaultTaken .illegal State.reset t :=
  ⟨⟨_, rfl, ⟨rfl, rfl, rfl, rfl⟩⟩, ⟨_, rfl, ⟨rfl, rfl, rfl, rfl⟩⟩, _, rfl, ⟨rfl, rfl, rfl, rfl⟩⟩

theorem witness_OneResponsePerCommand : after (exec .eoi State.reset) (lastStatus · == 2) = true ∧
    after (exec .sync State.reset) (lastStatus · == 0) = true := by decide

/-- A buffered byte and a host that refuses it. -/
def refusing : State := { inPhase .scan with stream := { State.reset.stream with sb := [1], answers := [.fail] } }

theorem witness_OutOnlyGrows : refusing.phase ≠ .fault ∧
    (∃ t, exec .sync refusing = .next t ∧ FaultTaken .sinkWrite refusing t) ∧
    ∃ t, exec .sync State.reset = .next t ∧ (t.phase == .idle) = true :=
  ⟨by decide, ⟨_, rfl, ⟨rfl, rfl, rfl, rfl⟩⟩, after_exists (by decide)⟩

theorem witness_PhaseGraph : (inPhase .aligned).phase ≠ .fault ∧
    ∃ t, exec .eoi (inPhase .aligned) = .next t ∧ (t.phase == .done) = true := ⟨by decide, after_exists (by decide)⟩

theorem witness_TablesFrozenInStream : inStream (inPhase .sDht).phase ∧
    ∃ t, exec .sos (inPhase .sDht) = .next t ∧ (t.phase == .scan) = true :=
  ⟨by unfold inStream; decide, after_exists (by decide)⟩

/-- In SCAN with valid tables and bits pending. -/
def soundState : State :=
  { pendingState with
    qtValid := true, htValid := true, width := 8, height := 8, qt := buildBothQt defaultBuild 50
    ht := buildAllHuff defaultBuild.hspec }

theorem witness_StepKeepsInvariant :
    Inv (acting (.cmd 0x24000000) soundState) ∧
    ∃ t, step (acting (.cmd 0x24000000) soundState) = .next t ∧ (t.phase == .scan) = true := by
  refine ⟨?_, after_exists (by decide)⟩
  constructor
  · exact buildOk
  · decide
  · decide
  · decide
  · decide
  · intro _; unfold Tidy; decide
  · intro _ h; exact absurd rfl h
  · intro _ _; rfl
  · intro _; decide
  · intro _ _; rfl
  · intro _ _; exact ⟨by decide +kernel, rfl⟩
  · intro _ h; cases h
  · decide

/-- The invariant itself is witnessed by `witness_StepKeepsInvariant`, of the same state. -/
theorem witness_TransformedUnitsAreCoded_step :
    (acting (.cmd 0x24000000) soundState).build.hspec = defaultBuild.hspec ∧
    inStream (acting (.cmd 0x24000000) soundState).phase ∧
    (∀ c : Fin 3, -1025 ≤ ((acting (.cmd 0x24000000) soundState).dcp[c]).toInt ∧
      ((acting (.cmd 0x24000000) soundState).dcp[c]).toInt ≤ 1017) ∧
    decode 0x24000000 = .ok .sync :=
  ⟨rfl, by unfold inStream; decide, by decide +kernel, by decide⟩

end Sys2Proof.Tests
end

section
/-! The system commands NOP, WRREG and RDREG (40_system_commands.md R81, R83, R84): the rules of Execute their proofs cite,
the register file's equations, and the obligations on the three commands. -/

namespace Sys2Proof.Machine

open Sys2Proof.Safety

/-! ## The fields of a word `op ++ addr ++ data` (30_encoding.md R61, format R) -/

theorem opField_append (op addr : BitVec 8) (data : Word16) : opField (op ++ addr ++ data) = op :=
  (BitVec.extractLsb'_append_eq_of_le (by decide : 16 ≤ 24)).trans BitVec.extractLsb'_append_eq_left

theorem extractLsb'_append_addr (op addr : BitVec 8) (data : Word16) :
    (op ++ addr ++ data).extractLsb' 16 8 = addr :=
  (BitVec.extractLsb'_append_eq_of_le (Nat.le_refl 16)).trans BitVec.extractLsb'_append_eq_right

theorem extractLsb'_append_data (op addr : BitVec 8) (data : Word16) :
    (op ++ addr ++ data).extractLsb' 0 16 = data :=
  BitVec.extractLsb'_append_eq_right

/-- Both fields of a WRREG word are free. -/
theorem decode_wrreg (addr : BitVec 8) (data : Word16) :
    decode ((0x02 : BitVec 8) ++ addr ++ data) = .ok (.wrreg addr data) := by
  simp only [decode, opField_append, extractLsb'_append_addr, extractLsb'_append_data]
  rfl

/-- The data field of an RDREG word must be 0. -/
theorem decode_rdreg_of_data_ne_zero (addr : BitVec 8) {data : Word16} (hd : data ≠ 0) :
    decode ((0x03 : BitVec 8) ++ addr ++ data) = .error .rdregData := by
  simp only [decode, opField_append]
  show decodeRdreg _ = _
  rw [decodeRdreg, extractLsb'_append_data, if_neg hd]

/-! ## The checks of Execute (40_system_commands.md R80, steps 2 to 5) -/

theorem check_eq_addr {i : Instr} {s : State} (hw : i.wellFormed = true) (ha : addressOk i = false) :
    check i s = some .addr := by
  simp [check, hw, ha]

theorem check_eq_seq {i : Instr} {s : State} (hw : i.wellFormed = true) (ha : addressOk i = true)
    (hl : legal i s.phase s.nextch = false) : check i s = some .seq := by
  simp [check, hw, ha, hl]

theorem addressOk_wrreg {addr : BitVec 8} {data : Word16} :
    addressOk (.wrreg addr data) = true ↔ addr = 0x01 ∨ addr = 0x02 ∨ addr = 0x03 := by
  simp only [addressOk, registerDefined, registerWritable, Bool.and_eq_true, decide_eq_true_eq, and_iff_right_iff_imp]
  rintro (rfl | rfl | rfl) <;> decide

theorem addressOk_rdreg {addr : BitVec 8} : addressOk (.rdreg addr) = true ↔ addr.toNat ≤ 0x0A := by
  simp [addressOk, registerDefined]

theorem legal_wrreg {addr : BitVec 8} {data : Word16} {p : Phase} {next : Channel} :
    legal (.wrreg addr data) p next = true ↔ p = .idle ∨ p = .done := by
  simp [legal]

theorem legal_rdreg {addr : BitVec 8} {p : Phase} {next : Channel} :
    legal (.rdreg addr) p next = true ↔ p ≠ .fault := by
  simp [legal]

/-! ## The two ways Execute ends outside the FAULT phase -/

theorem faultTaken_takeFault (c : FaultCause) (s : State) : FaultTaken c s (takeFault c s) := ⟨rfl, rfl, rfl, rfl⟩

theorem precise_takeFault (c : FaultCause) (s : State) : Precise s (takeFault c s) := ⟨rfl, rfl, rfl, rfl⟩

/-- A fault that a check raises is precise (60_exceptions.md R173). -/
theorem execute_takes_precise_fault {i : Instr} {body : State → Run State} {data : State → Word32} {s : State}
    {c : FaultCause} (hf : s.phase ≠ .fault) (hc : check i s = some c) :
    ∃ t, execute i body data s = .next t ∧ FaultTaken c s t ∧ Precise s t :=
  ⟨takeFault c s, execute_checked hf hc, faultTaken_takeFault c s, precise_takeFault c s⟩

/-- The checks passed and the body ran to its end: one response of status 0. -/
theorem execute_answers {i : Instr} {body : State → Run State} {data : State → Word32} {s t : State}
    (hf : s.phase ≠ .fault) (hc : check i s = none) (hb : body s = .done t) :
    execute i body data s = .next (answered (data s) t) := by
  rw [execute_passed hf hc, hb]
  rfl

/-! ## The FAULT-phase gate (60_exceptions.md R174) -/

theorem faultGate_nop (s : State) : faultGate .nop s = answered 0 s := rfl

theorem faultGate_rdreg_status {s : State} (hf : s.phase = .fault) :
    faultGate (.rdreg 0x00) s = answered (statusWord s) s := by
  rw [statusWord, if_pos hf]
  rfl

theorem faultGate_rdreg_of_ne_status {addr : BitVec 8} (ha : addr ≠ 0x00) (s : State) :
    faultGate (.rdreg addr) s = refuseInFault s := by
  have hne : Instr.rdreg addr ≠ .rdreg 0x00 := fun h => ha (Instr.rdreg.inj h)
  rw [faultGate, if_neg Instr.noConfusion, if_neg Instr.noConfusion, if_neg hne]

/-! ## NOP -/

theorem exec_nop_eq (s : State) : exec .nop s = execute .nop .done noData s := rfl

theorem exec_nop (s : State) : exec .nop s = .next (answered 0 s) := by
  rw [exec_nop_eq]
  by_cases hf : s.phase = .fault
  · rw [execute_fault hf, faultGate_nop]
  · have hc : check .nop s = none := check_eq_none.mpr ⟨rfl, rfl, by simp [legal, hf], rfl⟩
    exact execute_answers hf hc rfl

/-! ## WRREG -/

theorem exec_wrreg_eq (addr : BitVec 8) (data : Word16) (s : State) :
    exec (.wrreg addr data) s = execute (.wrreg addr data) (fun s => .done (writeRegister addr data s)) noData s := rfl

theorem writeRegister_width (data : Word16) (s : State) : writeRegister 0x01 data s = { s with width := data } := rfl

theorem writeRegister_height (data : Word16) (s : State) : writeRegister 0x02 data s = { s with height := data } := rfl

theorem writeRegister_scale (data : Word16) (s : State) :
    writeRegister 0x03 data s = { s with scale := data, qtValid := false } := rfl

/-- The address check comes before the sequence check: the phase does not matter. -/
theorem exec_wrreg_addr_fault {addr : BitVec 8} (data : Word16) {s : State} (hf : s.phase ≠ .fault)
    (ha : ¬ (addr = 0x01 ∨ addr = 0x02 ∨ addr = 0x03)) :
    ∃ t, exec (.wrreg addr data) s = .next t ∧ FaultTaken .addr s t ∧ Precise s t := by
  have hbad : addressOk (.wrreg addr data) = false := Bool.eq_false_iff.mpr fun h => ha (addressOk_wrreg.mp h)
  rw [exec_wrreg_eq]
  exact execute_takes_precise_fault hf (check_eq_addr rfl hbad)

theorem exec_wrreg_seq_fault {addr : BitVec 8} (data : Word16) {s : State} (hf : s.phase ≠ .fault)
    (hp : ¬ (s.phase = .idle ∨ s.phase = .done)) (ha : addr = 0x01 ∨ addr = 0x02 ∨ addr = 0x03) :
    ∃ t, exec (.wrreg addr data) s = .next t ∧ FaultTaken .seq s t ∧ Precise s t := by
  have hillegal : legal (.wrreg addr data) s.phase s.nextch = false :=
    Bool.eq_false_iff.mpr fun h => hp (legal_wrreg.mp h)
  rw [exec_wrreg_eq]
  exact execute_takes_precise_fault hf (check_eq_seq rfl (addressOk_wrreg.mpr ha) hillegal)

theorem exec_wrreg_writes {addr : BitVec 8} (data : Word16) {s : State} (hp : s.phase = .idle ∨ s.phase = .done)
    (ha : addr = 0x01 ∨ addr = 0x02 ∨ addr = 0x03) :
    exec (.wrreg addr data) s = .next (answered 0 (writeRegister addr data s)) := by
  have hf : s.phase ≠ .fault := by rcases hp with h | h <;> simp [h]
  have hc : check (.wrreg addr data) s = none :=
    check_eq_none.mpr ⟨rfl, addressOk_wrreg.mpr ha, legal_wrreg.mpr hp, rfl⟩
  rw [exec_wrreg_eq]
  exact execute_answers hf hc rfl

/-! ## RDREG -/

theorem exec_rdreg_eq (addr : BitVec 8) (s : State) :
    exec (.rdreg addr) s = execute (.rdreg addr) .done (readRegister addr) s := rfl

theorem readRegister_status (s : State) : readRegister 0x00 s = statusWord s := rfl

theorem readRegister_width (s : State) : readRegister 0x01 s = BitVec.ofNat 32 s.width.toNat :=
  (BitVec.ofNat_toNat 32 s.width).symm

theorem readRegister_height (s : State) : readRegister 0x02 s = BitVec.ofNat 32 s.height.toNat :=
  (BitVec.ofNat_toNat 32 s.height).symm

theorem readRegister_scale (s : State) : readRegister 0x03 s = BitVec.ofNat 32 s.scale.toNat :=
  (BitVec.ofNat_toNat 32 s.scale).symm

theorem readRegister_blkcnt (s : State) : readRegister 0x04 s = s.blkcnt := rfl

theorem readRegister_mcutot (s : State) :
    readRegister 0x05 s = BitVec.ofNat 32 ((s.width.toNat + 7) / 8 * ((s.height.toNat + 7) / 8)) := rfl

theorem readRegister_sbcur (s : State) : readRegister 0x06 s = BitVec.ofNat 32 s.stream.sb.length := rfl

theorem readRegister_sinkCap (s : State) : readRegister 0x07 s = s.build.sinkCap := rfl

theorem readRegister_dcpY (s : State) : readRegister 0x08 s = BitVec.ofInt 32 (s.dcp[0]).toInt := rfl

theorem readRegister_dcpCb (s : State) : readRegister 0x09 s = BitVec.ofInt 32 (s.dcp[1]).toInt := rfl

theorem readRegister_dcpCr (s : State) : readRegister 0x0A s = BitVec.ofInt 32 (s.dcp[2]).toInt := rfl

/-- At a defined address RDREG answers with the value of the register and leaves the state alone. -/
theorem exec_rdreg_answers {addr : BitVec 8} {value : Word32} {s : State} (hf : s.phase ≠ .fault)
    (ha : addr.toNat ≤ 0x0A) (hv : readRegister addr s = value) :
    exec (.rdreg addr) s = .next (answered value s) := by
  have hc : check (.rdreg addr) s = none :=
    check_eq_none.mpr ⟨rfl, addressOk_rdreg.mpr ha, legal_rdreg.mpr hf, rfl⟩
  rw [exec_rdreg_eq, ← hv]
  exact execute_answers hf hc rfl

theorem exec_rdreg_addr_fault {addr : BitVec 8} {s : State} (hf : s.phase ≠ .fault) (ha : 0x0A < addr.toNat) :
    ∃ t, exec (.rdreg addr) s = .next t ∧ FaultTaken .addr s t ∧ Precise s t := by
  have hbad : addressOk (.rdreg addr) = false :=
    Bool.eq_false_iff.mpr fun h => Nat.not_le.mpr ha (addressOk_rdreg.mp h)
  rw [exec_rdreg_eq]
  exact execute_takes_precise_fault hf (check_eq_addr rfl hbad)

theorem exec_rdreg_status_in_fault {s : State} (hf : s.phase = .fault) :
    exec (.rdreg 0x00) s = .next (answered (statusWord s) s) := by
  rw [exec_rdreg_eq, execute_fault hf, faultGate_rdreg_status hf]

theorem exec_rdreg_refused_in_fault {addr : BitVec 8} {s : State} (hf : s.phase = .fault) (ha : addr ≠ 0x00) :
    exec (.rdreg addr) s = .next (refuseInFault s) := by
  rw [exec_rdreg_eq, execute_fault hf, faultGate_rdreg_of_ne_status ha]

/-! ## The obligations -/

/-- Settles O8: in the FAULT phase the gate answers, elsewhere every check passes and the body does nothing. -/
theorem nopRule : Obligations.NopRule := by
  unfold Obligations.NopRule
  exact ⟨by decide, exec_nop⟩

/-- Settles O11: the word's fields decode as written, and the checks of Execute tell the other three clauses apart. -/
theorem wrregRule : Obligations.WrregRule := by
  unfold Obligations.WrregRule
  refine ⟨decode_wrreg, ?addr, ?seq, ?writes⟩
  case addr => exact fun a d s hf h1 h2 h3 => exec_wrreg_addr_fault d hf (not_or.mpr ⟨h1, not_or.mpr ⟨h2, h3⟩⟩)
  case seq => exact fun a d s hf hi hd ha => exec_wrreg_seq_fault d hf (not_or.mpr ⟨hi, hd⟩) ha
  case writes =>
    intro d s hp
    rw [← writeRegister_width, ← writeRegister_height, ← writeRegister_scale]
    exact ⟨exec_wrreg_writes d hp (.inl rfl), exec_wrreg_writes d hp (.inr (.inl rfl)),
      exec_wrreg_writes d hp (.inr (.inr rfl))⟩

/-- Settles O12: outside the FAULT phase the address check decides, inside it the gate does. -/
theorem rdregRule : Obligations.RdregRule := by
  unfold Obligations.RdregRule
  refine ⟨?reserved, ?answers, fun a s => exec_rdreg_addr_fault, fun s => exec_rdreg_status_in_fault,
    fun a s => exec_rdreg_refused_in_fault⟩
  case reserved =>
    intro a d hd i h
    rw [decode_rdreg_of_data_ne_zero a hd] at h
    cases h
  case answers =>
    intro s hf
    exact ⟨exec_rdreg_answers hf (by decide) (readRegister_status s),
      exec_rdreg_answers hf (by decide) (readRegister_width s),
      exec_rdreg_answers hf (by decide) (readRegister_height s),
      exec_rdreg_answers hf (by decide) (readRegister_scale s),
      exec_rdreg_answers hf (by decide) (readRegister_blkcnt s),
      exec_rdreg_answers hf (by decide) (readRegister_mcutot s),
      exec_rdreg_answers hf (by decide) (readRegister_sbcur s),
      exec_rdreg_answers hf (by decide) (readRegister_sinkCap s),
      exec_rdreg_answers hf (by decide) (readRegister_dcpY s),
      exec_rdreg_answers hf (by decide) (readRegister_dcpCb s),
      exec_rdreg_answers hf (by decide) (readRegister_dcpCr s)⟩

end Sys2Proof.Machine
end

section
/-! The exact arithmetic of FDCTQ_IDEAL (42_transform.md R104): what real number each integer structure of the transform
denotes, and that its sign and its rounding are those of that number. -/

namespace Sys2Proof.Machine

/-! ## The numbers 2*cos(k*pi/16) -/

/-- The number ck of `Cyc`, for every integer k. -/
noncomputable def cosAt (k : ℤ) : ℝ := 2 * Real.cos (k * Real.pi / 16)

theorem cosAt_mul (a b : ℤ) : cosAt a * cosAt b = cosAt (a + b) + cosAt (a - b) := by
  have sum : ((a + b : ℤ) : ℝ) * Real.pi / 16 = a * Real.pi / 16 + b * Real.pi / 16 := by push_cast; ring
  have diff : ((a - b : ℤ) : ℝ) * Real.pi / 16 = a * Real.pi / 16 - b * Real.pi / 16 := by push_cast; ring
  rw [cosAt, cosAt, cosAt, cosAt, sum, diff, Real.cos_add, Real.cos_sub]
  ring

theorem cosAt_neg (k : ℤ) : cosAt (-k) = cosAt k := by
  have : ((-k : ℤ) : ℝ) * Real.pi / 16 = -(k * Real.pi / 16) := by push_cast; ring
  rw [cosAt, this, Real.cos_neg, cosAt]

@[simp] theorem cosAt_zero : cosAt 0 = 2 := by simp [cosAt]

@[simp] theorem cosAt_eight : cosAt 8 = 0 := by
  have : ((8 : ℤ) : ℝ) * Real.pi / 16 = Real.pi / 2 := by push_cast; ring
  rw [cosAt, this, Real.cos_pi_div_two, mul_zero]

/-- The factor 2*C(0) of 42_transform.md R102. -/
theorem cosAt_four : cosAt 4 = 2 * (1 / √2) := by
  have : ((4 : ℤ) : ℝ) * Real.pi / 16 = Real.pi / 4 := by push_cast; ring
  rw [cosAt, this, Real.cos_pi_div_four, Real.sqrt_div_self']

/-- cos(pi - t) = -cos(t). -/
theorem cosAt_sixteen_sub (k : ℤ) : cosAt (16 - k) = -cosAt k := by
  have : ((16 - k : ℤ) : ℝ) * Real.pi / 16 = Real.pi - k * Real.pi / 16 := by push_cast; ring
  rw [cosAt, this, Real.cos_pi_sub, cosAt, mul_neg]

/-- The period 2*pi. -/
theorem cosAt_emod (k : ℤ) : cosAt (k % 32) = cosAt k := by
  have split : (k : ℝ) = 32 * (k / 32 : ℤ) + (k % 32 : ℤ) := by exact_mod_cast (Int.mul_ediv_add_emod k 32).symm
  have : (k : ℝ) * Real.pi / 16 = (k % 32 : ℤ) * Real.pi / 16 + (k / 32 : ℤ) * (2 * Real.pi) := by rw [split]; ring
  rw [cosAt, cosAt, this, Real.cos_add_int_mul_two_pi]

theorem cosAt_thirtyTwo_sub (k : ℤ) : cosAt (32 - k) = cosAt k := by
  rw [← cosAt_emod (32 - k), show (32 - k) % 32 = -k % 32 by omega, cosAt_emod, cosAt_neg]

/-- Below a quarter turn the cosine is positive. -/
theorem cosAt_pos {k : ℤ} (h0 : 0 ≤ k) (h8 : k < 8) : 0 < cosAt k := by
  have lower : (0 : ℝ) ≤ k := by exact_mod_cast h0
  have upper : (k : ℝ) < 8 := by exact_mod_cast h8
  refine mul_pos two_pos (Real.cos_pos_of_mem_Ioo ⟨?_, ?_⟩)
  · linarith [Real.pi_pos, mul_nonneg lower Real.pi_pos.le]
  · linarith [mul_lt_mul_of_pos_right upper Real.pi_pos]

theorem cosAt_four_sq : cosAt 4 ^ 2 = 2 := by rw [sq, cosAt_mul]; simp

theorem cosAt_two_sq : cosAt 2 ^ 2 = 2 + cosAt 4 := by rw [sq, cosAt_mul, add_comm]; simp

theorem cosAt_one_sq : cosAt 1 ^ 2 = 2 + cosAt 2 := by rw [sq, cosAt_mul, add_comm]; simp

theorem cosAt_six : cosAt 6 = cosAt 2 * (cosAt 4 - 1) := by
  have h := cosAt_mul 4 2
  norm_num at h
  linarith

theorem cosAt_three : cosAt 3 = cosAt 1 * (cosAt 2 - 1) := by
  have h := cosAt_mul 2 1
  norm_num at h
  linarith

theorem cosAt_five : cosAt 5 = cosAt 1 * (cosAt 4 - cosAt 2 + 1) := by
  have h := cosAt_mul 4 1
  norm_num at h
  rw [cosAt_three] at h
  linarith

theorem cosAt_seven : cosAt 7 = cosAt 1 * (cosAt 2 * cosAt 4 - cosAt 4 - 1) := by
  have h := cosAt_mul 6 1
  norm_num at h
  rw [cosAt_five, cosAt_six] at h
  linarith

/-! ## What a combination denotes -/

/-- The number that a combination denotes. -/
noncomputable def Cyc.val (x : Cyc) : ℝ :=
  x.n0 * cosAt 0 + x.n1 * cosAt 1 + x.n2 * cosAt 2 + x.n3 * cosAt 3 + x.n4 * cosAt 4 + x.n5 * cosAt 5 +
    x.n6 * cosAt 6 + x.n7 * cosAt 7

@[simp] theorem Cyc.val_zero : Cyc.zero.val = 0 := by simp [Cyc.val, Cyc.zero]

theorem Cyc.val_addAt (x : Cyc) {k : Nat} (hk : k ≤ 8) (a : Int) : (x.addAt k a).val = x.val + a * cosAt k := by
  interval_cases k <;> simp [Cyc.addAt, Cyc.val] <;> ring

theorem Cyc.val_addCos (x : Cyc) (m a : Int) : (x.addCos m a).val = x.val + a * cosAt m := by
  obtain ⟨r, hr⟩ := Int.eq_ofNat_of_zero_le (Int.emod_nonneg m (by decide : (32 : ℤ) ≠ 0))
  have hr32 : r < 32 := by have := Int.emod_lt_of_pos m (by decide : (0 : ℤ) < 32); omega
  obtain ⟨k, hk, hk16, hcos⟩ : ∃ k, (if r ≤ 16 then r else 32 - r) = k ∧ k ≤ 16 ∧ cosAt k = cosAt m := by
    rw [← cosAt_emod m, hr]
    refine ⟨_, rfl, by split <;> omega, ?_⟩
    split
    · rfl
    · rw [Nat.cast_sub hr32.le]
      exact cosAt_thirtyTwo_sub r
  simp only [Cyc.addCos, hr, Int.toNat_natCast, hk]
  split
  next h8 => rw [Cyc.val_addAt x h8, hcos]
  next h8 =>
    rw [Cyc.val_addAt x (by omega), Nat.cast_sub hk16, Nat.cast_ofNat, cosAt_sixteen_sub, hcos, Int.cast_neg, neg_mul_neg]

/-- The number `a + b*c4`. -/
noncomputable def Surd1.val (x : Surd1) : ℝ := x.a + x.b * cosAt 4

theorem Surd1.val_add (x y : Surd1) : (x.add y).val = x.val + y.val := by
  simp only [Surd1.val, Surd1.add]; push_cast; ring

theorem Surd1.val_sub (x y : Surd1) : (x.sub y).val = x.val - y.val := by
  simp only [Surd1.val, Surd1.sub]; push_cast; ring

theorem Surd1.val_mul (x y : Surd1) : (x.mul y).val = x.val * y.val := by
  simp only [Surd1.val, Surd1.mul]; push_cast
  linear_combination -((x.b : ℝ) * y.b) * cosAt_four_sq

theorem c2Square_val : c2Square.val = cosAt 2 ^ 2 := by
  rw [cosAt_two_sq]; simp [Surd1.val, c2Square]

/-- The number `p + q*c2`. -/
noncomputable def Surd2.val (x : Surd2) : ℝ := x.p.val + x.q.val * cosAt 2

theorem Surd2.val_sub (x y : Surd2) : (x.sub y).val = x.val - y.val := by
  simp only [Surd2.val, Surd2.sub, Surd1.val_sub]; ring

theorem Surd2.val_mul (x y : Surd2) : (x.mul y).val = x.val * y.val := by
  simp only [Surd2.val, Surd2.mul, Surd1.val_add, Surd1.val_mul, c2Square_val]; ring

theorem c1Square_val : c1Square.val = cosAt 1 ^ 2 := by
  rw [cosAt_one_sq]; simp [Surd2.val, Surd1.val, c1Square]

/-- The two parts of `Cyc` are a splitting along c1. -/
theorem Cyc.val_eq_parts (x : Cyc) : x.val = x.evenPart.val + x.oddPart.val * cosAt 1 := by
  simp only [Cyc.val, Cyc.evenPart, Cyc.oddPart, Surd2.val, Surd1.val, cosAt_zero, cosAt_three, cosAt_five, cosAt_six,
    cosAt_seven]
  push_cast
  ring

/-! ## Signs -/

/-- The sign of `p + q*r` from those of p, q and `p^2 - r^2*q^2 = (p + q*r) * (p - q*r)`: where p and q have opposite
signs, p - q*r has the sign of p. -/
theorem rootSign_eq_sign {r : ℝ} (hr : 0 < r) (p q : ℝ) :
    rootSign (SignType.sign p) (SignType.sign q) (SignType.sign (p * p - r ^ 2 * (q * q))) =
      SignType.sign (p + q * r) := by
  have product : p * p - r ^ 2 * (q * q) = (p + q * r) * (p - q * r) := by ring
  rw [product, sign_mul]
  rcases lt_trichotomy q 0 with hq | rfl | hq
  · have hqr := mul_neg_of_neg_of_pos hq hr
    rcases lt_trichotomy p 0 with hp | rfl | hp
    · simp [rootSign, hp, hq, add_neg hp hqr]
    · simp [rootSign, hq, hqr]
    · simp [rootSign, hp, hq, sub_pos.mpr (hqr.trans hp)]
  · simp [rootSign]
  · have hqr := mul_pos hq hr
    rcases lt_trichotomy p 0 with hp | rfl | hp
    · simp [rootSign, hp, hq, sub_neg.mpr (hp.trans hqr)]
    · simp [rootSign, hq, hqr]
    · simp [rootSign, hp, hq, add_pos hp hqr]

theorem int_sign_eq_sign_cast (n : ℤ) : n.sign = SignType.sign (n : ℝ) := by
  rw [Int.sign_eq_sign, sign_intCast]

theorem Surd1.sgn_eq_sign (x : Surd1) : x.sgn = SignType.sign x.val := by
  have norm : ((x.a * x.a - 2 * (x.b * x.b) : ℤ) : ℝ) = x.a * x.a - cosAt 4 ^ 2 * (x.b * x.b) := by
    rw [cosAt_four_sq]; push_cast; ring
  rw [Surd1.sgn, int_sign_eq_sign_cast, int_sign_eq_sign_cast, int_sign_eq_sign_cast, norm]
  exact rootSign_eq_sign (cosAt_pos (by decide) (by decide)) _ _

theorem Surd2.sgn_eq_sign (x : Surd2) : x.sgn = SignType.sign x.val := by
  rw [Surd2.sgn, Surd1.sgn_eq_sign, Surd1.sgn_eq_sign, Surd1.sgn_eq_sign, Surd1.val_sub, Surd1.val_mul, Surd1.val_mul,
    Surd1.val_mul, c2Square_val]
  exact rootSign_eq_sign (cosAt_pos (by decide) (by decide)) _ _

/-- The integer computation of the sign of a combination is right. -/
theorem Cyc.sgn_eq_sign (x : Cyc) : x.sgn = SignType.sign x.val := by
  rw [Cyc.sgn, Surd2.sgn_eq_sign, Surd2.sgn_eq_sign, Surd2.sgn_eq_sign, Surd2.val_sub, Surd2.val_mul, Surd2.val_mul,
    Surd2.val_mul, c1Square_val, Cyc.val_eq_parts]
  exact rootSign_eq_sign (cosAt_pos (by decide) (by decide)) _ _

theorem Cyc.sgn_nonneg_iff (x : Cyc) : 0 ≤ x.sgn ↔ 0 ≤ x.val := by
  rw [Cyc.sgn_eq_sign, ← sign_nonneg_iff (a := x.val)]
  generalize SignType.sign x.val = σ
  cases σ <;> decide

/-! ## The quantizer -/

/-- The real number that the quantizer rounds: F/Q + 1/2 with 16*F = x. -/
noncomputable def biasedQuotient (x : Cyc) (q : ℕ) : ℝ := x.val / 16 / q + 1 / 2

theorem atMost_iff (x : Cyc) {q : ℕ} (hq : 1 ≤ q) (m : ℤ) : atMost x q m = true ↔ m ≤ ⌊biasedQuotient x q⌋ := by
  have hpos : (0 : ℝ) < 16 * q := by exact_mod_cast (by omega : 0 < 16 * q)
  have value : (x.addAt 0 (4 * q - 8 * q * m)).val = (biasedQuotient x q - m) * (16 * q) := by
    rw [Cyc.val_addAt x (by decide)]
    simp only [biasedQuotient, Nat.cast_zero, cosAt_zero]
    field_simp
    push_cast
    ring
  rw [atMost, decide_eq_true_iff, Cyc.sgn_nonneg_iff, value, mul_nonneg_iff_of_pos_right hpos, sub_nonneg, Int.le_floor]

/-- The search finds the bound of a test that holds exactly up to it, from within its window. -/
theorem lastPassing_eq {test : Int → Bool} {bound : Int} (htest : ∀ m, test m = true ↔ m ≤ bound) (fuel : Nat)
    (lo : Int) (hlo : lo ≤ bound) (hhi : bound < lo + 2 ^ fuel) : lastPassing test fuel lo = bound := by
  induction fuel generalizing lo with
  | zero => simp only [lastPassing]; omega
  | succ k ih =>
    rw [pow_succ] at hhi
    rw [lastPassing]
    split
    next h => exact ih _ ((htest _).mp h) (by omega)
    next h => exact ih _ hlo (by have := mt (htest _).mpr h; omega)

theorem Cyc.val_of_isRational {x : Cyc} (h : x.isRational = true) : x.val = 2 * x.n0 := by
  obtain ⟨h1, h2, h3, h4, h5, h6, h7⟩ := of_decide_eq_true h
  simp [Cyc.val, h1, h2, h3, h4, h5, h6, h7, mul_comm]

/-- The quantizer of FDCTQ_IDEAL rounds half up, within the window that its search covers (42_transform.md R103). -/
theorem roundQuotient_eq_floor (x : Cyc) {q : ℕ} (hq : 1 ≤ q) (hlo : -4096 ≤ ⌊biasedQuotient x q⌋)
    (hhi : ⌊biasedQuotient x q⌋ < 4096) : roundQuotient x q = ⌊biasedQuotient x q⌋ := by
  rw [roundQuotient]
  split
  next h =>
    have hq0 : (q : ℝ) ≠ 0 := by exact_mod_cast (by omega : q ≠ 0)
    have : biasedQuotient x q = ((2 * x.n0 + 8 * q : ℤ) : ℝ) / (16 * q : ℕ) := by
      rw [biasedQuotient, Cyc.val_of_isRational h]
      push_cast
      field_simp
      ring
    rw [this, Int.floor_div_natCast, Int.floor_intCast]
    push_cast
    rfl
  next => exact lastPassing_eq (atMost_iff x hq) 13 _ hlo (by omega)

end Sys2Proof.Machine
end

section
/-! FDCTQ_IDEAL is the rounded real DCT, and its range (42_transform.md R102, R104, R107). -/

namespace Sys2Proof.Machine

open Sys2Proof.Reference

/-! ## The rows of the transform -/

/-- `2 * C(u) * cos((2*x+1)*u*pi/16)`. -/
noncomputable def dctBasis (u x : Fin 8) : ℝ := cosAt (dctAngle u x)

theorem dctBasis_eq (u x : Fin 8) :
    dctBasis u x = 2 * dctC u * Real.cos ((2 * (x.val : ℝ) + 1) * (u.val : ℝ) * Real.pi / 16) := by
  by_cases hu : u = 0
  · subst hu
    simp [dctBasis, dctAngle, dctC, cosAt_four]
  · simp only [dctBasis, dctAngle, dctC, if_neg hu, cosAt, mul_one]
    push_cast
    rfl

/-- The sum of a cosine over the eight odd multiples: times 2*sin(k*pi/16) it telescopes to sin(k*pi). -/
theorem sum_cosAt_odd_mul {k : ℤ} (h0 : 0 < k) (h16 : k < 16) : ∑ x : Fin 8, cosAt ((2 * x.val + 1) * k) = 0 := by
  have hsin : Real.sin (k * Real.pi / 16) ≠ 0 := by
    have lower : (0 : ℝ) < k := by exact_mod_cast h0
    have upper : (k : ℝ) < 16 := by exact_mod_cast h16
    refine (Real.sin_pos_of_pos_of_lt_pi (by positivity) ?_).ne'
    linarith [mul_lt_mul_of_pos_right upper Real.pi_pos]
  have telescope (x : ℕ) : Real.sin (k * Real.pi / 16) * cosAt ((2 * x + 1) * k) =
      Real.sin ((x + 1 : ℕ) * (k * Real.pi / 8)) - Real.sin (x * (k * Real.pi / 8)) := by
    rw [Real.sin_sub_sin, cosAt]
    push_cast
    ring_nf
  have total : Real.sin (k * Real.pi / 16) * ∑ x : Fin 8, cosAt ((2 * x.val + 1) * k) = 0 := by
    rw [Fin.sum_univ_eq_sum_range (fun x => cosAt ((2 * x + 1) * k)) 8, Finset.mul_sum,
      Finset.sum_congr rfl fun x _ => telescope x, Finset.sum_range_sub fun x : ℕ => Real.sin (x * (k * Real.pi / 8))]
    have : ((8 : ℕ) : ℝ) * (k * Real.pi / 8) = k * Real.pi := by push_cast; ring
    rw [this, Real.sin_int_mul_pi]
    simp
  exact (mul_eq_zero.mp total).resolve_left hsin

theorem sum_dctBasis_of_ne_zero {u : Fin 8} (hu : u ≠ 0) : ∑ x, dctBasis u x = 0 := by
  simp only [dctBasis, dctAngle, if_neg hu]
  exact sum_cosAt_odd_mul (by omega) (by omega)

theorem sum_dctBasis_nonneg (u : Fin 8) : 0 ≤ ∑ x, dctBasis u x := by
  by_cases hu : u = 0
  · subst hu
    exact Finset.sum_nonneg fun x _ => (cosAt_pos (by decide) (by decide) : 0 < cosAt 4).le
  · exact (sum_dctBasis_of_ne_zero hu).ge

/-- Every row of the transform has the same norm. -/
theorem sum_dctBasis_sq (u : Fin 8) : ∑ x, dctBasis u x ^ 2 = 16 := by
  by_cases hu : u = 0
  · subst hu
    norm_num [dctBasis, dctAngle, cosAt_four_sq]
  · have square (x : Fin 8) : dctBasis u x ^ 2 = cosAt ((2 * x.val + 1) * (2 * u.val)) + 2 := by
      rw [sq, dctBasis, cosAt_mul, sub_self, cosAt_zero, dctAngle, if_neg hu]
      ring_nf
    rw [Finset.sum_congr rfl fun x _ => square x, Finset.sum_add_distrib, sum_cosAt_odd_mul (by omega) (by omega)]
    norm_num

/-! ## The transform of 64 samples -/

@[simp] theorem rowOf_natural (r c : Fin 8) : rowOf (natural r c) = r := by
  apply Fin.ext; simp only [rowOf, natural]; omega

@[simp] theorem colOf_natural (r c : Fin 8) : colOf (natural r c) = c := by
  apply Fin.ext; simp only [colOf, natural]; omega

/-- A sum over the natural indices, row by row. -/
theorem sum_eq_sum_natural (f : Fin 64 → ℝ) : ∑ j, f j = ∑ y, ∑ x, f (natural y x) := by
  rw [← Fintype.sum_prod_type', ← (finProdFinEquiv (m := 8) (n := 8)).sum_comp f]
  exact Finset.sum_congr rfl fun p _ => congrArg f (Fin.ext (add_comm p.2.val (8 * p.1.val)))

/-- The factor of sample j in 16*F[8*v+u]. -/
noncomputable def dctWeight (v u : Fin 8) (j : Fin 64) : ℝ := dctBasis u (colOf j) * dctBasis v (rowOf j)

theorem val_foldl_addCos (s : Vector Byte 64) (a b : Fin 64 → ℤ) (l : List (Fin 64)) (acc : Cyc) :
    (l.foldl (fun acc j => (acc.addCos (a j + b j) s[j].toInt).addCos (a j - b j) s[j].toInt) acc).val =
      acc.val + (l.map fun j => (s[j].toInt : ℝ) * (cosAt (a j) * cosAt (b j))).sum := by
  induction l generalizing acc with
  | nil => simp
  | cons j l ih =>
    rw [List.foldl_cons, ih, Cyc.val_addCos, Cyc.val_addCos, List.map_cons, List.sum_cons, cosAt_mul]
    ring

theorem dct16_val (s : Vector Byte 64) (v u : Fin 8) :
    (dct16 s (natural v u)).val = ∑ j, (s[j].toInt : ℝ) * dctWeight v u j := by
  rw [dct16, val_foldl_addCos, Cyc.val_zero, zero_add, ← Fin.sum_univ_def, colOf_natural, rowOf_natural]
  rfl

/-- The integer computation denotes the real coefficient (42_transform.md R102). -/
theorem dct16_val_eq_dctReal (s : Vector Byte 64) (v u : Fin 8) : (dct16 s (natural v u)).val = 16 * dctReal s v u := by
  rw [dct16_val, sum_eq_sum_natural, dctReal]
  simp only [Finset.mul_sum, dctWeight, rowOf_natural, colOf_natural, dctBasis_eq]
  refine Finset.sum_congr rfl fun y _ => Finset.sum_congr rfl fun x _ => ?_
  ring

/-! ## The range -/

theorem sum_dctWeight_nonneg (v u : Fin 8) : 0 ≤ ∑ j, dctWeight v u j := by
  rw [sum_eq_sum_natural]
  simp only [dctWeight, rowOf_natural, colOf_natural, ← Finset.sum_mul, ← Finset.mul_sum]
  exact mul_nonneg (sum_dctBasis_nonneg u) (sum_dctBasis_nonneg v)

theorem sum_dctWeight_sq (v u : Fin 8) : ∑ j, dctWeight v u j ^ 2 = 256 := by
  rw [sum_eq_sum_natural]
  simp only [dctWeight, rowOf_natural, colOf_natural, mul_pow, ← Finset.sum_mul, ← Finset.mul_sum, sum_dctBasis_sq]
  norm_num

/-- Cauchy-Schwarz: values of magnitude at most B give a coefficient of magnitude at most 8*B; the sum is 16 times that. -/
theorem abs_sum_mul_dctWeight_le {t : Fin 64 → ℝ} {B : ℝ} (ht : ∀ j, |t j| ≤ B) (v u : Fin 8) :
    |∑ j, t j * dctWeight v u j| ≤ 128 * B := by
  have hB : 0 ≤ B := (abs_nonneg _).trans (ht 0)
  have energy : ∑ j, t j ^ 2 ≤ 64 * B ^ 2 := by
    simpa using Finset.sum_le_card_nsmul Finset.univ (fun j => t j ^ 2) (B ^ 2)
      fun j _ => sq_le_sq.mpr ((ht j).trans (le_abs_self B))
  refine abs_le_of_sq_le_sq ?_ (by positivity)
  calc (∑ j, t j * dctWeight v u j) ^ 2
      ≤ (∑ j, t j ^ 2) * ∑ j, dctWeight v u j ^ 2 := Finset.sum_mul_sq_le_sq_mul_sq _ _ _
    _ ≤ 64 * B ^ 2 * 256 := by rw [sum_dctWeight_sq]; gcongr
    _ = (128 * B) ^ 2 := by ring

theorem sample_bounds (b : Byte) : (-128 : ℝ) ≤ b.toInt ∧ (b.toInt : ℝ) ≤ 127 := by
  have lower := BitVec.le_toInt b
  have upper := BitVec.toInt_lt (x := b)
  exact ⟨by exact_mod_cast lower, by exact_mod_cast (by omega : b.toInt ≤ 127)⟩

theorem dctReal_ge (s : Vector Byte 64) (v u : Fin 8) : -1024 ≤ dctReal s v u := by
  have hs (j : Fin 64) : |(s[j].toInt : ℝ)| ≤ 128 := by
    obtain ⟨lower, upper⟩ := sample_bounds s[j]
    exact abs_le.mpr ⟨lower, by linarith⟩
  have := (abs_le.mp (abs_sum_mul_dctWeight_le hs v u)).1
  rw [← dct16_val, dct16_val_eq_dctReal] at this
  linarith

/-- The samples lie around -1/2: shifted by 1/2 their magnitude is at most 127.5, and the shift does not lower the
coefficient, since a constant block has none but the DC coefficient. -/
theorem dctReal_le (s : Vector Byte 64) (v u : Fin 8) : dctReal s v u ≤ 1020 := by
  have hs (j : Fin 64) : |(s[j].toInt : ℝ) + 1 / 2| ≤ 255 / 2 := by
    obtain ⟨lower, upper⟩ := sample_bounds s[j]
    exact abs_le.mpr ⟨by linarith, by linarith⟩
  have bound := (abs_le.mp (abs_sum_mul_dctWeight_le hs v u)).2
  simp only [add_mul, Finset.sum_add_distrib, ← Finset.mul_sum] at bound
  rw [← dct16_val, dct16_val_eq_dctReal] at bound
  linarith [sum_dctWeight_nonneg v u]

theorem biasedQuotient_dct16 (s : Vector Byte 64) (v u : Fin 8) (q : ℕ) :
    biasedQuotient (dct16 s (natural v u)) q = dctReal s v u / q + 1 / 2 := by
  rw [biasedQuotient, dct16_val_eq_dctReal, mul_div_cancel_left₀ _ (by norm_num)]

theorem floor_dctReal_bounds (s : Vector Byte 64) (v u : Fin 8) {q : ℕ} (hq : 1 ≤ q) :
    -1024 ≤ ⌊dctReal s v u / q + 1 / 2⌋ ∧ ⌊dctReal s v u / q + 1 / 2⌋ ≤ 1020 := by
  have hq1 : (1 : ℝ) ≤ q := by exact_mod_cast hq
  have hpos : (0 : ℝ) < q := by linarith
  have lower : -1024 ≤ dctReal s v u / q := by
    rw [le_div_iff₀ hpos]; linarith [dctReal_ge s v u]
  have upper : dctReal s v u / q ≤ 1020 := by
    rw [div_le_iff₀ hpos]; linarith [dctReal_le s v u]
  constructor
  · rw [Int.le_floor]; push_cast; linarith
  · rw [← Int.lt_add_one_iff, Int.floor_lt]; push_cast; linarith

/-- Settles O44: the combination denotes 16*F, its rounding is exact within the search window, and Cauchy-Schwarz with the
samples centred at -1/2 gives the range. -/
theorem fdctqIdealIsRoundedDct : Obligations.FdctqIdealIsRoundedDct := by
  unfold Obligations.FdctqIdealIsRoundedDct
  intro s steps hsteps v u
  obtain ⟨lower, upper⟩ := floor_dctReal_bounds s v u (hsteps (natural v u))
  have value : fdctqIdeal s steps (natural v u) = ⌊dctReal s v u / (steps[natural v u]).toNat + 1 / 2⌋ := by
    rw [← biasedQuotient_dct16] at lower upper ⊢
    exact roundQuotient_eq_floor _ (hsteps _) (by omega) (by omega)
  rw [value]
  exact ⟨rfl, lower, upper⟩

end Sys2Proof.Machine
end

section
/-! The zigzag reorder and the amplitude code (43_entropy_coder.md R115, R116): ZZ and NAT are inverse to each other on a
build whose zigzag table is a permutation, the size brackets the magnitude between two powers of 2, and the obligations on
the two. -/

namespace Sys2Proof.Machine

open Sys2Proof.Safety

/-! ## ZZ and NAT (10_state.md R27) -/

theorem zz_injective {zz : Vector (Fin 64) 64} (h : zz.toList.Nodup) : Function.Injective fun i : Fin 64 => zz[i] := by
  intro i j hij
  exact Fin.ext ((h.getElem_inj_iff (hi := by simp) (hj := by simp)).mp (by simpa using hij))

/-- A table of 64 different positions has every position, so the search NAT makes ends at an entry. -/
theorem zz_natIndex {zz : Vector (Fin 64) 64} (h : zz.toList.Nodup) (k : Fin 64) : zz[natIndex zz k] = k := by
  obtain ⟨i, hi⟩ := Finite.surjective_of_injective (zz_injective h) k
  have found : zz.toList.findIdx (fun p => p.val == k.val) < zz.toList.length :=
    List.findIdx_lt_length_of_exists ⟨k, by simp [← hi], by simp⟩
  have entry := List.findIdx_getElem (w := found)
  have index : (natIndex zz k).val = zz.toList.findIdx fun p => p.val == k.val :=
    Nat.mod_eq_of_lt (by simpa using found)
  exact Fin.ext (by simpa [← index] using entry)

theorem natIndex_zz {zz : Vector (Fin 64) 64} (h : zz.toList.Nodup) (i : Fin 64) : natIndex zz zz[i] = i :=
  zz_injective h (zz_natIndex h zz[i])

theorem vec_getElem_self {α : Type} {n : Nat} (v : Vector α n) : (vec fun i : Fin n => v[i]) = v := by
  ext i hi
  simp

/-! ## Reorder (43_entropy_coder.md R115) -/

@[simp] theorem reorder_getElem (zz : Vector (Fin 64) 64) (coef : Vector Word16 64) (k : Fin 64) :
    (reorder zz coef)[k] = coef[natIndex zz k] :=
  vec_getElem_fin _ k

theorem reorder_getElem_zz {zz : Vector (Fin 64) 64} (h : zz.toList.Nodup) (coef : Vector Word16 64) (i : Fin 64) :
    (reorder zz coef)[zz[i]] = coef[i] := by
  simp only [reorder_getElem, natIndex_zz h]

/-- Settles O33: ZZ is injective on 64 indices, so NAT is its inverse, and position 0 is ZZ[0]. -/
theorem zigzagReorder : Obligations.ZigzagReorder := by
  unfold Obligations.ZigzagReorder
  intro b coef hb
  have back (i : Fin 64) : (reorder b.zz coef)[b.zz[i]] = coef[i] := reorder_getElem_zz hb.zigzag coef i
  refine ⟨back, fun k => ⟨reorder_getElem b.zz coef k, zz_natIndex hb.zigzag k⟩, ?_, ?_⟩
  · have first := back 0
    simp only [show b.zz[(0 : Fin 64)] = 0 from hb.zigzag0] at first
    exact first
  · simp only [back, vec_getElem_self]

/-! ## The size and the code of a value (43_entropy_coder.md R116) -/

theorem bitlen_bounds {n : Nat} (hn : n ≠ 0) : 2 ^ (bitlen n - 1) ≤ n ∧ n < 2 ^ bitlen n := by
  rw [bitlen, if_neg hn]
  exact ⟨Nat.log2_self_le hn, Nat.lt_log2_self⟩

theorem two_pow_bitlen {n : Nat} (hn : n ≠ 0) : 2 ^ bitlen n = 2 * 2 ^ (bitlen n - 1) := by
  rw [bitlen, if_neg hn, Nat.add_sub_cancel, Nat.pow_succ, Nat.mul_comm]

theorem magBits_of_pos {v : Int} (hv : 0 < v) : magBits v = (bitlen v.natAbs, v.natAbs) := by
  simp [magBits, hv.le]

theorem magBits_of_neg {v : Int} (hv : v < 0) :
    magBits v = (bitlen v.natAbs, 2 ^ bitlen v.natAbs - 1 - v.natAbs) := by
  simp [magBits, hv]

/-- Settles O34: with 2^(n-1) ≤ |v| < 2^n = 2 * 2^(n-1), a positive value is its own code in the upper half of the n-bit
numbers, and the code of a negative one is in the lower half. -/
theorem amplitudeCoding : Obligations.AmplitudeCoding := by
  unfold Obligations.AmplitudeCoding
  refine ⟨by decide, fun v hv => ?_⟩
  have hn : v.natAbs ≠ 0 := Int.natAbs_ne_zero.mpr hv
  obtain ⟨lower, upper⟩ := bitlen_bounds hn
  have double := two_pow_bitlen hn
  have cast : ((2 ^ bitlen v.natAbs : Nat) : Int) = 2 ^ bitlen v.natAbs := Nat.cast_pow 2 _
  rcases lt_or_gt_of_ne hv with neg | pos
  · have lowerHalf : 2 ^ bitlen v.natAbs - 1 - v.natAbs < 2 ^ (bitlen v.natAbs - 1) := by omega
    simp only [magBits_of_neg neg, ← cast, if_neg (Nat.not_le.mpr lowerHalf)]
    omega
  · simp only [magBits_of_pos pos, ← cast, if_pos lower]
    omega

end Sys2Proof.Machine
end

section
/-! The command words (30_encoding.md R60 to R66): the fields of a word, the decoder's equations, and the obligations that
hold the decoder, the encoder and the opcode table together. -/

namespace Sys2Proof

open Sys2Proof.Machine Sys2Proof.Reference

/-! ## The fields of a word put together from them (30_encoding.md R61) -/

/-- The field at place `lo` of a word whose lowest field is `n` bits wide: a field of what is above that one. -/
theorem extractLsb'_append_above {m n lo len k : Nat} (x : BitVec m) (y : BitVec n) (z : BitVec len)
    (hk : lo = n + k) (h : x.extractLsb' k len = z) : (x ++ y).extractLsb' lo len = z := by
  rw [BitVec.extractLsb'_append_eq_of_le (by omega), ← h, hk, Nat.add_sub_cancel_left]

/-- Format T. -/
theorem fields_formatT (op : BitVec 8) (zero : BitVec 12) (sel : BitVec 4) (idx : BitVec 8) :
    opField (op ++ zero ++ sel ++ idx) = op ∧ (op ++ zero ++ sel ++ idx).extractLsb' 12 12 = zero ∧
      (op ++ zero ++ sel ++ idx).extractLsb' 8 4 = sel ∧ (op ++ zero ++ sel ++ idx).extractLsb' 0 8 = idx :=
  ⟨extractLsb'_append_above _ _ _ rfl (extractLsb'_append_above _ _ _ rfl BitVec.extractLsb'_append_eq_left),
    extractLsb'_append_above _ _ _ rfl (extractLsb'_append_above _ _ _ rfl BitVec.extractLsb'_append_eq_right),
    extractLsb'_append_above _ _ _ rfl BitVec.extractLsb'_append_eq_right, BitVec.extractLsb'_append_eq_right⟩

/-- Format B. -/
theorem fields_formatB (op : BitVec 8) (zero : BitVec 3) (len : BitVec 5) (code : Word16) :
    opField (op ++ zero ++ len ++ code) = op ∧ (op ++ zero ++ len ++ code).extractLsb' 21 3 = zero ∧
      (op ++ zero ++ len ++ code).extractLsb' 16 5 = len ∧ (op ++ zero ++ len ++ code).extractLsb' 0 16 = code :=
  ⟨extractLsb'_append_above _ _ _ rfl (extractLsb'_append_above _ _ _ rfl BitVec.extractLsb'_append_eq_left),
    extractLsb'_append_above _ _ _ rfl (extractLsb'_append_above _ _ _ rfl BitVec.extractLsb'_append_eq_right),
    extractLsb'_append_above _ _ _ rfl BitVec.extractLsb'_append_eq_right, BitVec.extractLsb'_append_eq_right⟩

/-- Format Y. -/
theorem fields_formatY (op : BitVec 8) (zero : BitVec 16) (byte : Byte) :
    opField (op ++ zero ++ byte) = op ∧ (op ++ zero ++ byte).extractLsb' 8 16 = zero ∧
      (op ++ zero ++ byte).extractLsb' 0 8 = byte :=
  ⟨extractLsb'_append_above _ _ _ rfl BitVec.extractLsb'_append_eq_left,
    extractLsb'_append_above _ _ _ rfl BitVec.extractLsb'_append_eq_right, BitVec.extractLsb'_append_eq_right⟩

/-! ## Selectors and channels -/

theorem windowOf_eq_some {bits : BitVec 4} {sel : Window} : windowOf bits = some sel ↔ windowBits sel = bits := by
  revert bits
  cases sel <;> decide

theorem channelOf_eq_some {bits : BitVec 2} {ch : Channel} :
    channelOf bits = some ch ↔ Sys2Proof.channelBits ch = bits := by
  revert bits
  cases ch <;> decide

/-! ## Decoding by opcode (30_encoding.md R62) -/

theorem decode_of_op_rdreg {w : Word32} (h : opField w = 0x03) : decode w = decodeRdreg w := by simp only [decode, h]; rfl
theorem decode_of_op_rdtbl {w : Word32} (h : opField w = 0x04) : decode w = decodeT w := by simp only [decode, h]; rfl
theorem decode_of_op_wbits {w : Word32} (h : opField w = 0x20) : decode w = decodeB w := by simp only [decode, h]; rfl
theorem decode_of_op_wbyte {w : Word32} (h : opField w = 0x21) : decode w = decodeY w := by simp only [decode, h]; rfl
theorem decode_of_op_wword {w : Word32} (h : opField w = 0x22) : decode w = decodeW w := by simp only [decode, h]; rfl
theorem decode_of_op_encdu {w : Word32} (h : opField w = 0x41) : decode w = decodeD .encdu w := by
  simp only [decode, h]; rfl
theorem decode_of_op_enccoef {w : Word32} (h : opField w = 0x42) : decode w = decodeD .enccoef w := by
  simp only [decode, h]; rfl

/-! ## The decoder reads back what the encoder writes -/

theorem decode_encode_rdreg (addr : BitVec 8) : decode (encode (.rdreg addr)) = .ok (.rdreg addr) := by
  show decode ((0x03 : BitVec 8) ++ addr ++ (0 : BitVec 16)) = _
  rw [decode_of_op_rdreg (opField_append _ _ _), decodeRdreg, extractLsb'_append_data, extractLsb'_append_addr, if_pos rfl]

theorem decode_encode_rdtbl {sel : Window} {idx : BitVec 8} (h : idx.toNat < sel.entries) :
    decode (encode (.rdtbl sel idx)) = .ok (.rdtbl sel idx) := by
  show decode ((0x04 : BitVec 8) ++ (0 : BitVec 12) ++ windowBits sel ++ idx) = _
  obtain ⟨hop, hzero, hsel, hidx⟩ := fields_formatT 0x04 0 (windowBits sel) idx
  rw [decode_of_op_rdtbl hop, decodeT, hzero, hsel, hidx, if_pos rfl, windowOf_eq_some.mpr rfl]
  exact if_pos h

theorem decode_encode_wbits {len : BitVec 5} (h : len.toNat ≤ 16) (code : Word16) :
    decode (encode (.wbits len code)) = .ok (.wbits len code) := by
  show decode ((0x20 : BitVec 8) ++ (0 : BitVec 3) ++ len ++ code) = _
  obtain ⟨hop, hzero, hlen, hcode⟩ := fields_formatB 0x20 0 len code
  rw [decode_of_op_wbits hop, decodeB, hzero, hlen, hcode, if_pos rfl, if_pos h]

theorem decode_encode_wbyte (byte : Byte) : decode (encode (.wbyte byte)) = .ok (.wbyte byte) := by
  show decode ((0x21 : BitVec 8) ++ (0 : BitVec 16) ++ byte) = _
  obtain ⟨hop, hzero, hbyte⟩ := fields_formatY 0x21 0 byte
  rw [decode_of_op_wbyte hop, decodeY, hzero, hbyte, if_pos rfl]

theorem decode_encode_wword (word : Word16) : decode (encode (.wword word)) = .ok (.wword word) := by
  show decode ((0x22 : BitVec 8) ++ (0 : BitVec 8) ++ word) = _
  rw [decode_of_op_wword (opField_append _ _ _), decodeW, extractLsb'_append_addr, extractLsb'_append_data, if_pos rfl]

/-- Settles O1: the fields of the formats with operands are read back one by one; every other command has one word, or three
for the data commands with a channel. -/
theorem decodeEncode : Obligations.DecodeEncode := by
  unfold Obligations.DecodeEncode
  intro i hw
  cases i with
  | wrreg addr data => exact decode_wrreg addr data
  | rdreg addr => exact decode_encode_rdreg addr
  | rdtbl sel idx => exact decode_encode_rdtbl (of_decide_eq_true hw)
  | wbits len code => exact decode_encode_wbits (of_decide_eq_true hw) code
  | wbyte byte => exact decode_encode_wbyte byte
  | wword word => exact decode_encode_wword word
  | encdu ch | enccoef ch => cases ch <;> rfl
  | nop | reset | bldqt | bldht | align | sync | soi | app0 | dqt | sof0 | dht | sos | eoi | encmcu => rfl

/-! ## A word that decodes is put together from its fields -/

/-- What the decoder may answer for a word (30_encoding.md R64). -/
def IsWordOf (w : Word32) (i : Instr) : Prop := i.wellFormed = true ∧ encode i = w

/-- Two adjacent fields of a word are one. -/
theorem extractLsb'_append_adjacent (w : Word32) (lo n m : Nat) :
    w.extractLsb' (lo + n) m ++ w.extractLsb' lo n = w.extractLsb' lo (m + n) :=
  BitVec.extractLsb'_append_extractLsb'_eq_extractLsb' rfl

theorem append_fields_formatN (w : Word32) : opField w ++ w.extractLsb' 0 24 = w :=
  BitVec.extractLsb'_append_extractLsb'

theorem append_fields_formatR (w : Word32) : opField w ++ w.extractLsb' 16 8 ++ w.extractLsb' 0 16 = w :=
  (congrArg (· ++ w.extractLsb' 0 16) (extractLsb'_append_adjacent w 16 8 8)).trans
    BitVec.extractLsb'_append_extractLsb'

theorem append_fields_formatT (w : Word32) :
    opField w ++ w.extractLsb' 12 12 ++ w.extractLsb' 8 4 ++ w.extractLsb' 0 8 = w :=
  (congrArg (· ++ w.extractLsb' 8 4 ++ w.extractLsb' 0 8) (extractLsb'_append_adjacent w 12 12 8)).trans
    ((congrArg (· ++ w.extractLsb' 0 8) (extractLsb'_append_adjacent w 8 4 20)).trans
      BitVec.extractLsb'_append_extractLsb')

theorem append_fields_formatB (w : Word32) :
    opField w ++ w.extractLsb' 21 3 ++ w.extractLsb' 16 5 ++ w.extractLsb' 0 16 = w :=
  (congrArg (· ++ w.extractLsb' 16 5 ++ w.extractLsb' 0 16) (extractLsb'_append_adjacent w 21 3 8)).trans
    ((congrArg (· ++ w.extractLsb' 0 16) (extractLsb'_append_adjacent w 16 5 11)).trans
      BitVec.extractLsb'_append_extractLsb')

theorem append_fields_formatY (w : Word32) : opField w ++ w.extractLsb' 8 16 ++ w.extractLsb' 0 8 = w :=
  (congrArg (· ++ w.extractLsb' 0 8) (extractLsb'_append_adjacent w 8 16 8)).trans
    BitVec.extractLsb'_append_extractLsb'

theorem append_fields_formatD (w : Word32) : opField w ++ w.extractLsb' 2 22 ++ w.extractLsb' 0 2 = w :=
  (congrArg (· ++ w.extractLsb' 0 2) (extractLsb'_append_adjacent w 2 22 8)).trans
    BitVec.extractLsb'_append_extractLsb'

theorem opField_eq {w : Word32} {n : Nat} (h : (opField w).toNat = n) : opField w = BitVec.ofNat 8 n := by
  rw [← h, BitVec.ofNat_toNat, BitVec.setWidth_eq]

/-! ## What the decoders of the formats accept -/

theorem decodeN_sound {i j : Instr} {w : Word32} {op : Nat} (hop : (opField w).toNat = op) (hw : i.wellFormed = true)
    (he : encode i = encodeN (BitVec.ofNat 8 op)) (h : decodeN i w = .ok j) : IsWordOf w j := by
  unfold decodeN at h
  split at h
  next hzero =>
    cases h
    have word := append_fields_formatN w
    rw [opField_eq hop, hzero] at word
    exact ⟨hw, he.trans word⟩
  next => cases h

theorem decodeRdreg_sound {j : Instr} {w : Word32} (hop : (opField w).toNat = 0x03) (h : decodeRdreg w = .ok j) :
    IsWordOf w j := by
  unfold decodeRdreg at h
  split at h
  next hzero =>
    cases h
    have word := append_fields_formatR w
    rw [opField_eq hop, hzero] at word
    exact ⟨rfl, word⟩
  next => cases h

theorem decodeT_sound {j : Instr} {w : Word32} (hop : (opField w).toNat = 0x04) (h : decodeT w = .ok j) :
    IsWordOf w j := by
  unfold decodeT at h
  split at h
  next hzero =>
    split at h
    next => cases h
    next sel hsel =>
      split at h
      next hidx =>
        cases h
        have word := append_fields_formatT w
        rw [opField_eq hop, hzero, ← windowOf_eq_some.mp hsel] at word
        exact ⟨decide_eq_true hidx, word⟩
      next => cases h
  next => cases h

theorem decodeB_sound {j : Instr} {w : Word32} (hop : (opField w).toNat = 0x20) (h : decodeB w = .ok j) :
    IsWordOf w j := by
  unfold decodeB at h
  split at h
  next hzero =>
    split at h
    next hlen =>
      cases h
      have word := append_fields_formatB w
      rw [opField_eq hop, hzero] at word
      exact ⟨decide_eq_true hlen, word⟩
    next => cases h
  next => cases h

theorem decodeY_sound {j : Instr} {w : Word32} (hop : (opField w).toNat = 0x21) (h : decodeY w = .ok j) :
    IsWordOf w j := by
  unfold decodeY at h
  split at h
  next hzero =>
    cases h
    have word := append_fields_formatY w
    rw [opField_eq hop, hzero] at word
    exact ⟨rfl, word⟩
  next => cases h

theorem decodeW_sound {j : Instr} {w : Word32} (hop : (opField w).toNat = 0x22) (h : decodeW w = .ok j) :
    IsWordOf w j := by
  unfold decodeW at h
  split at h
  next hzero =>
    cases h
    have word := append_fields_formatR w
    rw [opField_eq hop, hzero] at word
    exact ⟨rfl, word⟩
  next => cases h

theorem decodeD_sound {i : Channel → Instr} {j : Instr} {w : Word32} {op : Nat} (hop : (opField w).toNat = op)
    (hw : ∀ ch, (i ch).wellFormed = true)
    (he : ∀ ch, encode (i ch) = BitVec.ofNat 8 op ++ (0 : BitVec 22) ++ Sys2Proof.channelBits ch)
    (h : decodeD i w = .ok j) : IsWordOf w j := by
  unfold decodeD at h
  split at h
  next hzero =>
    split at h
    next => cases h
    next ch hch =>
      cases h
      have word := append_fields_formatD w
      rw [opField_eq hop, hzero, ← channelOf_eq_some.mp hch] at word
      exact ⟨hw ch, (he ch).trans word⟩
  next => cases h

theorem decode_sound {w : Word32} {j : Instr} (h : decode w = .ok j) : IsWordOf w j := by
  unfold decode at h
  split at h
  next hop => exact decodeN_sound hop rfl rfl h
  next hop => exact decodeN_sound hop rfl rfl h
  next hop =>
    cases h
    have word := append_fields_formatR w
    rw [opField_eq hop] at word
    exact ⟨rfl, word⟩
  next hop => exact decodeRdreg_sound hop h
  next hop => exact decodeT_sound hop h
  next hop => exact decodeN_sound hop rfl rfl h
  next hop => exact decodeN_sound hop rfl rfl h
  next hop => exact decodeB_sound hop h
  next hop => exact decodeY_sound hop h
  next hop => exact decodeW_sound hop h
  next hop => exact decodeN_sound hop rfl rfl h
  next hop => exact decodeN_sound hop rfl rfl h
  next hop => exact decodeN_sound hop rfl rfl h
  next hop => exact decodeN_sound hop rfl rfl h
  next hop => exact decodeN_sound hop rfl rfl h
  next hop => exact decodeN_sound hop rfl rfl h
  next hop => exact decodeN_sound hop rfl rfl h
  next hop => exact decodeN_sound hop rfl rfl h
  next hop => exact decodeN_sound hop rfl rfl h
  next hop => exact decodeN_sound hop rfl rfl h
  next hop => exact decodeD_sound hop (fun _ => rfl) (fun _ => rfl) h
  next hop => exact decodeD_sound hop (fun _ => rfl) (fun _ => rfl) h
  next => cases h

/-- Settles O2: each format's decoder accepts only a word whose fields it puts into the command, and those fields make up
the word. -/
theorem encodeDecode : Obligations.EncodeDecode := by
  unfold Obligations.EncodeDecode
  exact fun w i h => decode_sound h

/-! ## The opcode table (30_encoding.md R62) -/

/-- Every word of the row decodes to a command of the row's mnemonic. -/
def RowDecodes (r : OpcodeRow) : Prop := ∀ w, r.holds w → ∃ i, decode w = .ok i ∧ mnemonic i = r.mnemonic

section
variable {name : String} {p m w : Word32}

/-- A field of a word of a row. -/
theorem holds_field (h : OpcodeRow.holds ⟨name, p, m⟩ w) (lo len : Nat) :
    w.extractLsb' lo len &&& m.extractLsb' lo len = p.extractLsb' lo len := by
  rw [← BitVec.extractLsb'_and]
  exact congrArg _ h

/-- A field that the mask takes whole. -/
theorem holds_fixed_field (h : OpcodeRow.holds ⟨name, p, m⟩ w) (lo len : Nat)
    (hm : m.extractLsb' lo len = BitVec.allOnes len) : w.extractLsb' lo len = p.extractLsb' lo len := by
  rw [← holds_field h, hm, BitVec.and_allOnes]

/-- A row of one word. -/
theorem rowDecodes_single {i : Instr} (h : decode p = .ok i) (hn : mnemonic i = name) :
    RowDecodes ⟨name, p, 0xFFFFFFFF⟩ := by
  intro w hw
  have word : w = p := BitVec.and_allOnes.symm.trans hw
  exact ⟨i, word ▸ h, hn⟩

theorem rowDecodes_wrreg : RowDecodes ⟨"WRREG", 0x02000000, 0xFF000000⟩ := by
  intro w hw
  have hop : opField w = 0x02 := holds_fixed_field hw 24 8 (by decide)
  exact ⟨.wrreg (w.extractLsb' 16 8) (w.extractLsb' 0 16), by simp only [decode, hop]; rfl, rfl⟩

theorem rowDecodes_rdreg : RowDecodes ⟨"RDREG", 0x03000000, 0xFF00FFFF⟩ := by
  intro w hw
  have hop : opField w = 0x03 := holds_fixed_field hw 24 8 (by decide)
  have hdata : w.extractLsb' 0 16 = 0 := holds_fixed_field hw 0 16 (by decide)
  exact ⟨.rdreg (w.extractLsb' 16 8), by rw [decode_of_op_rdreg hop, decodeRdreg, if_pos hdata], rfl⟩

/-- The rows of RDTBL: bit 8 and some bits of the index are free. -/
theorem rowDecodes_rdtbl {entries : Nat} (hmop : m.extractLsb' 24 8 = BitVec.allOnes 8)
    (hmzero : m.extractLsb' 12 12 = BitVec.allOnes 12)
    (hop : p.extractLsb' 24 8 = 0x04) (hzero : p.extractLsb' 12 12 = 0)
    (hsel : ∀ bits : BitVec 4, bits &&& m.extractLsb' 8 4 = p.extractLsb' 8 4 →
      (windowOf bits).map Window.entries = some entries)
    (hidx : ∀ bits : BitVec 8, bits &&& m.extractLsb' 0 8 = p.extractLsb' 0 8 → bits.toNat < entries) :
    RowDecodes ⟨"RDTBL", p, m⟩ := by
  intro w hw
  obtain ⟨sel, known, rfl⟩ := Option.map_eq_some_iff.mp (hsel _ (holds_field hw 8 4))
  refine ⟨.rdtbl sel (w.extractLsb' 0 8), ?_, rfl⟩
  rw [decode_of_op_rdtbl ((holds_fixed_field hw 24 8 hmop).trans hop), decodeT,
    if_pos ((holds_fixed_field hw 12 12 hmzero).trans hzero), known]
  exact if_pos (hidx _ (holds_field hw 0 8))

/-- The rows of WBITS: lengths below 16, and length 16. -/
theorem rowDecodes_wbits (hmop : m.extractLsb' 24 8 = BitVec.allOnes 8) (hmzero : m.extractLsb' 21 3 = BitVec.allOnes 3)
    (hop : p.extractLsb' 24 8 = 0x20) (hzero : p.extractLsb' 21 3 = 0)
    (hlen : ∀ len : BitVec 5, len &&& m.extractLsb' 16 5 = p.extractLsb' 16 5 → len.toNat ≤ 16) :
    RowDecodes ⟨"WBITS", p, m⟩ := by
  intro w hw
  refine ⟨.wbits (w.extractLsb' 16 5) (w.extractLsb' 0 16), ?_, rfl⟩
  rw [decode_of_op_wbits ((holds_fixed_field hw 24 8 hmop).trans hop), decodeB,
    if_pos ((holds_fixed_field hw 21 3 hmzero).trans hzero), if_pos (hlen _ (holds_field hw 16 5))]

theorem rowDecodes_wbyte : RowDecodes ⟨"WBYTE", 0x21000000, 0xFFFFFF00⟩ := by
  intro w hw
  have hop : opField w = 0x21 := holds_fixed_field hw 24 8 (by decide)
  have hzero : w.extractLsb' 8 16 = 0 := holds_fixed_field hw 8 16 (by decide)
  exact ⟨.wbyte (w.extractLsb' 0 8), by rw [decode_of_op_wbyte hop, decodeY, if_pos hzero], rfl⟩

theorem rowDecodes_wword : RowDecodes ⟨"WWORD", 0x22000000, 0xFFFF0000⟩ := by
  intro w hw
  have hop : opField w = 0x22 := holds_fixed_field hw 24 8 (by decide)
  have hzero : w.extractLsb' 16 8 = 0 := holds_fixed_field hw 16 8 (by decide)
  exact ⟨.wword (w.extractLsb' 0 16), by rw [decode_of_op_wword hop, decodeW, if_pos hzero], rfl⟩

/-- The row of a data command on the channels Y and Cb. -/
theorem rowDecodes_channels {i : Channel → Instr} (hd : ∀ w, opField w = p.extractLsb' 24 8 → decode w = decodeD i w)
    (hn : ∀ ch, mnemonic (i ch) = name) (hzero : p.extractLsb' 2 22 = 0) (hch : p.extractLsb' 0 2 = 0) :
    RowDecodes ⟨name, p, 0xFFFFFFFE⟩ := by
  intro w hw
  have known : ∀ bits : BitVec 2, bits &&& 2 = 0 → (channelOf bits).isSome := by decide
  obtain ⟨ch, hch⟩ := Option.isSome_iff_exists.mp (known _ ((holds_field hw 0 2).trans hch))
  refine ⟨i ch, ?_, hn ch⟩
  rw [hd w (holds_fixed_field hw 24 8 (by decide)), decodeD,
    if_pos ((holds_fixed_field hw 2 22 (by decide)).trans hzero), hch]

end

theorem opcodeRows_decode : ∀ r ∈ opcodeRows, RowDecodes r := by
  simp only [opcodeRows, List.cons_append, List.nil_append, List.forall_mem_cons]
  refine ⟨rowDecodes_single (i := .nop) rfl rfl, rowDecodes_single (i := .reset) rfl rfl, rowDecodes_wrreg,
    rowDecodes_rdreg, ?qt, ?htY, ?htC, ?unit, rowDecodes_single (i := .bldqt) rfl rfl,
    rowDecodes_single (i := .bldht) rfl rfl, ?short, ?long, rowDecodes_wbyte, rowDecodes_wword,
    rowDecodes_single (i := .align) rfl rfl, rowDecodes_single (i := .sync) rfl rfl,
    rowDecodes_single (i := .soi) rfl rfl, rowDecodes_single (i := .app0) rfl rfl,
    rowDecodes_single (i := .dqt) rfl rfl, rowDecodes_single (i := .sof0) rfl rfl,
    rowDecodes_single (i := .dht) rfl rfl, rowDecodes_single (i := .sos) rfl rfl,
    rowDecodes_single (i := .eoi) rfl rfl, rowDecodes_single (i := .encmcu) rfl rfl,
    rowDecodes_channels (i := .encdu) (fun w => decode_of_op_encdu) (fun _ => rfl) (by decide) (by decide),
    rowDecodes_single (i := .encdu .cr) rfl rfl,
    rowDecodes_channels (i := .enccoef) (fun w => decode_of_op_enccoef) (fun _ => rfl) (by decide) (by decide),
    rowDecodes_single (i := .enccoef .cr) rfl rfl, List.forall_mem_nil _⟩
  case qt | unit =>
    exact rowDecodes_rdtbl (entries := 64) (by decide) (by decide) (by decide) (by decide) (by decide) (by decide)
  case htY | htC =>
    exact rowDecodes_rdtbl (entries := 256) (by decide) (by decide) (by decide) (by decide) (by decide)
      (fun bits _ => bits.isLt)
  case short | long => exact rowDecodes_wbits (by decide) (by decide) (by decide) (by decide) (by decide)

theorem encode_in_row : ∀ i : Instr, Laws.TableRow.Statement i
  | .nop => Laws.TableRow.nop
  | .reset => Laws.TableRow.reset
  | .wrreg addr data => Laws.TableRow.wrreg addr data
  | .rdreg addr => Laws.TableRow.rdreg addr
  | .rdtbl sel idx => Laws.TableRow.rdtbl sel idx
  | .bldqt => Laws.TableRow.bldqt
  | .bldht => Laws.TableRow.bldht
  | .wbits len code => Laws.TableRow.wbits len code
  | .wbyte byte => Laws.TableRow.wbyte byte
  | .wword word => Laws.TableRow.wword word
  | .align => Laws.TableRow.align
  | .sync => Laws.TableRow.sync
  | .soi => Laws.TableRow.soi
  | .app0 => Laws.TableRow.app0
  | .dqt => Laws.TableRow.dqt
  | .sof0 => Laws.TableRow.sof0
  | .dht => Laws.TableRow.dht
  | .sos => Laws.TableRow.sos
  | .eoi => Laws.TableRow.eoi
  | .encmcu => Laws.TableRow.encmcu
  | .encdu ch => Laws.TableRow.encdu ch
  | .enccoef ch => Laws.TableRow.enccoef ch

/-- Settles O3: a word that decodes is the word of its command, which lies in a row of the command; and every word of a row
decodes to a command of that row. -/
theorem legalWordsAreTableRows : Obligations.LegalWordsAreTableRows := by
  unfold Obligations.LegalWordsAreTableRows
  refine fun w => ⟨⟨?legal, ?row⟩, ?mnemonic⟩
  case legal =>
    rintro ⟨i, hi⟩
    obtain ⟨hw, rfl⟩ := decode_sound hi
    obtain ⟨r, hr, -, holds⟩ := encode_in_row i hw
    exact ⟨r, hr, holds⟩
  case row =>
    rintro ⟨r, hr, holds⟩
    obtain ⟨i, hi, -⟩ := opcodeRows_decode r hr w holds
    exact ⟨i, hi⟩
  case mnemonic =>
    intro i hi r hr holds
    obtain ⟨j, hj, hm⟩ := opcodeRows_decode r hr w holds
    cases hi.symm.trans hj
    exact hm.symm

/-- Settles O4: the eleven words, evaluated. -/
theorem familyWordsDecode : Obligations.FamilyWordsDecode := by
  unfold Obligations.FamilyWordsDecode
  decide

end Sys2Proof
end

section
/-! What a command can do, once for all 22 (40_system_commands.md R80): exec is Execute of the command's pseudocode, and
outside the FAULT phase it ends in one of three ways. -/

namespace Sys2Proof.Machine

open Sys2Proof.Safety Sys2Proof.Reference

/-! ## The pseudocode of a command -/

/-- The pseudocode of a command (40_system_commands.md R80 steps 6 and 7). -/
def body : Instr → State → Run State
  | .nop | .rdreg _ | .rdtbl _ _ => .done
  | .reset => fun s => .done (doReset s)
  | .wrreg addr data => fun s => .done (writeRegister addr data s)
  | .bldqt => fun s => .done { s with qt := buildBothQt s.build s.scale, qtValid := true }
  | .bldht => bldhtBody
  | .wbits len code => onStream fun cap => writeBits cap code.toNat len.toNat
  | .wbyte byte => onStream fun cap => appendBytes cap [byte]
  | .wword word => onStream fun cap => appendBytes cap (wordBytes word)
  | .align => fun s => (onStream alignBits s).thenDo fun t => { t with phase := .aligned }
  | .sync => onStream fun _ => drain
  | .soi => fun s => emitSegment (fun _ => soiBytes) .sSoi (clearStream s)
  | .app0 => emitSegment (fun _ => app0Bytes) .sApp0
  | .dqt => emitSegment (fun s => dqtBytes s.build.zz s.qt) .sDqt
  | .sof0 => emitSegment (fun s => sof0Bytes s.width s.height) .sSof0
  | .dht => emitSegment (fun s => dhtBytes s.build.hspec) .sDht
  | .sos => emitSegment (fun _ => sosBytes) .scan
  | .eoi => eoiBody
  | .encmcu => withPayload 192 mcuBody
  | .encdu ch => withPayload 64 (sampleUnit ch)
  | .enccoef ch => withPayload 128 fun pl => dataUnit ch (coefOf pl)

/-- The data a command responds with when it takes no fault. -/
def respData : Instr → State → Word32
  | .rdreg addr => readRegister addr
  | .rdtbl sel idx => readWindow sel idx
  | _ => noData

theorem exec_eq_execute (i : Instr) (s : State) : exec i s = execute i (body i) (respData i) s := by
  cases i <;> rfl

theorem exec_in_fault {i : Instr} {s : State} (hf : s.phase = .fault) : exec i s = .next (faultGate i s) := by
  rw [exec_eq_execute, execute_fault hf]

theorem exec_checked {i : Instr} {s : State} {c : FaultCause} (hf : s.phase ≠ .fault) (hc : check i s = some c) :
    exec i s = .next (takeFault c s) := by
  rw [exec_eq_execute, execute_checked hf hc]

theorem exec_passed {i : Instr} {s : State} (hf : s.phase ≠ .fault) (hc : check i s = none) :
    exec i s = .next (finish (respData i s) (body i s)) := by
  rw [exec_eq_execute, execute_passed hf hc]

/-- The pseudocode ran to its end. -/
theorem exec_of_body_done {i : Instr} {s u : State} (hf : s.phase ≠ .fault) (hc : check i s = none)
    (hb : body i s = .done u) : exec i s = .next (answered (respData i s) u) := by
  rw [exec_passed hf hc, hb]
  rfl

/-- The pseudocode raised a fault. -/
theorem exec_of_body_raised {i : Instr} {s u : State} {c : FaultCause} (hf : s.phase ≠ .fault) (hc : check i s = none)
    (hb : body i s = .raised c u) : exec i s = .next (takeFault c u) := by
  rw [exec_passed hf hc, hb]
  rfl

/-- The three ways a command ends outside the FAULT phase. -/
inductive Ends (i : Instr) (s : State) : State → Prop
  | checked {c : FaultCause} (hc : check i s = some c) : Ends i s (takeFault c s)
  | raised {c : FaultCause} {u : State} (hc : check i s = none) (hb : body i s = .raised c u) : Ends i s (takeFault c u)
  | answered {u : State} (hc : check i s = none) (hb : body i s = .done u) : Ends i s (answered (respData i s) u)

theorem exec_ends {i : Instr} {s t : State} (hf : s.phase ≠ .fault) (h : exec i s = .next t) : Ends i s t := by
  cases hc : check i s with
  | some c =>
    cases (exec_checked hf hc).symm.trans h
    exact .checked hc
  | none =>
    cases hb : body i s with
    | raised c u =>
      cases (exec_of_body_raised hf hc hb).symm.trans h
      exact .raised hc hb
    | done u =>
      cases (exec_of_body_done hf hc hb).symm.trans h
      exact .answered hc hb

/-! ## The checks (40_system_commands.md R80 steps 2 to 5) -/

/-- The check that fails, and its cause. -/
theorem check_eq_some {i : Instr} {s : State} {c : FaultCause} (h : check i s = some c) :
    (i.wellFormed = false ∧ c = .illegal) ∨ (addressOk i = false ∧ c = .addr) ∨
      (legal i s.phase s.nextch = false ∧ c = .seq) ∨ precondition i s = some c := by
  unfold check at h
  split at h
  next hw => exact .inl ⟨hw, (Option.some.inj h).symm⟩
  next =>
    split at h
    next ha => exact .inr (.inl ⟨ha, (Option.some.inj h).symm⟩)
    next =>
      split at h
      next hl => exact .inr (.inr (.inl ⟨hl, (Option.some.inj h).symm⟩))
      next => exact .inr (.inr (.inr h))

/-- Only SOI and RDTBL have a precondition. -/
theorem precondition_eq_some {i : Instr} {s : State} {c : FaultCause} (h : precondition i s = some c) :
    (i = .soi ∧ (c = .tblInvalid ∨ c = .cfg)) ∨ (∃ sel idx, i = .rdtbl sel idx) ∧ c = .tblInvalid := by
  cases i with
  | soi =>
    refine .inl ⟨rfl, ?_⟩
    simp only [precondition] at h
    split at h
    next => exact .inl (Option.some.inj h).symm
    next =>
      split at h
      next => exact .inr (Option.some.inj h).symm
      next => cases h
  | rdtbl sel idx =>
    refine .inr ⟨⟨sel, idx, rfl⟩, ?_⟩
    simp only [precondition] at h
    split at h
    next => exact (Option.some.inj h).symm
    next => cases h
  | nop | reset | wrreg | rdreg | bldqt | bldht | wbits | wbyte | wword | align | sync | app0 | dqt | sof0 | dht | sos
  | eoi | encmcu | encdu | enccoef => cases h

/-- The causes the checks name (60_exceptions.md R173: the precise ones but SRC_READ). -/
theorem check_cause {i : Instr} {s : State} {c : FaultCause} (h : check i s = some c) :
    c = .illegal ∨ c = .addr ∨ c = .seq ∨ c = .tblInvalid ∨ c = .cfg := by
  rcases check_eq_some h with ⟨-, rfl⟩ | ⟨-, rfl⟩ | ⟨-, rfl⟩ | hp
  · simp
  · simp
  · simp
  · rcases precondition_eq_some hp with ⟨-, rfl | rfl⟩ | ⟨-, rfl⟩ <;> simp

/-- The table of legal phases, in both forms (40_system_commands.md R86). -/
theorem legal_iff {i : Instr} {p : Phase} {next : Channel} : legal i p next = true ↔ IsLegal i p next := by
  cases i with
  | nop | reset | rdreg | rdtbl | sync => cases p <;> simp [legal, IsLegal, legalPhases, needsChannel]
  | encmcu | align => simp [legal, IsLegal, legalPhases, needsChannel, eq_comm (a := Channel.y)]
  | encdu | enccoef | wrreg | bldqt | bldht | soi | app0 | dqt | sof0 | dht | sos | eoi | wbits | wbyte | wword =>
    simp [legal, IsLegal, legalPhases, needsChannel]

theorem legal_of_check {i : Instr} {s : State} (h : check i s = none) : IsLegal i s.phase s.nextch :=
  legal_iff.mp (check_eq_none.mp h).2.2.1

theorem check_eq_none_of_legal {i : Instr} {s : State} (hw : i.wellFormed = true) (ha : addressOk i = true)
    (hl : IsLegal i s.phase s.nextch) (hp : precondition i s = none) : check i s = none :=
  check_eq_none.mpr ⟨hw, ha, legal_iff.mpr hl, hp⟩

/-- Where something is legal, the core is not in the FAULT phase. -/
theorem not_fault_of_legal {i : Instr} {p : Phase} {next : Channel} (h : IsLegal i p next) : p ≠ .fault := by
  rintro rfl
  obtain ⟨hp, -⟩ := h
  cases i <;> simp [legalPhases] at hp

/-! ## Who took the fault -/

theorem code_ne_zero (c : FaultCause) : c.code ≠ 0 := by cases c <;> decide

theorem cause_eq_of_faultTaken {c d : FaultCause} {s u : State} (h : FaultTaken c s (takeFault d u)) : c = d :=
  (Option.some.inj h.fault).symm

theorem not_faultTaken_answered {c : FaultCause} {data : Word32} {s u : State} (hr : u.rsp = s.rsp) :
    ¬ FaultTaken c s (answered data u) := by
  intro h
  have : u.rsp ++ [⟨0, data⟩] = u.rsp ++ [⟨c.code, 0⟩] := h.rsp.trans (by rw [hr])
  simp only [List.append_cancel_left_eq, List.cons.injEq, Response.mk.injEq] at this
  exact code_ne_zero c this.1.1.symm

end Sys2Proof.Machine
end

section
/-! The host's acts, RESET, the FAULT phase, STATUS and RDTBL (10_state.md R17; 40_system_commands.md R82, R85;
60_exceptions.md R161, R174, R175; 70_reset_and_hazards.md R185 to R187). -/

namespace Sys2Proof.Machine

open Sys2Proof.Safety Sys2Proof.Reference

/-! ## One step, by the host's act -/

section
variable {s : State} {rest : List HostEvent} {w : Word32}

theorem step_idle (h : s.inputs = []) : step s = .next s := by
  simp only [step, h]

theorem step_rst (h : s.inputs = .rst :: rest) : step s = .next (doReset { s with inputs := rest }) := by
  simp only [step, h]

theorem step_takeOut (h : s.inputs = .takeOut :: rest) : step s = .next (takeOut { s with inputs := rest }) := by
  simp only [step, h]

theorem step_command {i : Instr} (h : s.inputs = .cmd w :: rest) (hd : decode w = .ok i) :
    step s = exec i { s with inputs := rest } := by
  simp only [step, h, hd]

theorem step_reserved {r : Reserved} (h : s.inputs = .cmd w :: rest) (hd : decode w = .error r) :
    step s = .next (reservedWord { s with inputs := rest }) := by
  simp only [step, h, hd]

end

theorem reservedWord_of_not_fault {s : State} (hf : s.phase ≠ .fault) : reservedWord s = takeFault .illegal s := if_neg hf

theorem reservedWord_in_fault {s : State} (hf : s.phase = .fault) : reservedWord s = refuseInFault s := if_pos hf

/-- A word of no row is reserved. -/
theorem decode_error_of_no_row {w : Word32} (h : ∀ r ∈ opcodeRows, ¬ r.holds w) : ∃ e, decode w = .error e := by
  cases hd : decode w with
  | error e => exact ⟨e, rfl⟩
  | ok i =>
    obtain ⟨r, hr, holds⟩ := (legalWordsAreTableRows w).1.mp ⟨i, hd⟩
    exact absurd holds (h r hr)

/-- Settles O5: the first act of the queue is a command word that decodes. -/
theorem stepRunsDecodedCommand : Obligations.StepRunsDecodedCommand := by
  unfold Obligations.StepRunsDecodedCommand
  exact fun s w rest i => step_command

/-- Settles O6: such a word does not decode, and outside the FAULT phase a reserved word takes ILLEGAL. -/
theorem reservedWordIsIllegal : Obligations.ReservedWordIsIllegal := by
  unfold Obligations.ReservedWordIsIllegal
  intro s w rest hin hf hrow
  obtain ⟨e, he⟩ := decode_error_of_no_row hrow
  have hs : step s = .next (takeFault .illegal { s with inputs := rest }) := by
    rw [step_reserved hin he, reservedWord_of_not_fault (by exact hf)]
  exact ⟨_, hs, ⟨rfl, rfl, rfl, rfl⟩, ⟨rfl, rfl, rfl, rfl⟩, rfl⟩

/-! ## Reset (70_reset_and_hazards.md R185, R187) -/

theorem afterReset_doReset (s : State) : AfterReset (doReset s) where
  phase := rfl
  fault := rfl
  fphase := rfl
  qtValid := rfl
  htValid := rfl
  duValid := rfl
  nextch := rfl
  blkcnt := rfl
  width := rfl
  height := rfl
  scale := rfl
  dcp := fun c => by simp
  acc := rfl
  nbits := rfl
  sbcur := rfl

theorem hostSideKept_doReset (s : State) : HostSideKept s (doReset s) := ⟨rfl, rfl, rfl, rfl, rfl, rfl, rfl⟩

/-- A response does not undo a reset. -/
theorem afterReset_respond {s : State} (h : AfterReset s) (st : BitVec 4) (data : Word32) : AfterReset (respond st data s) :=
  ⟨h.phase, h.fault, h.fphase, h.qtValid, h.htValid, h.duValid, h.nextch, h.blkcnt, h.width, h.height, h.scale, h.dcp,
    h.acc, h.nbits, h.sbcur⟩

/-- RESET executes in every phase. -/
theorem exec_reset (s : State) : exec .reset s = .next (respond 0 0 (doReset s)) := by
  by_cases hf : s.phase = .fault
  · exact exec_in_fault hf
  · exact exec_of_body_done hf (check_eq_none.mpr ⟨rfl, rfl, by simp [legal, hf], rfl⟩) rfl

/-- Settles O7: a step with no act, on rst, and on taking OUT. -/
theorem hostActsBetweenCommands : Obligations.HostActsBetweenCommands := by
  unfold Obligations.HostActsBetweenCommands
  exact ⟨fun s => step_idle, fun s rest h => ⟨_, step_rst h, afterReset_doReset _, hostSideKept_doReset _, rfl⟩,
    fun s rest => step_takeOut⟩

/-- Settles O9: in the FAULT phase the gate resets, elsewhere the command's pseudocode does. -/
theorem resetCommand : Obligations.ResetCommand := by
  unfold Obligations.ResetCommand
  exact fun s => ⟨_, exec_reset s, afterReset_respond (afterReset_doReset s) 0 0,
    ⟨rfl, rfl, rfl, rfl, rfl, rfl, rfl⟩, rfl⟩

/-- Settles O10: the values of State.reset, field by field. -/
theorem resetState : Obligations.ResetState := by
  unfold Obligations.ResetState
  refine ⟨⟨rfl, rfl, rfl, rfl, rfl, rfl, rfl, rfl, rfl, rfl, rfl, fun c => ?dcp, rfl, rfl, rfl⟩, by decide⟩
  case dcp => simp [State.reset]

/-! ## STATUS (10_state.md R17) -/

/-- The number of two fields put together. -/
theorem toNat_append_eq {m n : Nat} (x : BitVec m) (y : BitVec n) : (x ++ y).toNat = x.toNat * 2 ^ n + y.toNat := by
  rw [BitVec.toNat_append, ← Nat.shiftLeft_add_eq_or_of_lt y.isLt, Nat.shiftLeft_eq]

theorem flagBit_toNat (b : Bool) : (flagBit b).toNat = b.toNat := by cases b <;> rfl

theorem channelBits_toNat (c : Channel) : (Sys2Proof.channelBits c).toNat = (chanIdx c).val := by cases c <;> rfl

theorem statusInFault_toNat (s : State) :
    (statusInFault s).toNat = 15 + (faultField s.fault).toNat * 2 ^ 8 + s.fphase.code.toNat * 2 ^ 12 := by
  have phase : Phase.fault.code.toNat = 15 := rfl
  simp only [statusInFault, toNat_append_eq, phase, BitVec.ofNat_eq_ofNat, BitVec.toNat_ofNat]
  omega

theorem statusFields_toNat (s : State) :
    (statusFields s).toNat =
      s.phase.code.toNat + s.qtValid.toNat * 2 ^ 4 + s.htValid.toNat * 2 ^ 5 + (chanIdx s.nextch).val * 2 ^ 6 +
        (faultField s.fault).toNat * 2 ^ 8 + s.fphase.code.toNat * 2 ^ 12 + s.stream.nbits.toNat * 2 ^ 16 +
        s.duValid.toNat * 2 ^ 19 + s.stream.acc.toNat * 2 ^ 24 := by
  simp only [statusFields, toNat_append_eq, flagBit_toNat, channelBits_toNat, BitVec.ofNat_eq_ofNat,
    BitVec.toNat_ofNat]
  omega

/-- Settles O13: the fields stand side by side. -/
theorem statusLayout : Obligations.StatusLayout := by
  unfold Obligations.StatusLayout
  intro s
  by_cases hf : s.phase = .fault
  · rw [statusWord, if_pos hf, if_pos hf, statusInFault_toNat]
  · rw [statusWord, if_neg hf, if_neg hf, statusFields_toNat]

/-! ## The FAULT phase (60_exceptions.md R174, R175) -/

theorem faultGate_of_refused {i : Instr} (hn : i ≠ .nop) (hr : i ≠ .reset) (hs : i ≠ .rdreg 0x00) (s : State) :
    faultGate i s = refuseInFault s := by
  rw [faultGate, if_neg hn, if_neg hr, if_neg hs]

section
variable {s : State} {w : Word32} {rest : List HostEvent}

theorem step_nop_word (hin : s.inputs = .cmd 0x00000000 :: rest) :
    step s = .next (answered 0 { s with inputs := rest }) := by
  rw [step_command hin (i := .nop) rfl, exec_nop]

theorem step_reset_word (hin : s.inputs = .cmd 0x01000000 :: rest) :
    step s = .next (respond 0 0 (doReset { s with inputs := rest })) := by
  rw [step_command hin (i := .reset) rfl, exec_reset]

theorem step_status_in_fault (hf : s.phase = .fault) (hin : s.inputs = .cmd 0x03000000 :: rest) :
    step s = .next (answered (statusInFault s) { s with inputs := rest }) := by
  rw [step_command hin (i := .rdreg 0) rfl, exec_in_fault (by exact hf)]
  rfl

/-- Every other word is refused, reserved or not: only one word encodes each of the three commands. -/
theorem step_refused_in_fault (hf : s.phase = .fault) (hin : s.inputs = .cmd w :: rest) (hn : w ≠ 0x00000000)
    (hr : w ≠ 0x01000000) (hs : w ≠ 0x03000000) : step s = .next (refuseInFault { s with inputs := rest }) := by
  cases hd : decode w with
  | error e => rw [step_reserved hin hd, reservedWord_in_fault (by exact hf)]
  | ok i =>
    obtain ⟨-, rfl⟩ := decode_sound hd
    rw [step_command hin hd, exec_in_fault (by exact hf), faultGate_of_refused]
    · rintro rfl; exact hn rfl
    · rintro rfl; exact hr rfl
    · rintro rfl; exact hs rfl

end

/-- Settles O49: the three words, and the refusal of all others. -/
theorem faultPhaseRule : Obligations.FaultPhaseRule := by
  unfold Obligations.FaultPhaseRule
  intro s w rest hf hin
  refine ⟨?nop, ?reset, ?status, step_refused_in_fault hf hin⟩
  case nop =>
    rintro rfl
    exact step_nop_word hin
  case reset =>
    rintro rfl
    exact ⟨_, step_reset_word hin, afterReset_respond (afterReset_doReset _) 0 0,
      ⟨rfl, rfl, rfl, rfl, rfl, rfl, rfl⟩, rfl⟩
  case status =>
    rintro rfl
    have value := statusInFault_toNat s
    norm_num at value
    rw [step_status_in_fault hf hin, ← value, BitVec.ofNat_toNat, BitVec.setWidth_eq]

/-- A step in the FAULT phase that is neither a reset keeps FAULT and FPHASE and the phase. -/
theorem step_in_fault {s t : State} (hf : s.phase = .fault) (h : step s = .next t) :
    ((∃ rest, s.inputs = .rst :: rest ∨ s.inputs = .cmd 0x01000000 :: rest) ∧ AfterReset t) ∨
      (t.phase = .fault ∧ t.fault = s.fault ∧ t.fphase = s.fphase) := by
  match hin : s.inputs with
  | [] =>
    cases (step_idle hin).symm.trans h
    exact .inr ⟨hf, rfl, rfl⟩
  | .rst :: rest =>
    cases (step_rst hin).symm.trans h
    exact .inl ⟨⟨rest, .inl rfl⟩, afterReset_doReset _⟩
  | .takeOut :: rest =>
    cases (step_takeOut hin).symm.trans h
    exact .inr ⟨hf, rfl, rfl⟩
  | .cmd w :: rest =>
    by_cases hn : w = 0x00000000
    · subst hn
      cases (step_nop_word hin).symm.trans h
      exact .inr ⟨hf, rfl, rfl⟩
    by_cases hr : w = 0x01000000
    · subst hr
      cases (step_reset_word hin).symm.trans h
      exact .inl ⟨⟨rest, .inr rfl⟩, afterReset_respond (afterReset_doReset _) 0 0⟩
    by_cases hs : w = 0x03000000
    · subst hs
      cases (step_status_in_fault hf hin).symm.trans h
      exact .inr ⟨hf, rfl, rfl⟩
    cases (step_refused_in_fault hf hin hn hr hs).symm.trans h
    exact .inr ⟨hf, rfl, rfl⟩

/-- Settles O50: of the steps in the FAULT phase only the two resets leave it. -/
theorem onlyResetLeavesFault : Obligations.OnlyResetLeavesFault := by
  unfold Obligations.OnlyResetLeavesFault
  refine fun s hf => ⟨fun t h ht => ?leaves, fun t h ht => ?stays, ?resets⟩
  case leaves =>
    rcases step_in_fault hf h with reset | ⟨stays, -⟩
    · exact reset
    · exact absurd stays ht
  case stays =>
    rcases step_in_fault hf h with ⟨-, reset⟩ | ⟨-, kept⟩
    · exact absurd ht (by rw [reset.phase]; decide)
    · exact kept
  case resets =>
    rintro rest (hin | hin)
    · exact ⟨_, step_rst hin, afterReset_doReset _⟩
    · exact ⟨_, step_reset_word hin, afterReset_respond (afterReset_doReset _) 0 0⟩

/-! ## RDTBL (40_system_commands.md R85) -/

theorem index64_ofNat (k : Fin 64) : index64 (BitVec.ofNat 8 k.val) = k :=
  Fin.ext (by simp only [index64, BitVec.toNat_ofNat]; omega)

theorem ofNat_toFin (k : Fin 256) : (BitVec.ofNat 8 k.val).toFin = k :=
  Fin.ext (Nat.mod_eq_of_lt k.isLt)

theorem huffWord_eq (e : HuffEntry) : huffWord e = BitVec.ofNat 32 (e.len.toNat * 65536 + e.code.toNat) := by
  apply BitVec.eq_of_toNat_eq
  simp only [huffWord, toNat_append_eq, BitVec.ofNat_eq_ofNat, BitVec.toNat_ofNat]
  omega

/-- The window's valid bit is the one check that RDTBL can fail. -/
theorem check_rdtbl {sel : Window} {idx : BitVec 8} {s : State} (hf : s.phase ≠ .fault) (hi : idx.toNat < sel.entries) :
    check (.rdtbl sel idx) s = if windowValid sel s = false then some .tblInvalid else none := by
  have wellFormed : (Instr.rdtbl sel idx).wellFormed = true := decide_eq_true hi
  have legal : legal (.rdtbl sel idx) s.phase s.nextch = true := decide_eq_true hf
  simp [check, wellFormed, addressOk, legal, precondition]

theorem exec_rdtbl {sel : Window} {idx : BitVec 8} {s : State} (hf : s.phase ≠ .fault) (hi : idx.toNat < sel.entries)
    (hv : windowValid sel s = true) : exec (.rdtbl sel idx) s = .next (answered (readWindow sel idx s) s) :=
  exec_of_body_done hf (by rw [check_rdtbl hf hi, hv]; rfl) rfl

theorem exec_rdtbl64 {sel : Window} {s : State} {value : Word32} {k : Fin 64} (hf : s.phase ≠ .fault)
    (hs : sel.entries = 64) (hv : windowValid sel s = true) (hr : readWindow sel (BitVec.ofNat 8 k.val) s = value) :
    exec (.rdtbl sel (BitVec.ofNat 8 k.val)) s = .next (answered value s) := by
  rw [exec_rdtbl hf (by rw [hs, BitVec.toNat_ofNat]; omega) hv, hr]

theorem exec_rdtbl256 {sel : Window} {s : State} {value : Word32} {k : Fin 256} (hf : s.phase ≠ .fault)
    (hs : sel.entries = 256) (hv : windowValid sel s = true) (hr : readWindow sel (BitVec.ofNat 8 k.val) s = value) :
    exec (.rdtbl sel (BitVec.ofNat 8 k.val)) s = .next (answered value s) := by
  rw [exec_rdtbl hf (by rw [hs]; exact BitVec.isLt _) hv, hr]

/-- Settles O14: the one check left decides on the valid bit, and each window is read at the index given. -/
theorem rdtblRule : Obligations.RdtblRule := by
  unfold Obligations.RdtblRule
  intro s hf
  refine ⟨fun k hv => ?qt, fun k hv => ?ht, fun k hv => ?unit, fun sel idx hi hv => ?invalid⟩
  case qt =>
    constructor <;> refine exec_rdtbl64 hf rfl hv ?_ <;> simp only [readWindow, index64_ofNat]
    all_goals exact (BitVec.ofNat_toNat 32 _).symm
  case ht =>
    refine ⟨?_, ?_, ?_, ?_⟩ <;> refine exec_rdtbl256 hf rfl hv ?_ <;> simp only [readWindow, ofNat_toFin, huffWord_eq]
  case unit =>
    constructor <;> refine exec_rdtbl64 hf rfl hv ?_ <;> simp only [readWindow, index64_ofNat] <;> rfl
  case invalid =>
    have hbit : windowValid sel s = false := by
      rcases hv with ⟨rfl | rfl, h⟩ | ⟨rfl | rfl | rfl | rfl, h⟩ | ⟨rfl | rfl, h⟩ <;> exact h
    exact ⟨_, exec_checked hf (by rw [check_rdtbl hf hi, if_pos hbit]), faultTaken_takeFault _ s, precise_takeFault _ s⟩

/-! ## BLDHT (41_table_builder.md R92) -/

theorem anyMalformed_eq_true {hspec : Vector HuffSpec 4} :
    anyMalformed hspec = true ↔ ∃ t : Fin 4, malformed hspec[t] = true := by
  simp only [anyMalformed, List.any_eq_true, Vector.mem_toList_iff, Vector.mem_iff_getElem]
  constructor
  · rintro ⟨-, ⟨n, hn, rfl⟩, h⟩
    exact ⟨⟨n, hn⟩, h⟩
  · rintro ⟨t, h⟩
    exact ⟨_, ⟨t.val, t.isLt, rfl⟩, h⟩

theorem check_bldht {s : State} (hp : s.phase = .idle ∨ s.phase = .done) : check .bldht s = none :=
  check_eq_none.mpr ⟨rfl, rfl, decide_eq_true hp, rfl⟩

/-- Settles O16: BLDHT is legal in the two phases, and its pseudocode asks first whether a specification is malformed. -/
theorem bldhtBuilds : Obligations.BldhtBuilds := by
  unfold Obligations.BldhtBuilds
  intro s hp
  have hf : s.phase ≠ .fault := by rcases hp with h | h <;> simp [h]
  refine ⟨fun good => ?builds, fun bad => ?faults⟩
  case builds =>
    have hm : ¬ anyMalformed s.build.hspec = true := by
      rw [anyMalformed_eq_true]
      rintro ⟨t, ht⟩
      rw [good t] at ht
      cases ht
    exact exec_of_body_done hf (check_bldht hp) (if_neg hm)
  case faults =>
    refine ⟨_, exec_of_body_raised hf (check_bldht hp) (if_pos (anyMalformed_eq_true.mpr bad)), ?_⟩
    exact faultTaken_takeFault .hspecBad s

end Sys2Proof.Machine
end

section
/-! The output path with a host that may refuse: every piece of pseudocode that writes entropy-coded data is a run of single
bits, and every piece that writes bytes a run of SinkAppend, so what holds of these holds of all (20_memory.md R43, R44;
44_bit_writer.md R130, R131). -/

namespace Sys2Proof.Machine

open Sys2Proof.Safety Sys2Proof.Reference

/-! ## Which causes a piece can raise -/

/-- The run raises no fault but those of the list. -/
def RaisesOnly {α : Type} (causes : List FaultCause) (r : Run α) : Prop := ∀ c a, r = .raised c a → c ∈ causes

theorem raisesOnly_done {α : Type} {causes : List FaultCause} (a : α) : RaisesOnly causes (.done a) := by
  intro c b h
  cases h

theorem RaisesOnly.andThen {α : Type} {causes : List FaultCause} {r : Run α} {k : α → Run α}
    (h : RaisesOnly causes r) (hk : ∀ a, RaisesOnly causes (k a)) : RaisesOnly causes (r.andThen k) := by
  cases r with
  | done a => exact hk a
  | raised c a => exact h

theorem RaisesOnly.map {α β : Type} {causes : List FaultCause} {r : Run α} (f : α → β)
    (h : RaisesOnly causes r) : RaisesOnly causes (r.map f) := by
  intro c b hr
  cases r with
  | done a => cases hr
  | raised d a =>
    cases hr
    exact h _ a rfl

theorem RaisesOnly.mono {α : Type} {causes more : List FaultCause} {r : Run α} (h : RaisesOnly causes r)
    (hsub : causes ⊆ more) : RaisesOnly more r := fun c a hr => hsub (h c a hr)

theorem raisesOnly_drain (st : Stream) : RaisesOnly [.sinkWrite] (drain st) := by
  intro c a h
  rcases drain_cases st with ⟨-, hd⟩ | ⟨-, -, hd⟩ | ⟨-, -, hd⟩ <;> cases hd.symm.trans h
  exact List.mem_singleton_self _

theorem raisesOnly_sinkAppend (cap : Nat) (b : Byte) (st : Stream) : RaisesOnly [.sinkWrite] (sinkAppend cap b st) := by
  unfold sinkAppend
  split
  · exact raisesOnly_drain _
  · exact raisesOnly_done _

theorem raisesOnly_appendBytes (cap : Nat) (l : List Byte) (st : Stream) :
    RaisesOnly [.sinkWrite] (appendBytes cap l st) := by
  induction l generalizing st with
  | nil => exact raisesOnly_done st
  | cons b rest ih => exact (raisesOnly_sinkAppend cap b st).andThen ih

theorem raisesOnly_putDataByte (cap : Nat) (b : Byte) (st : Stream) :
    RaisesOnly [.sinkWrite] (putDataByte cap b st) := by
  refine (raisesOnly_sinkAppend cap b st).andThen fun st' => ?_
  split
  · exact raisesOnly_sinkAppend cap 0x00 st'
  · exact raisesOnly_done st'

theorem raisesOnly_writeBit (cap : Nat) (bit : Bool) (st : Stream) : RaisesOnly [.sinkWrite] (writeBit cap bit st) := by
  unfold writeBit
  dsimp only
  split
  · exact raisesOnly_putDataByte cap _ _
  · exact raisesOnly_done _

theorem raisesOnly_writeBits (cap code n : Nat) (st : Stream) : RaisesOnly [.sinkWrite] (writeBits cap code n st) := by
  induction n generalizing st with
  | zero => exact raisesOnly_done st
  | succ k ih => exact (raisesOnly_writeBit cap _ st).andThen ih

theorem raisesOnly_alignBits (cap : Nat) (st : Stream) : RaisesOnly [.sinkWrite] (alignBits cap st) := by
  unfold alignBits
  split
  · exact raisesOnly_done st
  · exact raisesOnly_writeBits cap _ _ st

/-! ## Runs of bits -/

/-- One bit was written. -/
def BitWritten (cap : Nat) (st st' : Stream) : Prop := ∃ bit, writeBit cap bit st = .done st'

/-- Some bits were written. -/
abbrev BitsWritten (cap : Nat) : Stream → Stream → Prop := Relation.ReflTransGen (BitWritten cap)

/-- The run writes bits, and ends after them, or at a symbol without a code, or inside the next bit. -/
inductive BitRun (cap : Nat) (st : Stream) : Run Stream → Prop
  | done {st' : Stream} (h : BitsWritten cap st st') : BitRun cap st (.done st')
  | uncoded {st' : Stream} (h : BitsWritten cap st st') : BitRun cap st (.raised .uncoded st')
  | stopped {st1 st' : Stream} {bit : Bool} {c : FaultCause} (h : BitsWritten cap st st1)
      (hb : writeBit cap bit st1 = .raised c st') : BitRun cap st (.raised c st')

section
variable {cap : Nat} {st : Stream}

theorem bitRun_nothing : BitRun cap st (.done st) := .done .refl

theorem bitRun_writeBit (bit : Bool) : BitRun cap st (writeBit cap bit st) := by
  cases h : writeBit cap bit st with
  | done st' => exact .done (.single ⟨bit, h⟩)
  | raised c st' => exact .stopped .refl h

theorem BitRun.after {st1 : Stream} {r : Run Stream} (h : BitsWritten cap st st1) (hr : BitRun cap st1 r) :
    BitRun cap st r := by
  cases hr with
  | done h1 => exact .done (h.trans h1)
  | uncoded h1 => exact .uncoded (h.trans h1)
  | stopped h1 hb => exact .stopped (h.trans h1) hb

theorem BitRun.andThen {r : Run Stream} {k : Stream → Run Stream} (h : BitRun cap st r)
    (hk : ∀ st', BitRun cap st' (k st')) : BitRun cap st (r.andThen k) := by
  cases h with
  | done h1 => exact (hk _).after h1
  | uncoded h1 => exact .uncoded h1
  | stopped h1 hb => exact .stopped h1 hb

theorem bitRun_writeBits (code n : Nat) (st : Stream) : BitRun cap st (writeBits cap code n st) := by
  induction n generalizing st with
  | zero => exact bitRun_nothing
  | succ k ih => exact (bitRun_writeBit _).andThen ih

theorem bitRun_alignBits : BitRun cap st (alignBits cap st) := by
  unfold alignBits
  split
  · exact bitRun_nothing
  · exact bitRun_writeBits _ _ st

theorem bitRun_emitSym (t : Vector HuffEntry 256) (sym : Nat) (st : Stream) : BitRun cap st (emitSym cap t sym st) := by
  unfold emitSym
  dsimp only
  split
  · exact .uncoded .refl
  · exact bitRun_writeBits _ _ st

theorem bitRun_encodeDc (t : Vector HuffEntry 256) (diff : Int) : BitRun cap st (encodeDc cap t diff st) := by
  refine (bitRun_emitSym t _ st).andThen fun st' => ?_
  split
  · exact bitRun_writeBits _ _ st'
  · exact bitRun_nothing

theorem bitRun_emitZrl (t : Vector HuffEntry 256) (n : Nat) (st : Stream) : BitRun cap st (emitZrl cap t n st) := by
  induction n generalizing st with
  | zero => exact bitRun_nothing
  | succ k ih => exact (bitRun_emitSym t _ st).andThen ih

theorem bitRun_encodeTerm (t : Vector HuffEntry 256) (run : Nat) (v : Int) (st : Stream) :
    BitRun cap st (encodeTerm cap t run v st) := by
  refine (bitRun_emitZrl t _ st).andThen fun st' => ?_
  dsimp only
  split
  · exact .uncoded .refl
  · exact (bitRun_emitSym t _ st').andThen fun st'' => bitRun_writeBits _ _ st''

theorem bitRun_encodeTerms (t : Vector HuffEntry 256) (l : List Int) (run : Nat) (st : Stream) :
    BitRun cap st (encodeTerms cap t run l st) := by
  induction l generalizing run st with
  | nil => exact bitRun_nothing
  | cons v rest ih =>
    unfold encodeTerms
    split
    · exact ih _ st
    · exact (bitRun_encodeTerm t run v st).andThen (ih 0)

theorem bitRun_encodeAc (t : Vector HuffEntry 256) (l : List Int) (st : Stream) :
    BitRun cap st (encodeAc cap t l st) := by
  refine (bitRun_encodeTerms t _ 0 st).andThen fun st' => ?_
  split
  · exact bitRun_emitSym t _ st'
  · exact bitRun_nothing

theorem bitRun_encodeUnit (dcTable acTable : Vector HuffEntry 256) (pred : Word16) (zzb : Vector Word16 64) :
    BitRun cap st (encodeUnit cap dcTable acTable pred zzb st) :=
  (bitRun_encodeDc dcTable _).andThen fun st' => bitRun_encodeAc acTable _ st'

theorem BitRun.raisesOnly {r : Run Stream} (h : BitRun cap st r) : RaisesOnly [.uncoded, .sinkWrite] r := by
  intro c a hr
  cases h with
  | done => cases hr
  | uncoded => cases hr; exact List.mem_cons_self
  | stopped _ hb =>
    cases hr
    exact List.mem_cons_of_mem _ (raisesOnly_writeBit _ _ _ _ _ hb)

end

/-! ## Deliveries -/

/-- The chunks `new` were offered on the way and accepted. -/
structure Accepts (new : List (List Byte)) (st st' : Stream) : Prop where
  chunks  : st'.chunks = st.chunks ++ new
  out     : st'.out = st.out ++ new.flatten
  answers : ∀ k, answerAt st' k = answerAt st (new.length + k)
  ok      : ∀ k < new.length, answerAt st k = .ok

/-- The chunks `new` were offered and accepted, then the chunk `last` was offered and refused. -/
structure Refuses (new : List (List Byte)) (last : List Byte) (st st' : Stream) : Prop where
  chunks : st'.chunks = st.chunks ++ (new ++ [last])
  out    : ∃ part, st'.out = st.out ++ new.flatten ++ part
  ok     : ∀ k < new.length, answerAt st k = .ok
  fail   : answerAt st new.length = .fail

/-- The chunks that a run offers: SINK_WRITE is the answer to a refused one and to nothing else. -/
inductive Sends (st : Stream) : List (List Byte) → Run Stream → Prop
  | done {new : List (List Byte)} {st' : Stream} (h : Accepts new st st') : Sends st new (.done st')
  | raised {new : List (List Byte)} {st' : Stream} {c : FaultCause} (hc : c ≠ .sinkWrite) (h : Accepts new st st') :
      Sends st new (.raised c st')
  | refused {new : List (List Byte)} {last : List Byte} {st' : Stream} (h : Refuses new last st st') :
      Sends st (new ++ [last]) (.raised .sinkWrite st')

theorem accepts_nothing {st st' : Stream} (hc : st'.chunks = st.chunks) (ho : st'.out = st.out)
    (ha : st'.answers = st.answers) (ht : st'.thereafter = st.thereafter) : Accepts [] st st' :=
  ⟨by simp [hc], by simp [ho], fun k => by simp [answerAt, ha, ht], by simp⟩

theorem Accepts.trans {m n : List (List Byte)} {a b c : Stream} (h : Accepts m a b) (k : Accepts n b c) :
    Accepts (m ++ n) a c := by
  refine ⟨by rw [k.chunks, h.chunks, List.append_assoc],
    by rw [k.out, h.out, List.flatten_append, List.append_assoc],
    fun j => by rw [k.answers, h.answers, List.length_append, Nat.add_assoc], fun j hj => ?_⟩
  by_cases hm : j < m.length
  · exact h.ok j hm
  · have := k.ok (j - m.length) (by rw [List.length_append] at hj; omega)
    rwa [h.answers, Nat.add_sub_cancel' (Nat.le_of_not_lt hm)] at this

theorem Accepts.refuses {m n : List (List Byte)} {last : List Byte} {a b c : Stream} (h : Accepts m a b)
    (k : Refuses n last b c) : Refuses (m ++ n) last a c := by
  obtain ⟨part, hpart⟩ := k.out
  refine ⟨by rw [k.chunks, h.chunks, List.append_assoc, List.append_assoc],
    ⟨part, by rw [hpart, h.out, List.flatten_append, ← List.append_assoc]⟩, fun j hj => ?_,
    by rw [List.length_append, ← h.answers, k.fail]⟩
  by_cases hm : j < m.length
  · exact h.ok j hm
  · have := k.ok (j - m.length) (by rw [List.length_append] at hj; omega)
    rwa [h.answers, Nat.add_sub_cancel' (Nat.le_of_not_lt hm)] at this

theorem Accepts.sends {m n : List (List Byte)} {a b : Stream} {r : Run Stream} (h : Accepts m a b)
    (hr : Sends b n r) : Sends a (m ++ n) r := by
  cases hr with
  | done k => exact .done (h.trans k)
  | raised hc k => exact .raised hc (h.trans k)
  | refused k =>
    rw [← List.append_assoc]
    exact .refused (h.refuses k)

theorem answerAt_zero (st : Stream) : answerAt st 0 = st.nextAnswer := by
  unfold answerAt Stream.nextAnswer
  cases st.answers <;> rfl

theorem drain_accepted {st : Stream} (ha : st.nextAnswer = .ok) :
    Accepts [st.sb] st { st.offer with out := st.out ++ st.sb, sb := [] } := by
  refine ⟨rfl, by simp, fun k => ?_, fun k hk => ?_⟩
  · simp [answerAt, Nat.add_comm]
  · obtain rfl : k = 0 := by simpa using hk
    rw [answerAt_zero, ha]

/-- Drain offers the buffer, if there is something in it. -/
theorem drain_sends (st : Stream) : st.sb = [] ∧ Sends st [] (drain st) ∨ st.sb ≠ [] ∧ Sends st [st.sb] (drain st) := by
  rcases drain_cases st with ⟨he, hd⟩ | ⟨hs, ha, hd⟩ | ⟨hs, ha, hd⟩
  · rw [hd]
    exact .inl ⟨he, .done (accepts_nothing rfl rfl rfl rfl)⟩
  · rw [hd]
    exact .inr ⟨hs, .done (drain_accepted ha)⟩
  · rw [hd]
    refine .inr ⟨hs, .refused (new := []) ⟨rfl, ⟨_, by simp; rfl⟩, by simp, ?_⟩⟩
    exact (answerAt_zero st).trans ha

/-- A full sink buffer. -/
def FullChunk (cap : Nat) (c : List Byte) : Prop := c.length = cap ∧ c ≠ []

/-- The run offers full sink buffers only. -/
def SendsFull (cap : Nat) (st : Stream) (r : Run Stream) : Prop := ∃ new, Sends st new r ∧ ∀ c ∈ new, FullChunk cap c

section
variable {cap : Nat} {st : Stream}

theorem sendsFull_nothing {st' : Stream} (hc : st'.chunks = st.chunks) (ho : st'.out = st.out)
    (ha : st'.answers = st.answers) (ht : st'.thereafter = st.thereafter) : SendsFull cap st (.done st') :=
  ⟨[], .done (accepts_nothing hc ho ha ht), by simp⟩

theorem SendsFull.andThen {r : Run Stream} {k : Stream → Run Stream} (h : SendsFull cap st r)
    (hk : ∀ st', SendsFull cap st' (k st')) : SendsFull cap st (r.andThen k) := by
  obtain ⟨new, hs, hfull⟩ := h
  cases hs with
  | @done _ st' ha =>
    obtain ⟨more, hm, hmfull⟩ := hk st'
    exact ⟨new ++ more, ha.sends hm, fun c hc => (List.mem_append.mp hc).elim (hfull c) (hmfull c)⟩
  | raised hc ha => exact ⟨new, .raised hc ha, hfull⟩
  | refused hr => exact ⟨_, .refused hr, hfull⟩

theorem SendsFull.of_drained {st' : Stream} {r : Run Stream} (h : SendsFull cap st' r) (hc : st'.chunks = st.chunks)
    (ho : st'.out = st.out) (ha : st'.answers = st.answers) (ht : st'.thereafter = st.thereafter) :
    SendsFull cap st r := by
  obtain ⟨new, hs, hfull⟩ := h
  exact ⟨new, by simpa using (accepts_nothing hc ho ha ht).sends hs, hfull⟩

theorem sendsFull_sinkAppend (b : Byte) (st : Stream) : SendsFull cap st (sinkAppend cap b st) := by
  unfold sinkAppend
  split
  next hfull =>
    rcases drain_sends { st with sb := st.sb ++ [b] } with ⟨he, -⟩ | ⟨hs, hd⟩
    · simp at he
    · refine SendsFull.of_drained ⟨_, hd, fun c hc => ?_⟩ rfl rfl rfl rfl
      obtain rfl := List.mem_singleton.mp hc
      exact ⟨by simpa [Stream.sbcur] using hfull, hs⟩
  next => exact sendsFull_nothing rfl rfl rfl rfl

theorem sendsFull_appendBytes (l : List Byte) (st : Stream) : SendsFull cap st (appendBytes cap l st) := by
  induction l generalizing st with
  | nil => exact sendsFull_nothing rfl rfl rfl rfl
  | cons b rest ih => exact (sendsFull_sinkAppend b st).andThen ih

theorem sendsFull_putDataByte (b : Byte) (st : Stream) : SendsFull cap st (putDataByte cap b st) := by
  refine (sendsFull_sinkAppend b st).andThen fun st' => ?_
  split
  · exact sendsFull_sinkAppend 0x00 st'
  · exact sendsFull_nothing rfl rfl rfl rfl

theorem sendsFull_writeBit (bit : Bool) (st : Stream) : SendsFull cap st (writeBit cap bit st) := by
  unfold writeBit
  dsimp only
  split
  · exact (sendsFull_putDataByte _ { st with acc := 0, nbits := 0 }).of_drained rfl rfl rfl rfl
  · exact sendsFull_nothing rfl rfl rfl rfl

theorem BitsWritten.sendsFull {st' : Stream} (h : BitsWritten cap st st') : SendsFull cap st (.done st') := by
  induction h with
  | refl => exact sendsFull_nothing rfl rfl rfl rfl
  | tail _ hb ih =>
    obtain ⟨bit, hb⟩ := hb
    simpa [hb] using ih.andThen (sendsFull_writeBit bit)

theorem BitRun.sendsFull {r : Run Stream} (h : BitRun cap st r) : SendsFull cap st r := by
  cases h with
  | done h => exact h.sendsFull
  | @uncoded st' h => exact h.sendsFull.andThen (k := .raised .uncoded) fun st1 =>
      ⟨[], .raised (by decide) (accepts_nothing rfl rfl rfl rfl), by simp⟩
  | @stopped st1 st' bit c h hb => simpa [hb] using h.sendsFull.andThen (sendsFull_writeBit bit)

end

/-! ## The logical stream, the room in the buffer and the accumulator -/

/-- SinkAppend appends its byte to the logical stream, delivered or not. -/
theorem sinkAppend_done {cap : Nat} {b : Byte} {st st' : Stream} (h : sinkAppend cap b st = .done st') :
    st'.ls = st.ls ++ [b] ∧ st'.acc = st.acc ∧ st'.nbits = st.nbits ∧
      (st.sb.length < cap → st'.sb.length < cap) := by
  unfold sinkAppend Stream.sbcur at h
  split at h
  next hcap =>
    rcases drain_cases { st with sb := st.sb ++ [b] } with ⟨he, -⟩ | ⟨-, -, hd⟩ | ⟨-, -, hd⟩
    · simp at he
    · cases hd.symm.trans h
      exact ⟨by simp [Stream.ls], rfl, rfl, fun _ => by simp; omega⟩
    · cases hd.symm.trans h
  next hcap =>
    cases h
    exact ⟨by simp [Stream.ls], rfl, rfl, fun hroom => by simp; omega⟩

theorem appendBytes_done {cap : Nat} {l : List Byte} {st st' : Stream} (h : appendBytes cap l st = .done st') :
    st'.ls = st.ls ++ l ∧ st'.acc = st.acc ∧ st'.nbits = st.nbits ∧
      (st.sb.length < cap → st'.sb.length < cap) := by
  induction l generalizing st with
  | nil =>
    cases h
    exact ⟨by simp, rfl, rfl, id⟩
  | cons b rest ih =>
    obtain ⟨st1, h1, h2⟩ := Run.andThen_eq_done.mp h
    obtain ⟨ls1, acc1, nbits1, room1⟩ := sinkAppend_done h1
    obtain ⟨ls2, acc2, nbits2, room2⟩ := ih h2
    exact ⟨by rw [ls2, ls1, List.append_assoc]; rfl, acc2.trans acc1, nbits2.trans nbits1, room2 ∘ room1⟩

theorem putDataByte_done {cap : Nat} {b : Byte} {st st' : Stream} (h : putDataByte cap b st = .done st') :
    st'.ls = st.ls ++ stuffed [b] ∧ st'.acc = st.acc ∧ st'.nbits = st.nbits ∧
      (st.sb.length < cap → st'.sb.length < cap) := by
  obtain ⟨st1, h1, h2⟩ := Run.andThen_eq_done.mp h
  obtain ⟨ls1, acc1, nbits1, room1⟩ := sinkAppend_done h1
  split at h2
  next hb =>
    obtain ⟨ls2, acc2, nbits2, room2⟩ := sinkAppend_done h2
    exact ⟨by rw [ls2, ls1, stuffed, if_pos hb, List.append_assoc]; rfl, acc2.trans acc1, nbits2.trans nbits1,
      room2 ∘ room1⟩
  next hb =>
    cases h2
    exact ⟨by rw [ls1, stuffed, if_neg hb]; rfl, acc1, nbits1, room1⟩

/-- What one bit does, whatever ACC holds. -/
theorem writeBit_done {cap : Nat} {bit : Bool} {st st' : Stream} (h : writeBit cap bit st = .done st') :
    (∃ l, st'.ls = st.ls ++ stuffed l) ∧ (st.sb.length < cap → st'.sb.length < cap) ∧ (Tidy st → Tidy st') ∧
      st'.nbits = st.nbits + 1 := by
  unfold writeBit at h
  dsimp only at h
  split at h
  next hn =>
    obtain ⟨ls, acc, nbits, room⟩ := putDataByte_done h
    exact ⟨⟨_, ls⟩, room, fun _ => by simp [Tidy, acc], by rw [nbits, hn]; rfl⟩
  next hn =>
    cases h
    refine ⟨⟨[], by simp [Stream.ls, stuffed]⟩, id, fun tidy => ?_, rfl⟩
    have step := accumulator_step st.acc st.nbits bit tidy
    rw [if_neg hn] at step
    exact step.1

/-- What a run of bits does: it adds stuffed bytes, and keeps room in the buffer and the free bits of ACC at 0. -/
theorem BitsWritten.keeps {cap : Nat} {st st' : Stream} (h : BitsWritten cap st st') :
    (∃ l, st'.ls = st.ls ++ stuffed l) ∧ (st.sb.length < cap → st'.sb.length < cap) ∧ (Tidy st → Tidy st') := by
  induction h with
  | refl => exact ⟨⟨[], by simp [stuffed]⟩, id, id⟩
  | tail _ hb ih =>
    obtain ⟨bit, hb⟩ := hb
    obtain ⟨⟨l1, ls1⟩, room1, tidy1⟩ := ih
    obtain ⟨⟨l2, ls2⟩, room2, tidy2, -⟩ := writeBit_done hb
    exact ⟨⟨l1 ++ l2, by rw [ls2, ls1, stuffed_append, List.append_assoc]⟩, room2 ∘ room1, tidy2 ∘ tidy1⟩

theorem BitRun.of_done {cap : Nat} {st st' : Stream} (h : BitRun cap st (.done st')) : BitsWritten cap st st' := by
  cases h with
  | done h => exact h

theorem writeBits_nbits {cap code n : Nat} {st st' : Stream} (h : writeBits cap code n st = .done st') :
    st'.nbits = st.nbits + BitVec.ofNat 3 n := by
  induction n generalizing st with
  | zero =>
    cases h
    simp
  | succ k ih =>
    obtain ⟨st1, h1, h2⟩ := Run.andThen_eq_done.mp h
    obtain ⟨-, -, -, hn⟩ := writeBit_done h1
    rw [ih h2, hn, BitVec.add_assoc, Nat.add_comm k 1, BitVec.ofNat_add]
    rfl

/-- Align leaves no bit pending. -/
theorem alignBits_nbits {cap : Nat} {st st' : Stream} (h : alignBits cap st = .done st') : st'.nbits = 0 := by
  unfold alignBits at h
  split at h
  next hn =>
    cases h
    exact hn
  next =>
    rw [writeBits_nbits h]
    have complement : ∀ n : BitVec 3, n + BitVec.ofNat 3 (8 - n.toNat) = 0 := by decide
    exact complement st.nbits

/-- With no bit pending and its free bits 0, ACC is 0. -/
theorem acc_eq_zero {st : Stream} (ht : Tidy st) (hn : st.nbits = 0) : st.acc = 0 := by
  apply BitVec.eq_of_toNat_eq
  have := st.acc.isLt
  simpa [Tidy, hn, Nat.mod_eq_of_lt this] using ht

/-! ## Stuffed bytes hold no marker (44_bit_writer.md R140) -/

/-- Behind a byte that is no marker's first half comes what is free of markers. -/
theorem markerFree_cons {b : Byte} {l : List Byte} (hb : b ≠ 0xFF) (hl : markerFree l = true) :
    markerFree (b :: l) = true := by
  cases l with
  | nil => exact decide_eq_true hb
  | cons c rest =>
    rw [markerFree, hl, Bool.and_true]
    exact decide_eq_true fun h => absurd h hb

theorem markerFree_stuffed (l : List Byte) : markerFree (stuffed l) = true := by
  induction l with
  | nil => rfl
  | cons b rest ih =>
    rw [stuffed]
    split
    next hb =>
      rw [markerFree, markerFree_cons (by decide) ih, Bool.and_true]
      exact decide_eq_true fun _ => rfl
    next hb => exact markerFree_cons hb ih

end Sys2Proof.Machine
end

section
/-! The pseudocode of every command: which phase it leaves, which fields it keeps, which faults it raises, which chunks it
offers. The obligations on all 22 commands follow with the three ways a command ends. -/

namespace Sys2Proof.Machine

open Sys2Proof.Safety Sys2Proof.Reference

/-! ## The state that a run leaves -/

/-- What the run had done when it ended, with a fault or without. -/
def Run.state {α : Type} : Run α → α
  | .done a => a
  | .raised _ a => a

@[simp] theorem Run.state_done {α : Type} (a : α) : (Run.done a).state = a := rfl
@[simp] theorem Run.state_raised {α : Type} (c : FaultCause) (a : α) : (Run.raised c a).state = a := rfl

/-- What no command but RESET, WRREG, BLDQT and BLDHT writes: the tables, their valid bits, the registers, and what is not a
command's at all. -/
structure Kept (s u : State) : Prop where
  fault   : u.fault = s.fault
  fphase  : u.fphase = s.fphase
  qtValid : u.qtValid = s.qtValid
  htValid : u.htValid = s.htValid
  width   : u.width = s.width
  height  : u.height = s.height
  scale   : u.scale = s.scale
  qt      : u.qt = s.qt
  ht      : u.ht = s.ht
  inputs  : u.inputs = s.inputs
  rsp     : u.rsp = s.rsp
  build   : u.build = s.build

theorem kept_refl (s : State) : Kept s s := ⟨rfl, rfl, rfl, rfl, rfl, rfl, rfl, rfl, rfl, rfl, rfl, rfl⟩

theorem Kept.trans {a b c : State} (h : Kept a b) (k : Kept b c) : Kept a c :=
  ⟨k.fault.trans h.fault, k.fphase.trans h.fphase, k.qtValid.trans h.qtValid, k.htValid.trans h.htValid,
    k.width.trans h.width, k.height.trans h.height, k.scale.trans h.scale, k.qt.trans h.qt, k.ht.trans h.ht,
    k.inputs.trans h.inputs, k.rsp.trans h.rsp, k.build.trans h.build⟩

/-- A run that raises a fault leaves PHASE at `p`, one that ends leaves it at `q`. -/
def Phases (p q : Phase) : Run State → Prop
  | .done u => u.phase = q
  | .raised _ u => u.phase = p

theorem Phases.andThen {p q : Phase} {r : Run State} {k : State → Run State} (h : Phases p p r)
    (hk : ∀ u, u.phase = p → Phases p q (k u)) : Phases p q (r.andThen k) := by
  cases r with
  | done u => exact hk u h
  | raised c u => exact h

theorem Kept.andThen {s : State} {r : Run State} {k : State → Run State} (h : Kept s r.state)
    (hk : ∀ u, Kept u (k u).state) : Kept s (r.andThen k).state := by
  cases r with
  | done u => exact Kept.trans h (hk u)
  | raised c u => exact h

theorem SendsFull.andThen_state {cap : Nat} {st : Stream} {r : Run State} {k : State → Run State}
    (h : SendsFull cap st (r.map State.stream)) (hk : ∀ u, r = .done u → SendsFull cap u.stream ((k u).map State.stream)) :
    SendsFull cap st ((r.andThen k).map State.stream) := by
  cases r with
  | raised c u => exact h
  | done u =>
    obtain ⟨new, hs, hfull⟩ := h
    obtain ⟨more, hm, hmfull⟩ := hk u rfl
    cases hs with
    | done ha =>
      exact ⟨new ++ more, ha.sends hm, fun c hc => (List.mem_append.mp hc).elim (hfull c) (hmfull c)⟩

/-! ## Pieces on the output path -/

section
variable {f : Nat → Stream → Run Stream} {s : State}

theorem onStream_state : (onStream f s).state = { s with stream := (f s.build.sinkCap.toNat s.stream).state } := by
  unfold onStream
  cases f s.build.sinkCap.toNat s.stream <;> rfl

theorem onStream_stream : (onStream f s).map State.stream = f s.build.sinkCap.toNat s.stream := by
  unfold onStream
  cases f s.build.sinkCap.toNat s.stream <;> rfl

theorem kept_onStream : Kept s (onStream f s).state := by
  rw [onStream_state]
  exact ⟨rfl, rfl, rfl, rfl, rfl, rfl, rfl, rfl, rfl, rfl, rfl, rfl⟩

theorem phases_onStream : Phases s.phase s.phase (onStream f s) := by
  unfold onStream
  cases f s.build.sinkCap.toNat s.stream <;> rfl

theorem raisesOnly_onStream {causes : List FaultCause} (h : ∀ cap st, RaisesOnly causes (f cap st)) :
    RaisesOnly causes (onStream f s) := (h _ _).map _

/-- A run that goes on to another phase when it ends. -/
theorem onStream_thenPhase_cases (p : Phase) :
    (∃ st, f s.build.sinkCap.toNat s.stream = .done st ∧
      ((onStream f s).thenDo fun t => { t with phase := p }) = .done { s with stream := st, phase := p }) ∨
    (∃ c st, f s.build.sinkCap.toNat s.stream = .raised c st ∧
      ((onStream f s).thenDo fun t => { t with phase := p }) = .raised c { s with stream := st }) := by
  unfold onStream
  cases f s.build.sinkCap.toNat s.stream with
  | done st => exact .inl ⟨st, rfl, rfl⟩
  | raised c st => exact .inr ⟨c, st, rfl, rfl⟩

theorem thenPhase_stream (p : Phase) :
    ((onStream f s).thenDo fun t => { t with phase := p }).map State.stream = f s.build.sinkCap.toNat s.stream := by
  rcases onStream_thenPhase_cases (f := f) (s := s) p with ⟨st, hf, h⟩ | ⟨c, st, hf, h⟩ <;> rw [h, hf] <;> rfl

theorem kept_thenPhase (p : Phase) : Kept s ((onStream f s).thenDo fun t => { t with phase := p }).state :=
  kept_onStream.andThen fun _ => ⟨rfl, rfl, rfl, rfl, rfl, rfl, rfl, rfl, rfl, rfl, rfl, rfl⟩

theorem phases_thenPhase (p : Phase) : Phases s.phase p ((onStream f s).thenDo fun t => { t with phase := p }) :=
  phases_onStream.andThen fun _ _ => rfl

end

/-! ## Data units -/

/-- What EncodeBlock writes before the bits of the unit: COEF, ZZB and the predictor (43_entropy_coder.md R121). -/
def unitLoaded (c : Channel) (coef : Vector Word16 64) (s : State) : State :=
  { s with
    coef := coef
    zzb := reorder s.build.zz coef
    dcp := s.dcp.set (chanIdx c) (reorder s.build.zz coef)[0] }

/-- The bits of a unit of channel c: its tables, and its predictor as it was. -/
def unitRun (c : Channel) (coef : Vector Word16 64) (s : State) : Run Stream :=
  encodeUnit s.build.sinkCap.toNat s.ht[tdc c] s.ht[tac c] s.dcp[chanIdx c] (reorder s.build.zz coef) s.stream

theorem advance_unitLoaded (c : Channel) (coef : Vector Word16 64) (st : Stream) (s : State) :
    advance c { unitLoaded c coef s with stream := st } = unitDone c coef st s.payloads s := by
  cases c with
  | y | cb => rfl
  | cr =>
    have count : s.blkcnt + 1 = BitVec.ofNat 32 ((s.blkcnt.toNat + 1) % 2 ^ 32) := by
      apply BitVec.eq_of_toNat_eq
      simp
    simp only [advance, unitLoaded, unitDone, nextBlkcnt, nextChannel, count]

/-- Everything a data unit can do. -/
theorem dataUnit_cases (c : Channel) (coef : Vector Word16 64) (s : State) :
    (∃ st, unitRun c coef s = .done st ∧ dataUnit c coef s = .done (unitDone c coef st s.payloads s)) ∨
    (∃ d st, unitRun c coef s = .raised d st ∧ dataUnit c coef s = .raised d { unitLoaded c coef s with stream := st }) := by
  have block : encodeBlock c coef s = (unitRun c coef s).map fun st => { unitLoaded c coef s with stream := st } := rfl
  unfold dataUnit
  rw [block]
  cases unitRun c coef s with
  | done st => exact .inl ⟨st, rfl, by rw [← advance_unitLoaded]; rfl⟩
  | raised d st => exact .inr ⟨d, st, rfl, rfl⟩

section
variable {c : Channel} {coef : Vector Word16 64} {s : State}

theorem bitRun_unitRun : BitRun s.build.sinkCap.toNat s.stream (unitRun c coef s) := bitRun_encodeUnit _ _ _ _

theorem dataUnit_stream : (dataUnit c coef s).map State.stream = unitRun c coef s := by
  rcases dataUnit_cases c coef s with ⟨st, hf, h⟩ | ⟨d, st, hf, h⟩ <;> rw [h, hf] <;> rfl

theorem kept_dataUnit : Kept s (dataUnit c coef s).state := by
  rcases dataUnit_cases c coef s with ⟨st, -, h⟩ | ⟨d, st, -, h⟩ <;> rw [h] <;>
    exact ⟨rfl, rfl, rfl, rfl, rfl, rfl, rfl, rfl, rfl, rfl, rfl, rfl⟩

theorem phases_dataUnit : Phases s.phase s.phase (dataUnit c coef s) := by
  rcases dataUnit_cases c coef s with ⟨st, -, h⟩ | ⟨d, st, -, h⟩ <;> rw [h] <;> rfl

theorem raisesOnly_dataUnit : RaisesOnly [.uncoded, .sinkWrite] (dataUnit c coef s) := by
  rcases dataUnit_cases c coef s with ⟨st, -, h⟩ | ⟨d, st, hf, h⟩ <;> rw [h]
  · exact raisesOnly_done _
  · intro e u hu
    cases hu
    exact bitRun_unitRun.raisesOnly _ _ hf

end

/-! ## MCUs -/

theorem kept_mcuBody (pl : Vector Byte 192) (s : State) : Kept s (mcuBody pl s).state :=
  kept_dataUnit.andThen fun _ => kept_dataUnit.andThen fun _ => kept_dataUnit

theorem phases_mcuBody (pl : Vector Byte 192) (s : State) : Phases s.phase s.phase (mcuBody pl s) :=
  phases_dataUnit.andThen fun u hu => by
    rw [← hu]
    exact phases_dataUnit.andThen fun v hv => by rw [← hv]; exact phases_dataUnit

theorem raisesOnly_mcuBody (pl : Vector Byte 192) (s : State) : RaisesOnly [.uncoded, .sinkWrite] (mcuBody pl s) :=
  raisesOnly_dataUnit.andThen fun _ => raisesOnly_dataUnit.andThen fun _ => raisesOnly_dataUnit

theorem sendsFull_dataUnit (c : Channel) (coef : Vector Word16 64) (s : State) :
    SendsFull s.build.sinkCap.toNat s.stream ((dataUnit c coef s).map State.stream) := by
  rw [dataUnit_stream]
  exact bitRun_unitRun.sendsFull

/-- The same constants hold after a part of an MCU. -/
theorem build_of_dataUnit_done {c : Channel} {coef : Vector Word16 64} {s u : State} (h : dataUnit c coef s = .done u) :
    u.build = s.build := by
  have := (kept_dataUnit (c := c) (coef := coef) (s := s)).build
  rwa [h] at this

theorem sendsFull_mcuBody (pl : Vector Byte 192) (s : State) :
    SendsFull s.build.sinkCap.toNat s.stream ((mcuBody pl s).map State.stream) := by
  refine (sendsFull_dataUnit _ _ s).andThen_state fun u hu => ?_
  rw [← build_of_dataUnit_done hu]
  refine (sendsFull_dataUnit _ _ u).andThen_state fun v hv => ?_
  rw [← build_of_dataUnit_done hv]
  exact sendsFull_dataUnit _ _ v

/-! ## Payloads -/

/-- A data command after its pull: the answer is used up, if there was one. -/
def pulled (s : State) : State := { s with payloads := s.payloads.tail }

/-- Everything a pull can do. -/
theorem withPayload_cases (n : Nat) (k : Vector Byte n → State → Run State) (s : State) :
    (∃ b, ∃ hl : b.length = n, s.payloads.head? = some (.bytes b) ∧
      withPayload n k s = k ⟨b.toArray, by simp [hl]⟩ (pulled s)) ∨
    withPayload n k s = .raised .srcRead (pulled s) := by
  match hp : s.payloads with
  | [] =>
    have : pulled s = s := by
      have hs : s = { s with payloads := [] } := by rw [← hp]
      rw [pulled, hp]
      exact hs.symm
    exact .inr (by simp [withPayload, pull, hp, this])
  | .sourceFailure :: rest => exact .inr (by simp [withPayload, pull, pulled, hp])
  | .bytes b :: rest =>
    by_cases hl : b.length = n
    · exact .inl ⟨b, hl, rfl, by simp [withPayload_bytes hp hl, pulled, hp]⟩
    · exact .inr (by simp [withPayload, pull, pulled, hp, hl])

theorem withPayload_source_failure {n : Nat} {k : Vector Byte n → State → Run State} {s : State}
    {rest : List PayloadAnswer} (h : s.payloads = .sourceFailure :: rest) :
    withPayload n k s = .raised .srcRead { s with payloads := rest } := by
  simp [withPayload, pull, h]

section
variable {n : Nat} {k : Vector Byte n → State → Run State} {s : State}

theorem kept_withPayload (hk : ∀ pl u, Kept u (k pl u).state) : Kept s (withPayload n k s).state := by
  have pull : Kept s (pulled s) := ⟨rfl, rfl, rfl, rfl, rfl, rfl, rfl, rfl, rfl, rfl, rfl, rfl⟩
  rcases withPayload_cases n k s with ⟨b, hl, -, h⟩ | h <;> rw [h]
  · exact pull.trans (hk _ _)
  · exact pull

theorem phases_withPayload (hk : ∀ pl u, Phases u.phase u.phase (k pl u)) : Phases s.phase s.phase (withPayload n k s) := by
  rcases withPayload_cases n k s with ⟨b, hl, -, h⟩ | h <;> rw [h]
  · exact hk _ (pulled s)
  · rfl

theorem raisesOnly_withPayload {causes : List FaultCause} (hk : ∀ pl u, RaisesOnly causes (k pl u)) :
    RaisesOnly (.srcRead :: causes) (withPayload n k s) := by
  rcases withPayload_cases n k s with ⟨b, hl, -, h⟩ | h <;> rw [h]
  · exact (hk _ _).mono (List.subset_cons_self _ _)
  · intro c u hu
    cases hu
    exact List.mem_cons_self

theorem sendsFull_withPayload
    (hk : ∀ pl u, SendsFull u.build.sinkCap.toNat u.stream ((k pl u).map State.stream)) :
    SendsFull s.build.sinkCap.toNat s.stream ((withPayload n k s).map State.stream) := by
  rcases withPayload_cases n k s with ⟨b, hl, -, h⟩ | h <;> rw [h]
  · exact hk _ (pulled s)
  · exact ⟨[], .raised (by decide) (accepts_nothing rfl rfl rfl rfl), by simp⟩

end

/-! ## What the pseudocode of every command does -/

theorem bldhtBody_cases (s : State) :
    (anyMalformed s.build.hspec = true ∧ bldhtBody s = .raised .hspecBad s) ∨
    (anyMalformed s.build.hspec = false ∧
      bldhtBody s = .done { s with ht := buildAllHuff s.build.hspec, htValid := true }) := by
  unfold bldhtBody
  cases h : anyMalformed s.build.hspec
  · exact .inr ⟨rfl, rfl⟩
  · exact .inl ⟨rfl, rfl⟩

theorem body_phases (i : Instr) (s : State) : Phases s.phase (phaseAfter i s.phase) (body i s) := by
  cases i with
  | nop | rdreg | rdtbl | reset | bldqt => rfl
  | wrreg addr data => exact writeRegister_phase addr data s
  | bldht =>
    show Phases s.phase s.phase (bldhtBody s)
    rcases bldhtBody_cases s with ⟨-, h⟩ | ⟨-, h⟩ <;> rw [h] <;> rfl
  | wbits | wbyte | wword | sync => simp only [body, phaseAfter]; exact phases_onStream
  | align | app0 | dqt | sof0 | dht | sos | eoi => exact phases_thenPhase _
  | soi => exact phases_thenPhase (s := clearStream s) _
  | encmcu => exact phases_withPayload phases_mcuBody
  | encdu | enccoef => exact phases_withPayload fun _ _ => phases_dataUnit

/-- The commands that write the tables or the registers. -/
def WritesTables (i : Instr) : Prop := i = .reset ∨ (∃ addr data, i = .wrreg addr data) ∨ i = .bldqt ∨ i = .bldht

theorem body_kept {i : Instr} (hi : ¬ WritesTables i) (s : State) : Kept s (body i s).state := by
  cases i with
  | reset | wrreg | bldqt | bldht => simp [WritesTables] at hi
  | nop | rdreg | rdtbl => exact kept_refl s
  | wbits | wbyte | wword | sync => simp only [body]; exact kept_onStream
  | align | app0 | dqt | sof0 | dht | sos | eoi => exact kept_thenPhase _
  | soi =>
    have clear : Kept s (clearStream s) := ⟨rfl, rfl, rfl, rfl, rfl, rfl, rfl, rfl, rfl, rfl, rfl, rfl⟩
    exact clear.trans (kept_thenPhase _)
  | encmcu => exact kept_withPayload kept_mcuBody
  | encdu | enccoef => exact kept_withPayload fun _ _ => kept_dataUnit

/-- No pseudocode responds, touches the queue of acts or changes the constants. -/
theorem body_hostSide (i : Instr) (s : State) :
    (body i s).state.rsp = s.rsp ∧ (body i s).state.inputs = s.inputs ∧ (body i s).state.build = s.build := by
  by_cases hi : WritesTables i
  · rcases hi with rfl | ⟨addr, data, rfl⟩ | rfl | rfl
    · exact ⟨rfl, rfl, rfl⟩
    · exact ⟨writeRegister_rsp addr data s, writeRegister_inputs addr data s, writeRegister_build addr data s⟩
    · exact ⟨rfl, rfl, rfl⟩
    · show (bldhtBody s).state.rsp = _ ∧ (bldhtBody s).state.inputs = _ ∧ (bldhtBody s).state.build = _
      rcases bldhtBody_cases s with ⟨-, h⟩ | ⟨-, h⟩ <;> rw [h] <;> exact ⟨rfl, rfl, rfl⟩
  · have kept := body_kept hi s
    exact ⟨kept.rsp, kept.inputs, kept.build⟩

/-- The faults that pseudocode raises, by command. -/
def bodyCauses : Instr → List FaultCause
  | .bldht => [.hspecBad]
  | .wbits _ _ | .wbyte _ | .wword _ | .align | .sync | .soi | .app0 | .dqt | .sof0 | .dht | .sos | .eoi => [.sinkWrite]
  | .encmcu | .encdu _ | .enccoef _ => [.srcRead, .uncoded, .sinkWrite]
  | .nop | .reset | .wrreg _ _ | .rdreg _ | .rdtbl _ _ | .bldqt => []

theorem raisesOnly_body (i : Instr) (s : State) : RaisesOnly (bodyCauses i) (body i s) := by
  have segment (bytes : State → List Byte) (p : Phase) (u : State) : RaisesOnly [.sinkWrite] (emitSegment bytes p u) :=
    (raisesOnly_onStream fun _ _ => raisesOnly_appendBytes _ _ _).andThen fun _ => raisesOnly_done _
  cases i with
  | nop | reset | wrreg | rdreg | rdtbl | bldqt => exact raisesOnly_done _
  | bldht =>
    show RaisesOnly [.hspecBad] (bldhtBody s)
    rcases bldhtBody_cases s with ⟨-, h⟩ | ⟨-, h⟩ <;> rw [h]
    · intro c u hu
      cases hu
      exact List.mem_singleton_self _
    · exact raisesOnly_done _
  | wbits len code => exact raisesOnly_onStream fun cap st => raisesOnly_writeBits cap _ _ st
  | wbyte | wword => exact raisesOnly_onStream fun cap st => raisesOnly_appendBytes cap _ st
  | align => exact (raisesOnly_onStream raisesOnly_alignBits).andThen fun _ => raisesOnly_done _
  | sync => exact raisesOnly_onStream fun _ st => raisesOnly_drain st
  | soi | app0 | dqt | sof0 | dht | sos => simp only [body]; exact segment _ _ _
  | eoi =>
    refine (raisesOnly_onStream fun cap st => ?_).andThen fun _ => raisesOnly_done _
    exact (raisesOnly_appendBytes cap _ st).andThen raisesOnly_drain
  | encmcu => exact raisesOnly_withPayload raisesOnly_mcuBody
  | encdu | enccoef => exact raisesOnly_withPayload fun _ _ => raisesOnly_dataUnit

/-- The chunks of every command but SYNC and EOI are full sink buffers. -/
theorem body_sendsFull {i : Instr} (hs : i ≠ .sync) (he : i ≠ .eoi) (s : State) :
    SendsFull s.build.sinkCap.toNat s.stream ((body i s).map State.stream) := by
  cases i with
  | sync => exact absurd rfl hs
  | eoi => exact absurd rfl he
  | nop | rdreg | rdtbl | reset | bldqt => exact sendsFull_nothing rfl rfl rfl rfl
  | wrreg addr data =>
    have stream := writeRegister_stream addr data s
    exact sendsFull_nothing (by rw [stream]) (by rw [stream]) (by rw [stream]) (by rw [stream])
  | bldht =>
    show SendsFull _ _ ((bldhtBody s).map State.stream)
    rcases bldhtBody_cases s with ⟨-, h⟩ | ⟨-, h⟩ <;> rw [h]
    · exact ⟨[], .raised (by decide) (accepts_nothing rfl rfl rfl rfl), by simp⟩
    · exact sendsFull_nothing rfl rfl rfl rfl
  | wbits len code =>
    simp only [body, onStream_stream]
    exact (bitRun_writeBits _ _ _).sendsFull
  | wbyte | wword =>
    simp only [body, onStream_stream]
    exact sendsFull_appendBytes _ _
  | align =>
    show SendsFull _ _ (((onStream _ s).thenDo _).map State.stream)
    rw [thenPhase_stream]
    exact bitRun_alignBits.sendsFull
  | app0 | dqt | sof0 | dht | sos =>
    show SendsFull _ _ (((onStream _ s).thenDo _).map State.stream)
    rw [thenPhase_stream]
    exact sendsFull_appendBytes _ _
  | soi =>
    show SendsFull _ _ (((onStream _ (clearStream s)).thenDo _).map State.stream)
    rw [thenPhase_stream]
    exact (sendsFull_appendBytes soiBytes (clearStream s).stream).of_drained rfl rfl rfl rfl
  | encmcu => exact sendsFull_withPayload sendsFull_mcuBody
  | encdu | enccoef => exact sendsFull_withPayload fun _ _ => sendsFull_dataUnit _ _ _

/-- The chunk of SYNC is the buffer, unless it is empty. -/
theorem body_sync_sends (s : State) :
    s.stream.sb = [] ∧ Sends s.stream [] ((body .sync s).map State.stream) ∨
      s.stream.sb ≠ [] ∧ Sends s.stream [s.stream.sb] ((body .sync s).map State.stream) := by
  simp only [body, onStream_stream]
  exact drain_sends s.stream

/-- The chunks of EOI are full sink buffers but for the last one. -/
theorem body_eoi_sends (s : State) :
    ∃ new, Sends s.stream new ((body .eoi s).map State.stream) ∧ (∀ c ∈ new, c ≠ []) ∧
      ∀ c ∈ new.dropLast, c.length = s.build.sinkCap.toNat := by
  show ∃ new, Sends _ new (((onStream _ s).thenDo _).map State.stream) ∧ _
  rw [thenPhase_stream]
  obtain ⟨new, hs, hfull⟩ := sendsFull_appendBytes (cap := s.build.sinkCap.toNat) eoiBytes s.stream
  have whole : (∀ c ∈ new, c ≠ []) ∧ ∀ c ∈ new.dropLast, c.length = s.build.sinkCap.toNat :=
    ⟨fun c hc => (hfull c hc).2, fun c hc => (hfull c (List.dropLast_subset _ hc)).1⟩
  generalize appendBytes s.build.sinkCap.toNat eoiBytes s.stream = r at hs ⊢
  cases hs with
  | raised hc ha => exact ⟨new, .raised hc ha, whole⟩
  | refused hr => exact ⟨_, .refused hr, whole⟩
  | @done _ st ha =>
    rcases drain_sends st with ⟨-, hd⟩ | ⟨hne, hd⟩
    · exact ⟨new ++ [], ha.sends hd, by simpa using whole⟩
    · refine ⟨new ++ [st.sb], ha.sends hd, fun c hc => ?_, fun c hc => ?_⟩
      · rcases List.mem_append.mp hc with h | h
        · exact whole.1 c h
        · rwa [List.mem_singleton.mp h]
      · rw [List.dropLast_concat] at hc
        exact (hfull c hc).1

/-- What every command offers (20_memory.md R43, R44). -/
theorem body_sends (i : Instr) (s : State) :
    ∃ new, Sends s.stream new ((body i s).map State.stream) ∧ (∀ c ∈ new, c ≠ []) ∧
      (i ≠ .sync → i ≠ .eoi → ∀ c ∈ new, c.length = s.build.sinkCap.toNat) ∧
      (i = .sync → ∀ c ∈ new, c = s.stream.sb) ∧
      (i = .eoi → ∀ c ∈ new.dropLast, c.length = s.build.sinkCap.toNat) := by
  by_cases hs : i = .sync
  · subst hs
    rcases body_sync_sends s with ⟨-, h⟩ | ⟨hne, h⟩
    · exact ⟨[], h, by simp⟩
    · exact ⟨[s.stream.sb], h, by simpa using hne, by simp, by simp, by simp⟩
  by_cases he : i = .eoi
  · subst he
    obtain ⟨new, h, hne, hlast⟩ := body_eoi_sends s
    exact ⟨new, h, hne, by simp, by simp, fun _ => hlast⟩
  obtain ⟨new, h, hfull⟩ := body_sendsFull hs he s
  exact ⟨new, h, fun c hc => (hfull c hc).2, fun _ _ c hc => (hfull c hc).1, fun h => absurd h hs, fun h => absurd h he⟩

/-! ## The three endings, with what the pseudocode did -/

section
variable {i : Instr} {s u : State} {c : FaultCause}

theorem phase_of_raised (h : body i s = .raised c u) : u.phase = s.phase := by
  have := body_phases i s
  rwa [h] at this

theorem phase_of_done (h : body i s = .done u) : u.phase = phaseAfter i s.phase := by
  have := body_phases i s
  rwa [h] at this

theorem rsp_of_raised (h : body i s = .raised c u) : u.rsp = s.rsp := by
  have := (body_hostSide i s).1
  rwa [h] at this

theorem rsp_of_done (h : body i s = .done u) : u.rsp = s.rsp := by
  have := (body_hostSide i s).1
  rwa [h] at this

/-- No phase of the last column is FAULT. -/
theorem phaseAfter_ne_fault (i : Instr) {p : Phase} (hp : p ≠ .fault) : phaseAfter i p ≠ .fault := by
  cases i with
  | nop | rdreg | rdtbl | sync | wrreg | bldqt | bldht | encmcu | encdu | enccoef | wbits | wbyte | wword => exact hp
  | reset | soi | app0 | dqt | sof0 | dht | sos | align | eoi => exact Phase.noConfusion

/-- A fault raised half way counts from the phase before the command. -/
theorem faultTaken_of_raised (h : body i s = .raised c u) : FaultTaken c s (takeFault c u) :=
  ⟨rfl, rfl, phase_of_raised h, by rw [takeFault_rsp, rsp_of_raised h]⟩

/-- A command that takes a fault was stopped by a check or by its pseudocode. -/
theorem faultTaken_cases {t : State} (hf : s.phase ≠ .fault) (h : exec i s = .next t) (ht : FaultTaken c s t) :
    (check i s = some c ∧ t = takeFault c s) ∨
      check i s = none ∧ ∃ u, body i s = .raised c u ∧ t = takeFault c u := by
  cases exec_ends hf h with
  | checked hc =>
    obtain rfl := cause_eq_of_faultTaken ht
    exact .inl ⟨hc, rfl⟩
  | raised hc hb =>
    obtain rfl := cause_eq_of_faultTaken (u := _) (s := s) ht
    exact .inr ⟨hc, _, hb, rfl⟩
  | answered hc hb => exact absurd ht (not_faultTaken_answered (rsp_of_done hb))

end

/-- Settles O48: a failing check or a fault of the pseudocode, which leaves PHASE alone until it ends. -/
theorem faultEntry : Obligations.FaultEntry := by
  unfold Obligations.FaultEntry
  intro i s t hf h ht
  cases exec_ends hf h with
  | checked hc => exact ⟨_, faultTaken_takeFault _ s⟩
  | raised hc hb => exact ⟨_, faultTaken_of_raised hb⟩
  | answered hc hb => exact absurd ((phase_of_done hb).symm.trans (by exact ht)) (phaseAfter_ne_fault i hf)

/-- Settles O51: the sequence check is the third, and no later one and no pseudocode names SEQ. -/
theorem sequenceRule : Obligations.SequenceRule := by
  unfold Obligations.SequenceRule
  refine fun i s hw ha hf => ⟨fun hl => ?refuses, fun hl t h ht => ?never⟩
  case refuses =>
    have illegal : legal i s.phase s.nextch = false := Bool.eq_false_iff.mpr fun h => hl (legal_iff.mp h)
    exact ⟨_, exec_checked hf (check_eq_seq hw ha illegal), faultTaken_takeFault _ s, precise_takeFault _ s⟩
  case never =>
    rcases faultTaken_cases hf h ht with ⟨hc, -⟩ | ⟨-, u, hb, -⟩
    · rcases check_eq_some hc with ⟨hw', -⟩ | ⟨ha', -⟩ | ⟨hl', -⟩ | hp
      · exact absurd (hw.symm.trans hw') (by decide)
      · exact absurd (ha.symm.trans ha') (by decide)
      · exact absurd ((legal_iff.mpr hl).symm.trans hl') (by decide)
      · rcases precondition_eq_some hp with ⟨-, hc' | hc'⟩ | ⟨-, hc'⟩ <;> cases hc'
    · have := raisesOnly_body i s _ _ hb
      cases i <;> simp [bodyCauses] at this

/-- Settles O52: the three commands pull first. -/
theorem sourceFailureRule : Obligations.SourceFailureRule := by
  unfold Obligations.SourceFailureRule
  intro i s rest hi hl hp
  have hb : body i s = .raised .srcRead { s with payloads := rest } := by
    rcases hi with rfl | ⟨ch, rfl | rfl⟩ <;> exact withPayload_source_failure hp
  have hc : check i s = none := by
    rcases hi with rfl | ⟨ch, rfl | rfl⟩ <;> exact check_eq_none_of_legal rfl rfl hl rfl
  exact ⟨_, exec_of_body_raised (not_fault_of_legal hl) hc hb, faultTaken_of_raised hb, rfl, rfl, rfl, rfl⟩

/-- The causes of the checks, by command. -/
theorem check_mem_mayRaise {i : Instr} {s : State} {c : FaultCause} (hw : i.wellFormed = true) (hf : s.phase ≠ .fault)
    (h : check i s = some c) : c ∈ mayRaise i := by
  rcases check_eq_some h with ⟨hw', -⟩ | ⟨ha, rfl⟩ | ⟨hl, rfl⟩ | hp
  · exact absurd (hw.symm.trans hw') (by decide)
  · cases i <;> simp [addressOk, mayRaise] at ha ⊢
  · cases i <;> simp [legal, mayRaise, hf] at hl ⊢
  · rcases precondition_eq_some hp with ⟨rfl, rfl | rfl⟩ | ⟨⟨sel, idx, rfl⟩, rfl⟩ <;> simp [mayRaise]

theorem bodyCauses_subset (i : Instr) : bodyCauses i ⊆ mayRaise i := by
  cases i <;> simp [bodyCauses, mayRaise]

/-- Settles O53: by the check that fails, or by what the pseudocode raises. -/
theorem faultsOfEachCommand : Obligations.FaultsOfEachCommand := by
  unfold Obligations.FaultsOfEachCommand
  intro i s t c hw hf h ht
  rcases faultTaken_cases hf h ht with ⟨hc, -⟩ | ⟨-, u, hb, -⟩
  · exact check_mem_mayRaise hw hf hc
  · exact bodyCauses_subset i (raisesOnly_body i s _ _ hb)

/-- SRC_READ is raised by the pull, before anything else. -/
theorem state_of_srcRead {i : Instr} {s u : State} (h : body i s = .raised .srcRead u) : u = pulled s := by
  have pull {n : Nat} {k : Vector Byte n → State → Run State} {causes : List FaultCause}
      (hk : ∀ pl v, RaisesOnly causes (k pl v)) (hc : .srcRead ∉ causes)
      (hr : withPayload n k s = .raised .srcRead u) : u = pulled s := by
    rcases withPayload_cases n k s with ⟨b, hl, -, h⟩ | h
    · exact absurd (hk _ _ _ _ (h.symm.trans hr)) hc
    · cases h.symm.trans hr
      rfl
  have raised := raisesOnly_body i s _ _ h
  cases i with
  | encmcu => exact pull raisesOnly_mcuBody (by decide) h
  | encdu | enccoef => exact pull (fun _ _ => raisesOnly_dataUnit) (by decide) h
  | nop | reset | wrreg | rdreg | rdtbl | bldqt | bldht | wbits | wbyte | wword | align | sync | soi | app0 | dqt | sof0
  | dht | sos | eoi => simp [bodyCauses] at raised

/-- Settles O54: the five causes are those of the checks, and the pull comes before the rest of the pseudocode. -/
theorem preciseFaults : Obligations.PreciseFaults := by
  unfold Obligations.PreciseFaults
  intro i s t c hf h ht
  rcases faultTaken_cases hf h ht with ⟨hc, rfl⟩ | ⟨-, u, hb, rfl⟩
  · refine ⟨fun _ => precise_takeFault c s, ?_⟩
    rintro rfl
    rcases check_cause hc with h | h | h | h | h <;> cases h
  · constructor
    · have raised := raisesOnly_body i s _ _ hb
      rintro (rfl | rfl | rfl | rfl | rfl) <;> cases i <;> simp [bodyCauses] at raised
    · rintro rfl
      obtain rfl := state_of_srcRead hb
      exact ⟨rfl, rfl, rfl, rfl⟩

/-- Settles O57: PHASE after the pseudocode is that of the column. -/
theorem phaseGraph : Obligations.PhaseGraph := by
  unfold Obligations.PhaseGraph
  intro i s t hf h ht
  cases exec_ends hf h with
  | checked hc => exact absurd rfl ht
  | raised hc hb => exact absurd rfl ht
  | @answered u hc hb => exact (phase_of_done hb : u.phase = _)

theorem not_fault_of_inStream {p : Phase} (h : inStream p) : p ≠ .fault := by
  rintro rfl
  rcases h with h | h | h | h | h | h | h <;> cases h

/-- Inside a stream the commands that write tables are not legal, but for RESET. -/
theorem not_writesTables_in_stream {i : Instr} {p : Phase} {next : Channel} (hp : inStream p) (hr : i ≠ .reset)
    (hl : IsLegal i p next) : ¬ WritesTables i := by
  obtain ⟨legal, -⟩ := hl
  rintro (rfl | ⟨addr, data, rfl⟩ | rfl | rfl)
  · exact hr rfl
  all_goals
    rcases hp with rfl | rfl | rfl | rfl | rfl | rfl | rfl <;> simp [legalPhases] at legal

/-- Settles O58: what is legal inside a stream keeps the tables. -/
theorem tablesFrozenInStream : Obligations.TablesFrozenInStream := by
  unfold Obligations.TablesFrozenInStream
  intro i s t hp hr h ht
  cases exec_ends (not_fault_of_inStream hp) h with
  | checked hc => exact absurd rfl ht
  | raised hc hb => exact absurd rfl ht
  | answered hc hb =>
    have kept := body_kept (not_writesTables_in_stream hp hr (legal_of_check hc)) s
    rw [hb] at kept
    exact ⟨kept.qt, kept.ht, kept.qtValid, kept.htValid, kept.width, kept.height, kept.scale⟩

theorem respData_eq_zero {i : Instr} (ha : ∀ addr, i ≠ .rdreg addr) (hw : ∀ sel idx, i ≠ .rdtbl sel idx) (s : State) :
    respData i s = 0 := by
  cases i with
  | rdreg addr => exact absurd rfl (ha addr)
  | rdtbl sel idx => exact absurd rfl (hw sel idx)
  | nop | reset | wrreg | bldqt | bldht | wbits | wbyte | wword | align | sync | soi | app0 | dqt | sof0 | dht | sos
  | eoi | encmcu | encdu | enccoef => rfl

/-- In the FAULT phase the gate gives one response. -/
theorem faultGate_response {i : Instr} {s : State} (hf : s.phase = .fault) :
    ∃ r : Response, (faultGate i s).rsp = s.rsp ++ [r] ∧
      (r.status ≠ 0 → (faultGate i s).phase = .fault ∧ faultField (faultGate i s).fault = r.status ∧ r.data = 0) ∧
      ((∀ a, i ≠ .rdreg a) → r.data = 0) := by
  by_cases hn : i = .nop
  · subst hn
    exact ⟨⟨0, 0⟩, rfl, fun h => absurd rfl h, fun _ => rfl⟩
  by_cases hr : i = .reset
  · subst hr
    exact ⟨⟨0, 0⟩, rfl, fun h => absurd rfl h, fun _ => rfl⟩
  by_cases hs : i = .rdreg 0x00
  · subst hs
    exact ⟨⟨0, statusInFault s⟩, rfl, fun h => absurd rfl h, fun h => absurd rfl (h _)⟩
  rw [faultGate_of_refused hn hr hs]
  exact ⟨⟨faultField s.fault, 0⟩, rfl, fun _ => ⟨hf, rfl, rfl⟩, fun _ => rfl⟩

/-- Settles O55: the gate gives one response, a fault gives its code, and what runs to its end gives status 0. -/
theorem oneResponsePerCommand : Obligations.OneResponsePerCommand := by
  unfold Obligations.OneResponsePerCommand
  intro i s
  by_cases hf : s.phase = .fault
  · obtain ⟨r, hr, hstatus, hdata⟩ := faultGate_response (i := i) hf
    exact ⟨_, r, exec_in_fault hf, hr, hstatus, fun _ h => absurd hf h, fun ha _ => hdata ha⟩
  cases hc : check i s with
  | some c =>
    exact ⟨_, ⟨c.code, 0⟩, exec_checked hf hc, rfl, fun _ => ⟨rfl, rfl, rfl⟩, fun h => absurd h (code_ne_zero c),
      fun _ _ => rfl⟩
  | none =>
    cases hb : body i s with
    | raised c u =>
      exact ⟨_, ⟨c.code, 0⟩, exec_of_body_raised hf hc hb, by rw [takeFault_rsp, rsp_of_raised hb],
        fun _ => ⟨rfl, rfl, rfl⟩, fun h => absurd h (code_ne_zero c), fun _ _ => rfl⟩
    | done u =>
      refine ⟨_, ⟨0, respData i s⟩, exec_of_body_done hf hc hb, ?_, fun h => absurd rfl h, fun _ _ => ?_,
        fun ha hw => respData_eq_zero ha hw s⟩
      · exact congrArg (· ++ _) (rsp_of_done hb)
      · exact fun h => phaseAfter_ne_fault i hf ((phase_of_done hb).symm.trans h)

end Sys2Proof.Machine
end

section
/-! What commands do to the output stream and to the sequencer's invariant: the deliveries (20_memory.md R43, R44), the scan
data (44_bit_writer.md R140), and Inv. -/

namespace Sys2Proof.Machine

open Sys2Proof.Safety Sys2Proof.Reference

/-! ## Deliveries of a command -/

/-- Taking a fault or responding does not touch what the port `out` carried. -/
theorem Accepts.congr {new : List (List Byte)} {st st' st'' : Stream} (h : Accepts new st st') (hc : st''.chunks = st'.chunks)
    (ho : st''.out = st'.out) (ha : st''.answers = st'.answers) (ht : st''.thereafter = st'.thereafter) :
    Accepts new st st'' := by
  simpa using h.trans (accepts_nothing hc ho ha ht)

/-- What a command offers, and whether the last chunk was refused. -/
theorem exec_offers {i : Instr} {s t : State} (hf : s.phase ≠ .fault) (h : exec i s = .next t) :
    ∃ new, ((∀ c ∈ new, c ≠ []) ∧
        (i ≠ .sync → i ≠ .eoi → ∀ c ∈ new, c.length = s.build.sinkCap.toNat) ∧
        (i = .sync → ∀ c ∈ new, c = s.stream.sb) ∧
        (i = .eoi → ∀ c ∈ new.dropLast, c.length = s.build.sinkCap.toNat)) ∧
      (¬ FaultTaken .sinkWrite s t ∧ Accepts new s.stream t.stream ∨
        FaultTaken .sinkWrite s t ∧ ∃ init last, new = init ++ [last] ∧ Refuses init last s.stream t.stream) := by
  cases exec_ends hf h with
  | @checked c hc =>
    refine ⟨[], by simp, .inl ⟨fun ht => ?_, accepts_nothing rfl rfl rfl rfl⟩⟩
    obtain rfl := cause_eq_of_faultTaken ht
    rcases check_cause hc with h | h | h | h | h <;> cases h
  | @raised c u hc hb =>
    obtain ⟨new, hs, hnew⟩ := body_sends i s
    rw [hb] at hs
    cases hs with
    | raised hne ha =>
      refine ⟨new, hnew, .inl ⟨fun ht => ?_, ha.congr rfl rfl rfl rfl⟩⟩
      exact hne (cause_eq_of_faultTaken (u := u) ht).symm
    | refused hr =>
      exact ⟨_, hnew, .inr ⟨faultTaken_of_raised hb, _, _, rfl, ⟨hr.chunks, hr.out, hr.ok, hr.fail⟩⟩⟩
  | @answered u hc hb =>
    obtain ⟨new, hs, hnew⟩ := body_sends i s
    rw [hb] at hs
    cases hs with
    | done ha =>
      exact ⟨new, hnew, .inl ⟨not_faultTaken_answered (rsp_of_done hb), ha.congr rfl rfl rfl rfl⟩⟩

/-- Settles O56: the chunks are those offered, and a refused one is the last. -/
theorem outOnlyGrows : Obligations.OutOnlyGrows := by
  unfold Obligations.OutOnlyGrows
  intro i s t hf h
  obtain ⟨new, ⟨hne, -⟩, ⟨hn, ha⟩ | ⟨hn, init, last, rfl, hr⟩⟩ := exec_offers hf h
  · exact ⟨new, ha.chunks, hne, ⟨_, ha.out.symm⟩, fun _ => ha.out, fun ht => absurd ht hn⟩
  · obtain ⟨part, hout⟩ := hr.out
    exact ⟨_, hr.chunks, hne, ⟨init.flatten ++ part, by rw [hout, List.append_assoc]⟩, fun ht => absurd hn ht,
      fun _ => ⟨init, last, part, rfl, hout⟩⟩

/-- A chunk that the host refuses first is the only one. -/
theorem exec_refused_first {i : Instr} {s t : State} (hf : s.phase ≠ .fault) (h : exec i s = .next t)
    (hfail : answerAt s.stream 0 = .fail) (hsend : t.stream.chunks ≠ s.stream.chunks) :
    FaultTaken .sinkWrite s t ∧ s.stream.out <+: t.stream.out ∧ ∃ c, t.stream.chunks = s.stream.chunks ++ [c] := by
  obtain ⟨new, -, ⟨-, ha⟩ | ⟨hn, init, last, rfl, hr⟩⟩ := exec_offers hf h
  · cases new with
    | nil => exact absurd (ha.chunks.trans (List.append_nil _)) hsend
    | cons c more => exact absurd ((ha.ok 0 (by simp)).symm.trans hfail) (by decide)
  · cases init with
    | cons c more => exact absurd ((hr.ok 0 (by simp)).symm.trans hfail) (by decide)
    | nil =>
      obtain ⟨part, hout⟩ := hr.out
      exact ⟨hn, ⟨_, (by simpa using hout.symm)⟩, last, hr.chunks⟩

theorem check_sync {s : State} (hf : s.phase ≠ .fault) : check .sync s = none :=
  check_eq_none.mpr ⟨rfl, rfl, decide_eq_true hf, rfl⟩

theorem exec_sync_refused {s : State} (hf : s.phase ≠ .fault) (hs : s.stream.sb ≠ []) (ha : answerAt s.stream 0 = .fail) :
    ∃ t, exec .sync s = .next t ∧ FaultTaken .sinkWrite s t ∧ s.stream.out <+: t.stream.out ∧
      t.stream.chunks = s.stream.chunks ++ [s.stream.sb] := by
  rw [answerAt_zero] at ha
  rcases drain_cases s.stream with ⟨he, -⟩ | ⟨-, hok, -⟩ | ⟨-, -, hd⟩
  · exact absurd he hs
  · exact absurd (hok.symm.trans ha) (by decide)
  · have hb := onStream_raised (f := fun _ => drain) hd
    exact ⟨_, exec_of_body_raised hf (check_sync hf) hb, faultTaken_of_raised (i := .sync) hb, List.prefix_append _ _, rfl⟩

/-- EOI always has something to deliver. -/
theorem exec_eoi_sends {s : State} (hp : s.phase = .aligned) :
    ∃ t, exec .eoi s = .next t ∧ t.stream.chunks ≠ s.stream.chunks := by
  have hf : s.phase ≠ .fault := by rw [hp]; decide
  have hc : check .eoi s = none := check_eq_none.mpr ⟨rfl, rfl, decide_eq_true hp, rfl⟩
  have stream : (body .eoi s).map State.stream = (appendBytes s.build.sinkCap.toNat eoiBytes s.stream).andThen drain :=
    thenPhase_stream _
  obtain ⟨new, hs, -⟩ := sendsFull_appendBytes (cap := s.build.sinkCap.toNat) eoiBytes s.stream
  have grown : ∃ r, Sends s.stream r ((body .eoi s).map State.stream) ∧ r ≠ [] := by
    rw [stream]
    cases happ : appendBytes s.build.sinkCap.toNat eoiBytes s.stream with
    | raised c st =>
      rw [happ] at hs
      have : c = .sinkWrite := by simpa using raisesOnly_appendBytes _ _ _ _ _ happ
      cases hs with
      | raised hne ha => exact absurd this hne
      | refused hr => exact ⟨_, .refused hr, by simp⟩
    | done st =>
      rw [happ] at hs
      cases hs with
      | done ha =>
        rcases drain_sends st with ⟨he, hd⟩ | ⟨-, hd⟩
        · refine ⟨new ++ [], ha.sends hd, fun hnil => ?_⟩
          have ls := (appendBytes_done happ).1
          have out := ha.out
          rw [List.append_nil] at hnil
          simp [Stream.ls, he, out, hnil, eoiBytes, wordBytes] at ls
        · exact ⟨new ++ [st.sb], ha.sends hd, by simp⟩
  obtain ⟨r, hr, hne⟩ := grown
  cases hb : body .eoi s with
  | done u =>
    rw [hb] at hr
    cases hr with
    | done ha => exact ⟨_, exec_of_body_done hf hc hb, fun h => hne (by simpa using ha.chunks.symm.trans h)⟩
  | raised c u =>
    rw [hb] at hr
    cases hr with
    | raised hne' ha => exact ⟨_, exec_of_body_raised hf hc hb, fun h => hne (by simpa using ha.chunks.symm.trans h)⟩
    | refused hr => exact ⟨_, exec_of_body_raised hf hc hb, fun h => by simpa using hr.chunks.symm.trans h⟩

/-! ### WBYTE (44_bit_writer.md R136) -/

theorem check_wbyte {s : State} {b : Byte}
    (hp : s.phase = .sSoi ∨ s.phase = .sApp0 ∨ s.phase = .sDqt ∨ s.phase = .sSof0 ∨ s.phase = .sDht ∨
      s.phase = .aligned) :
    check (.wbyte b) s = none := check_eq_none.mpr ⟨rfl, rfl, decide_eq_true hp, rfl⟩

theorem not_fault_of_header_phase {p : Phase}
    (hp : p = .sSoi ∨ p = .sApp0 ∨ p = .sDqt ∨ p = .sSof0 ∨ p = .sDht ∨ p = .aligned) : p ≠ .fault := by
  rcases hp with rfl | rfl | rfl | rfl | rfl | rfl <;> decide

theorem body_wbyte (b : Byte) (s : State) : body (.wbyte b) s = onStream (fun cap => sinkAppend cap b) s := by
  have single (cap : Nat) (st : Stream) : appendBytes cap [b] st = sinkAppend cap b st := by
    rw [appendBytes]
    cases sinkAppend cap b st <;> rfl
  simp only [body, onStream, single]

/-- Settles O24: the chunks of a command and their answers; a refused first delivery of SYNC and EOI; WBYTE exactly. -/
theorem sinkBufferDeliversWhenFull : Obligations.SinkBufferDeliversWhenFull := by
  unfold Obligations.SinkBufferDeliversWhenFull
  refine ⟨fun i s t hf _ h => ?all, fun s => exec_sync_refused, fun s hp ha => ?eoi, fun s b hp => ?wbyte⟩
  case all =>
    obtain ⟨new, ⟨-, hother, hsync, heoi⟩, ⟨hn, ha⟩ | ⟨hn, init, last, rfl, hr⟩⟩ := exec_offers hf h
    · refine ⟨new, ha.chunks, hother, hsync, heoi, fun k hk => ha.ok k (by omega), fun ht => absurd ht hn, ?_⟩
      rintro ⟨k, hk, hfail⟩
      exact absurd ((ha.ok k hk).symm.trans hfail) (by decide)
    · refine ⟨_, hr.chunks, hother, hsync, heoi, fun k hk => hr.ok k ?_,
        fun _ => ⟨init.length, ?_, hr.fail⟩, fun _ => hn⟩
      · simpa using hk
      · simp
  case eoi =>
    obtain ⟨t, ht, hsend⟩ := exec_eoi_sends hp
    exact ⟨t, ht, exec_refused_first (by rw [hp]; decide) ht ha hsend⟩
  case wbyte =>
    have hf := not_fault_of_header_phase hp
    refine ⟨fun hroom => ?_, fun hfull ha => ?_, fun hfull ha => ?_⟩
    · refine exec_of_body_done hf (check_wbyte hp) ?_
      rw [body_wbyte]
      exact onStream_done (if_neg hroom)
    all_goals
      have hb : sinkAppend s.build.sinkCap.toNat b s.stream = drain { s.stream with sb := s.stream.sb ++ [b] } := if_pos hfull
      rw [answerAt_zero] at ha
      rcases drain_cases { s.stream with sb := s.stream.sb ++ [b] } with ⟨he, -⟩ | ⟨-, hok, hd⟩ | ⟨-, hfail, hd⟩
    · simp at he
    · exact exec_of_body_done hf (check_wbyte hp) ((body_wbyte b s).trans (onStream_done (hb.trans hd)))
    · exact absurd (ha.symm.trans hfail) (by decide)
    · simp at he
    · exact absurd (hok.symm.trans ha) (by decide)
    · have raised := (body_wbyte b s).trans (onStream_raised (hb.trans hd))
      exact ⟨_, exec_of_body_raised hf (check_wbyte hp) raised, faultTaken_of_raised raised, List.prefix_append _ _, rfl⟩

/-! ## Commands that write entropy-coded data -/

theorem dataUnit_done {c : Channel} {coef : Vector Word16 64} {s u : State} (h : dataUnit c coef s = .done u) :
    ∃ st, unitRun c coef s = .done st ∧ u = unitDone c coef st s.payloads s := by
  rcases dataUnit_cases c coef s with ⟨st, hr, hd⟩ | ⟨d, st, -, hd⟩
  · cases hd.symm.trans h
    exact ⟨st, hr, rfl⟩
  · cases hd.symm.trans h

theorem mcuBody_done {pl : Vector Byte 192} {s u : State} (h : mcuBody pl s = .done u) :
    ∃ cy ccb ccr v w, dataUnit .y cy s = .done v ∧ dataUnit .cb ccb v = .done w ∧ dataUnit .cr ccr w = .done u := by
  obtain ⟨v, hv, h⟩ := Run.andThen_eq_done.mp h
  obtain ⟨w, hw, h⟩ := Run.andThen_eq_done.mp h
  exact ⟨_, _, _, v, w, hv, hw, h⟩

theorem withPayload_done {n : Nat} {k : Vector Byte n → State → Run State} {s u : State}
    (h : withPayload n k s = .done u) : ∃ pl, k pl (pulled s) = .done u := by
  rcases withPayload_cases n k s with ⟨b, hl, -, hk⟩ | hk
  · exact ⟨_, hk.symm.trans h⟩
  · cases hk.symm.trans h

/-- What one data unit keeps, a whole data command keeps. -/
theorem dataCommand_induction {P : State → Prop} {i : Instr} {s u : State}
    (hi : i = .encmcu ∨ ∃ ch, i = .encdu ch ∨ i = .enccoef ch) (hs : P (pulled s))
    (step : ∀ c coef v w, P v → dataUnit c coef v = .done w → P w) (h : body i s = .done u) : P u := by
  rcases hi with rfl | ⟨ch, rfl | rfl⟩
  · obtain ⟨pl, hpl⟩ := withPayload_done h
    obtain ⟨_, _, _, v, w, hv, hw, hu⟩ := mcuBody_done hpl
    exact step _ _ _ _ (step _ _ _ _ (step _ _ _ _ hs hv) hw) hu
  · obtain ⟨pl, hpl⟩ := withPayload_done h
    exact step _ _ _ _ hs hpl
  · obtain ⟨pl, hpl⟩ := withPayload_done h
    exact step _ _ _ _ hs hpl

theorem bitsWritten_dataUnit {c : Channel} {coef : Vector Word16 64} {s u : State} (h : dataUnit c coef s = .done u) :
    BitsWritten s.build.sinkCap.toNat s.stream u.stream := by
  obtain ⟨st, hr, rfl⟩ := dataUnit_done h
  have := bitRun_unitRun (c := c) (coef := coef) (s := s)
  rw [hr] at this
  exact this.of_done

theorem onStream_eq_done {f : Nat → Stream → Run Stream} {s u : State} (h : onStream f s = .done u) :
    ∃ st, f s.build.sinkCap.toNat s.stream = .done st ∧ u = { s with stream := st } := by
  unfold onStream at h
  cases hf : f s.build.sinkCap.toNat s.stream with
  | raised c st =>
    rw [hf] at h
    cases h
  | done st =>
    rw [hf] at h
    cases h
    exact ⟨st, rfl, rfl⟩

theorem thenPhase_eq_done {f : Nat → Stream → Run Stream} {s u : State} {p : Phase}
    (h : ((onStream f s).thenDo fun t => { t with phase := p }) = .done u) :
    ∃ st, f s.build.sinkCap.toNat s.stream = .done st ∧ u = { s with stream := st, phase := p } := by
  obtain ⟨v, hv, rfl⟩ := Run.thenDo_eq_done.mp h
  obtain ⟨st, hst, rfl⟩ := onStream_eq_done hv
  exact ⟨st, hst, rfl⟩

/-! ## No marker in the scan (44_bit_writer.md R140) -/

theorem drain_done {st st' : Stream} (h : drain st = .done st') :
    st'.ls = st.ls ∧ st'.sb = [] ∧ st'.acc = st.acc ∧ st'.nbits = st.nbits := by
  rcases drain_cases st with ⟨he, hd⟩ | ⟨-, -, hd⟩ | ⟨-, -, hd⟩
  · cases hd.symm.trans h
    exact ⟨rfl, he, rfl, rfl⟩
  · cases hd.symm.trans h
    exact ⟨by simp [Stream.ls], rfl, rfl, rfl⟩
  · cases hd.symm.trans h

/-- Stuffed bytes were appended to the logical stream. -/
def AddsStuffed (st st' : Stream) : Prop := ∃ l, st'.ls = st.ls ++ stuffed l

theorem addsStuffed_of_ls_eq {st st' : Stream} (h : st'.ls = st.ls) : AddsStuffed st st' := ⟨[], by simp [h, stuffed]⟩

theorem AddsStuffed.trans {a b c : Stream} (h : AddsStuffed a b) (k : AddsStuffed b c) : AddsStuffed a c := by
  obtain ⟨l, hl⟩ := h
  obtain ⟨m, hm⟩ := k
  exact ⟨l ++ m, by rw [hm, hl, stuffed_append, List.append_assoc]⟩

/-- A command that is legal in SCAN and does not reset appends stuffed bytes only. -/
theorem body_addsStuffed {i : Instr} {s u : State} (hp : s.phase = .scan) (hl : IsLegal i s.phase s.nextch)
    (hr : i ≠ .reset) (h : body i s = .done u) : AddsStuffed s.stream u.stream := by
  have data (hi : i = .encmcu ∨ ∃ ch, i = .encdu ch ∨ i = .enccoef ch) : AddsStuffed s.stream u.stream :=
    dataCommand_induction (P := fun v => AddsStuffed s.stream v.stream) hi (addsStuffed_of_ls_eq rfl)
      (fun c coef v w hv hw => hv.trans (bitsWritten_dataUnit hw).keeps.1) h
  obtain ⟨legal, -⟩ := hl
  cases i with
  | reset => exact absurd rfl hr
  | nop | rdreg | rdtbl =>
    cases h
    exact addsStuffed_of_ls_eq rfl
  | sync =>
    obtain ⟨st, hst, rfl⟩ := onStream_eq_done (f := fun _ => drain) h
    exact addsStuffed_of_ls_eq (drain_done hst).1
  | wbits len code =>
    obtain ⟨st, hst, rfl⟩ := onStream_eq_done (f := fun cap => writeBits cap code.toNat len.toNat) h
    have := bitRun_writeBits (cap := s.build.sinkCap.toNat) code.toNat len.toNat s.stream
    rw [hst] at this
    exact this.of_done.keeps.1
  | align =>
    obtain ⟨st, hst, rfl⟩ := thenPhase_eq_done h
    have := bitRun_alignBits (cap := s.build.sinkCap.toNat) (st := s.stream)
    rw [hst] at this
    exact this.of_done.keeps.1
  | encmcu => exact data (.inl rfl)
  | encdu ch => exact data (.inr ⟨ch, .inl rfl⟩)
  | enccoef ch => exact data (.inr ⟨ch, .inr rfl⟩)
  | wrreg | bldqt | bldht | soi | app0 | dqt | sof0 | dht | sos | wbyte | wword | eoi => simp [hp, legalPhases] at legal

/-- Settles O25: a command that ends in SCAN or ALIGNED took no fault and did not reset, so what it appended is stuffed, and
stuffed bytes hold no marker. -/
theorem scanDataHasNoMarker : Obligations.ScanDataHasNoMarker := by
  unfold Obligations.ScanDataHasNoMarker
  intro i s t hp _ h ht
  have hf : t.phase ≠ .fault := by rcases ht with ht | ht <;> rw [ht] <;> decide
  cases exec_ends (by rw [hp]; decide) h with
  | checked hc => exact absurd rfl hf
  | raised hc hb => exact absurd rfl hf
  | @answered u hc hb =>
    have hr : i ≠ .reset := by
      rintro rfl
      cases hb
      rcases ht with ht | ht <;> cases ht
    obtain ⟨l, hls⟩ := body_addsStuffed hp (legal_of_check hc) hr hb
    exact ⟨stuffed l, hls, markerFree_stuffed l⟩

/-! ## The sequencer's invariant (10_state.md R14, R15, R23, R31; 40_system_commands.md R86) -/

/-- After a fault only the cause, the old phase and the constants count. -/
theorem inv_takeFault {s : State} (c : FaultCause) (hb : BuildOk s.build) (hf : s.phase ≠ .fault) : Inv (takeFault c s) where
  build := hb
  cause := by simp
  oldPhase := hf
  noFault := fun h => absurd rfl h
  cursor := fun h => absurd rfl h
  tidy := fun h => absurd rfl h
  noPending := fun h => absurd rfl h
  channel := fun h => absurd rfl h
  tables := fun h => absurd rfl (not_fault_of_inStream h)
  quant := fun h => absurd rfl h
  huff := fun h => absurd rfl h
  unit := fun h => absurd rfl h
  delivered := by simp

theorem inv_doReset {s : State} (hb : BuildOk s.build) : Inv (doReset s) where
  build := hb
  cause := by simp
  oldPhase := by simp
  noFault := fun _ => rfl
  cursor := fun _ => hb.cap
  tidy := fun _ => by simp [Tidy]
  noPending := fun _ _ => rfl
  channel := fun _ _ => rfl
  tables := fun h => by simp [inStream] at h
  quant := fun _ h => by cases h
  huff := fun _ h => by cases h
  unit := fun _ h => by cases h
  delivered := fun _ => rfl

/-- Inv does not speak of the responses, the queue of acts, the payloads or OUT. -/
theorem inv_congr {s : State} (h : Inv s) (rsp : List Response) (inputs : List HostEvent) (payloads : List PayloadAnswer)
    (out : List Byte) :
    Inv { s with rsp := rsp, inputs := inputs, payloads := payloads, stream := { s.stream with out := out } } :=
  ⟨h.build, h.cause, h.oldPhase, h.noFault, h.cursor, h.tidy, h.noPending, h.channel, h.tables, h.quant, h.huff, h.unit,
    h.delivered⟩

/-- What a command outside the FAULT phase must see to, when it keeps the tables and registers. -/
theorem inv_of_kept {s u : State} (h : Inv s) (hf : s.phase ≠ .fault) (k : Kept s u) (hu : u.phase ≠ .fault)
    (room : u.stream.sb.length < s.build.sinkCap.toNat) (tidy : Tidy u.stream)
    (still : u.phase ≠ .scan → u.stream.nbits = 0 ∧ u.nextch = .y)
    (tables : inStream u.phase → s.qtValid = true ∧ s.htValid = true ∧ s.width ≠ 0 ∧ s.height ≠ 0)
    (unit : u.duValid = true → u.zzb = reorder s.build.zz u.coef)
    (delivered : u.phase = .idle ∨ u.phase = .done → u.stream.sb = []) : Inv u where
  build := k.build ▸ h.build
  cause := by
    have none : s.fault = none := by simpa using mt h.cause.mpr hf
    simp [k.fault, none, hu]
  oldPhase := k.fphase ▸ h.oldPhase
  noFault := fun _ => k.fphase.trans (h.noFault hf)
  cursor := fun _ => by rwa [k.build]
  tidy := fun _ => tidy
  noPending := fun _ hs => (still hs).1
  channel := fun _ hs => (still hs).2
  tables := fun hp => by rw [k.qtValid, k.htValid, k.width, k.height]; exact tables hp
  quant := fun _ hv => by rw [k.qt, k.build, k.scale]; exact h.quant hf (k.qtValid ▸ hv)
  huff := fun _ hv => by rw [k.ht, k.build]; exact h.huff hf (k.htValid ▸ hv)
  unit := fun _ hv => by rw [k.build]; exact unit hv
  delivered := delivered

/-- A command that changes the output path and PHASE alone. -/
theorem inv_of_output {s : State} (h : Inv s) (hf : s.phase ≠ .fault) {st : Stream} {p : Phase} (hp : p ≠ .fault)
    (room : st.sb.length < s.build.sinkCap.toNat) (tidy : Tidy st)
    (still : p ≠ .scan → st.nbits = 0 ∧ s.nextch = .y)
    (tables : inStream p → s.qtValid = true ∧ s.htValid = true ∧ s.width ≠ 0 ∧ s.height ≠ 0)
    (delivered : p = .idle ∨ p = .done → st.sb = []) : Inv { s with stream := st, phase := p } :=
  inv_of_kept h hf ⟨rfl, rfl, rfl, rfl, rfl, rfl, rfl, rfl, rfl, rfl, rfl, rfl⟩ hp room tidy still
    tables (h.unit hf) delivered

/-- Bytes go out between scans: nothing is pending before or after. -/
theorem inv_of_appendBytes {s : State} (h : Inv s) (hf : s.phase ≠ .fault) (hscan : s.phase ≠ .scan) {l : List Byte}
    {st : Stream} {p : Phase} (hst : appendBytes s.build.sinkCap.toNat l s.stream = .done st) (hp : p ≠ .fault)
    (tables : inStream p → s.qtValid = true ∧ s.htValid = true ∧ s.width ≠ 0 ∧ s.height ≠ 0)
    (open_ : inStream p) : Inv { s with stream := st, phase := p } := by
  obtain ⟨-, acc, nbits, room⟩ := appendBytes_done hst
  refine inv_of_output h hf hp (room (h.cursor hf)) ?_ (fun _ => ⟨?_, h.channel hf hscan⟩) tables fun hidle => ?_
  · have := h.tidy hf
    rwa [Tidy, ← acc, ← nbits] at this
  · rw [nbits, h.noPending hf hscan]
  · rcases hidle with rfl | rfl <;> simp [inStream] at open_

theorem inv_clearStream {s : State} (h : Inv s) (hf : s.phase ≠ .fault) : Inv (clearStream s) :=
  inv_of_kept h hf ⟨rfl, rfl, rfl, rfl, rfl, rfl, rfl, rfl, rfl, rfl, rfl, rfl⟩ hf (h.cursor hf) (by simp [Tidy])
    (fun _ => ⟨rfl, rfl⟩) h.tables (fun hv => by cases hv) h.delivered

theorem inv_dataUnit {c : Channel} {coef : Vector Word16 64} {s u : State} (h : Inv s) (hp : s.phase = .scan)
    (hu : dataUnit c coef s = .done u) : Inv u ∧ u.phase = .scan := by
  have hf : s.phase ≠ .fault := by rw [hp]; decide
  obtain ⟨-, room, tidy⟩ := (bitsWritten_dataUnit hu).keeps
  have kept := kept_dataUnit (c := c) (coef := coef) (s := s)
  rw [hu] at kept
  obtain ⟨st, -, rfl⟩ := dataUnit_done hu
  refine ⟨inv_of_kept h hf kept hf (room (h.cursor hf)) (tidy (h.tidy hf)) (fun hs => absurd hp hs) h.tables (fun _ => rfl) ?_,
    hp⟩
  rintro (hidle | hdone)
  · exact absurd (hp.symm.trans hidle) (by decide)
  · exact absurd (hp.symm.trans hdone) (by decide)

theorem inv_writeRegister {addr : BitVec 8} {data : Word16} {s : State} (h : Inv s)
    (hp : ¬ inStream s.phase) : Inv (writeRegister addr data s) := by
  unfold writeRegister
  split
  · exact ⟨h.build, h.cause, h.oldPhase, h.noFault, h.cursor, h.tidy, h.noPending, h.channel, fun hs => absurd hs hp, h.quant,
      h.huff, h.unit, h.delivered⟩
  · exact ⟨h.build, h.cause, h.oldPhase, h.noFault, h.cursor, h.tidy, h.noPending, h.channel, fun hs => absurd hs hp, h.quant,
      h.huff, h.unit, h.delivered⟩
  · exact ⟨h.build, h.cause, h.oldPhase, h.noFault, h.cursor, h.tidy, h.noPending, h.channel, fun hs => absurd hs hp,
      (fun _ hv => nomatch hv), h.huff, h.unit, h.delivered⟩
  · exact h

/-- SOI passes its checks with valid tables and dimensions. -/
theorem tables_of_check_soi {s : State} (hc : check .soi s = none) :
    s.qtValid = true ∧ s.htValid = true ∧ s.width ≠ 0 ∧ s.height ≠ 0 := by
  obtain ⟨-, -, -, hp⟩ := check_eq_none.mp hc
  simp only [precondition] at hp
  split at hp
  next => cases hp
  next hv =>
    split at hp
    next => cases hp
    next hd => simpa [not_or, and_assoc] using And.intro hv hd

theorem not_inStream_of_idle_or_done {p : Phase} (h : p = .idle ∨ p = .done) : ¬ inStream p := by
  rcases h with rfl | rfl <;> simp [inStream]

/-- The pseudocode of every command keeps the invariant. -/
theorem inv_body_done {i : Instr} {s u : State} (h : Inv s) (hf : s.phase ≠ .fault) (hc : check i s = none)
    (hb : body i s = .done u) : Inv u := by
  obtain ⟨legal, channel⟩ := legal_of_check hc
  have data (hp : s.phase = .scan) (hi : i = .encmcu ∨ ∃ ch, i = .encdu ch ∨ i = .enccoef ch) : Inv u :=
    (dataCommand_induction (P := fun v => Inv v ∧ v.phase = .scan) hi
      ⟨inv_congr h s.rsp s.inputs s.payloads.tail s.stream.out, hp⟩
      (fun c coef v w hv hw => inv_dataUnit hv.1 hv.2 hw) hb).1
  cases i with
  | nop | rdreg | rdtbl =>
    cases hb
    exact h
  | reset =>
    cases hb
    exact inv_doReset h.build
  | wrreg addr data =>
    cases hb
    exact inv_writeRegister h (not_inStream_of_idle_or_done (by simpa [legalPhases] using legal))
  | bldqt =>
    cases hb
    have closed := not_inStream_of_idle_or_done (p := s.phase) (by simpa [legalPhases] using legal)
    exact ⟨h.build, h.cause, h.oldPhase, h.noFault, h.cursor, h.tidy, h.noPending, h.channel, fun hs => absurd hs closed,
      fun _ _ => rfl, h.huff, h.unit, h.delivered⟩
  | bldht =>
    have closed := not_inStream_of_idle_or_done (p := s.phase) (by simpa [legalPhases] using legal)
    rcases bldhtBody_cases s with ⟨-, hd⟩ | ⟨hm, hd⟩
    · cases hd.symm.trans hb
    · cases hd.symm.trans hb
      exact ⟨h.build, h.cause, h.oldPhase, h.noFault, h.cursor, h.tidy, h.noPending, h.channel, fun hs => absurd hs closed,
        h.quant, fun _ _ => ⟨hm, rfl⟩, h.unit, h.delivered⟩
  | wbits len code =>
    have hp : s.phase = .scan := by simpa [legalPhases] using legal
    obtain ⟨st, hst, rfl⟩ := onStream_eq_done (f := fun cap => writeBits cap code.toNat len.toNat) hb
    have written := bitRun_writeBits (cap := s.build.sinkCap.toNat) code.toNat len.toNat s.stream
    rw [hst] at written
    obtain ⟨-, room, tidy⟩ := written.of_done.keeps
    exact inv_of_output h hf hf (room (h.cursor hf)) (tidy (h.tidy hf)) (fun hs => absurd hp hs) h.tables (by simp [hp])
  | wbyte byte =>
    obtain ⟨st, hst, rfl⟩ := onStream_eq_done (f := fun cap => appendBytes cap [byte]) hb
    have hp : s.phase ≠ .scan ∧ inStream s.phase := by
      simp only [legalPhases, List.mem_cons, List.not_mem_nil, or_false] at legal
      rcases legal with hp | hp | hp | hp | hp | hp <;> simp [hp, inStream]
    exact inv_of_appendBytes h hf hp.1 hst hf h.tables hp.2
  | wword word =>
    obtain ⟨st, hst, rfl⟩ := onStream_eq_done (f := fun cap => appendBytes cap (wordBytes word)) hb
    have hp : s.phase ≠ .scan ∧ inStream s.phase := by
      simp only [legalPhases, List.mem_cons, List.not_mem_nil, or_false] at legal
      rcases legal with hp | hp | hp | hp | hp | hp <;> simp [hp, inStream]
    exact inv_of_appendBytes h hf hp.1 hst hf h.tables hp.2
  | align =>
    have hp : s.phase = .scan := by simpa [legalPhases] using legal
    obtain ⟨st, hst, rfl⟩ := thenPhase_eq_done hb
    have written := bitRun_alignBits (cap := s.build.sinkCap.toNat) (st := s.stream)
    rw [hst] at written
    obtain ⟨-, room, tidy⟩ := written.of_done.keeps
    exact inv_of_output h hf (by decide) (room (h.cursor hf)) (tidy (h.tidy hf))
      (fun _ => ⟨alignBits_nbits hst, (channel _ rfl).symm⟩) (fun _ => h.tables (by simp [hp, inStream])) (by simp)
  | sync =>
    obtain ⟨st, hst, rfl⟩ := onStream_eq_done (f := fun _ => drain) hb
    obtain ⟨-, sb, acc, nbits⟩ := drain_done hst
    refine inv_of_output h hf hf (by rw [sb]; exact h.build.cap) ?_ (fun hs => ⟨?_, h.channel hf hs⟩) h.tables fun _ => sb
    · have := h.tidy hf
      rwa [Tidy, ← acc, ← nbits] at this
    · rw [nbits, h.noPending hf hs]
  | soi =>
    have tables := tables_of_check_soi hc
    have hp : s.phase ≠ .scan := by
      intro hp
      simp [hp, legalPhases] at legal
    obtain ⟨st, hst, rfl⟩ := thenPhase_eq_done (s := clearStream s) hb
    exact inv_of_appendBytes (inv_clearStream h hf) hf hp hst (by decide) (fun _ => tables) (by simp [inStream])
  | app0 | dqt | sof0 | dht | sos =>
    obtain ⟨st, hst, rfl⟩ := thenPhase_eq_done hb
    have hp := List.mem_singleton.mp legal
    exact inv_of_appendBytes h hf (by rw [hp]; decide) hst (by decide) (fun _ => h.tables (by simp [hp, inStream]))
      (by simp [inStream])
  | eoi =>
    obtain ⟨st, hst, rfl⟩ := thenPhase_eq_done hb
    obtain ⟨st1, happ, hdrain⟩ := Run.andThen_eq_done.mp hst
    have hp : s.phase ≠ .scan := by
      intro hp
      simp [hp, legalPhases] at legal
    obtain ⟨-, acc1, nbits1, -⟩ := appendBytes_done happ
    obtain ⟨-, sb, acc2, nbits2⟩ := drain_done hdrain
    refine inv_of_output h hf (by decide) (by rw [sb]; exact h.build.cap) ?_ (fun _ => ⟨?_, h.channel hf hp⟩)
      (fun hs => absurd hs (not_inStream_of_idle_or_done (.inr rfl))) fun _ => sb
    · have := h.tidy hf
      rwa [Tidy, ← acc1, ← nbits1, ← acc2, ← nbits2] at this
    · rw [nbits2, nbits1, h.noPending hf hp]
  | encmcu => exact data (by simpa [legalPhases] using legal) (.inl rfl)
  | encdu ch => exact data (by simpa [legalPhases] using legal) (.inr ⟨ch, .inl rfl⟩)
  | enccoef ch => exact data (by simpa [legalPhases] using legal) (.inr ⟨ch, .inr rfl⟩)

theorem inv_respond {s : State} (h : Inv s) (st : BitVec 4) (data : Word32) : Inv (respond st data s) :=
  inv_congr h _ s.inputs s.payloads s.stream.out

theorem inv_faultGate {i : Instr} {s : State} (h : Inv s) : Inv (faultGate i s) := by
  unfold faultGate
  split
  · exact inv_respond h _ _
  · split
    · exact inv_respond (inv_doReset h.build) _ _
    · split
      · exact inv_respond h _ _
      · exact inv_respond h _ _

theorem inv_exec {i : Instr} {s t : State} (h : Inv s) (ht : exec i s = .next t) : Inv t := by
  by_cases hf : s.phase = .fault
  · cases (exec_in_fault hf).symm.trans ht
    exact inv_faultGate h
  · cases exec_ends hf ht with
    | checked hc => exact inv_takeFault _ h.build hf
    | raised hc hb =>
      have build := (body_hostSide i s).2.2
      rw [hb] at build
      exact inv_takeFault _ (build ▸ h.build) (by rwa [phase_of_raised hb])
    | answered hc hb => exact inv_respond (inv_body_done h hf hc hb) _ _

/-- Settles O60: the host's own acts, a reserved word, and every command. -/
theorem stepKeepsInvariant : Obligations.StepKeepsInvariant := by
  unfold Obligations.StepKeepsInvariant
  intro s t h ht
  have taken (rest : List HostEvent) : Inv { s with inputs := rest } := inv_congr h s.rsp rest s.payloads s.stream.out
  match hin : s.inputs with
  | [] =>
    cases (step_idle hin).symm.trans ht
    exact h
  | .rst :: rest =>
    cases (step_rst hin).symm.trans ht
    exact inv_doReset h.build
  | .takeOut :: rest =>
    cases (step_takeOut hin).symm.trans ht
    exact inv_congr h s.rsp rest s.payloads []
  | .cmd w :: rest =>
    cases hd : decode w with
    | ok i => exact inv_exec (taken rest) ((step_command hin hd).symm.trans ht)
    | error e =>
      cases (step_reserved hin hd).symm.trans ht
      by_cases hf : s.phase = .fault
      · rw [reservedWord_in_fault (by exact hf)]
        exact inv_respond (taken rest) _ _
      · rw [reservedWord_of_not_fault (by exact hf)]
        exact inv_takeFault _ h.build hf

theorem buildOk_defaultBuild : BuildOk defaultBuild :=
  ⟨by decide, by decide +kernel, by decide, by decide +kernel⟩

/-- Settles O59: the default build is sound, and State.reset has the values of a reset. -/
theorem resetMeetsInvariant : Obligations.ResetMeetsInvariant where
  build := buildOk_defaultBuild
  cause := by decide
  oldPhase := by decide
  noFault := fun _ => rfl
  cursor := fun _ => by decide
  tidy := fun _ => by simp [Tidy, State.reset]
  noPending := fun _ _ => rfl
  channel := fun _ _ => rfl
  tables := fun h => by simp [inStream, State.reset] at h
  quant := fun _ h => by cases h
  huff := fun _ h => by cases h
  unit := fun _ h => by cases h
  delivered := fun _ => rfl

end Sys2Proof.Machine
end

section
/-! The table builder (41_table_builder.md R90 to R94): the running value of the code assignment, the three tests of a
specification, the code that comes out, and the quantization tables. -/

namespace Sys2Proof.Machine

open Sys2Proof.Safety Sys2Proof.Reference

/-! ## BLDQT (41_table_builder.md R93, R94) -/

theorem quantStep_toNat (base : Byte) (scale : Word16) :
    (quantStep base scale).toNat = max 1 (min 255 ((base.toNat * scale.toNat + 50) / 100)) := by
  rw [quantStep, BitVec.toNat_ofNat]
  omega

/-- The entry for position ZZ[i] stands at natural index i, with the base of that index. -/
theorem buildBothQt_entry {b : Build} (hb : BuildOk b) (scale : Word16) (q : Fin 2) (i : Fin 64) :
    ((buildBothQt b scale)[q])[i] = quantStep (b.qbase[q])[i] scale := by
  simp only [buildBothQt, buildQt, qbaseZz, vec_getElem_fin, natIndex_zz hb.zigzag]

/-- Settles O15: the zigzag order of the base and of the entries cancel out. -/
theorem bldqtBuilds : Obligations.BldqtBuilds := by
  unfold Obligations.BldqtBuilds
  intro s hb hp
  have hf : s.phase ≠ .fault := by rcases hp with h | h <;> simp [h]
  have hc : check .bldqt s = none := check_eq_none.mpr ⟨rfl, rfl, decide_eq_true hp, rfl⟩
  exact ⟨buildBothQt s.build s.scale, exec_of_body_done hf hc rfl,
    fun q i => by rw [buildBothQt_entry hb, quantStep_toNat]⟩

/-! ## The codes of one length (41_table_builder.md R90) -/

/-- The assignments of one length. -/
def assignGroup (len code : Nat) (symbols : List Byte) : List Assigned :=
  symbols.zipIdx.map fun p => ⟨p.1, len, code + p.2⟩

theorem assignCodes_cons (c : Byte) (rest : List Byte) (len code : Nat) (symbols : List Byte) :
    assignCodes (c :: rest) len code symbols = assignGroup len code (symbols.take c.toNat) ++
      assignCodes rest (len + 1) ((code + c.toNat) * 2) (symbols.drop c.toNat) := rfl

@[simp] theorem assignGroup_length (len code : Nat) (symbols : List Byte) :
    (assignGroup len code symbols).length = symbols.length := by
  simp [assignGroup]

theorem assignGroup_getElem {len code : Nat} {symbols : List Byte} {i : Nat} (h : i < (assignGroup len code symbols).length) :
    (assignGroup len code symbols)[i] = ⟨symbols[i]'(by simpa using h), len, code + i⟩ := by
  simp [assignGroup]

theorem mem_assignGroup {len code : Nat} {symbols : List Byte} {a : Assigned} (h : a ∈ assignGroup len code symbols) :
    a.len = len ∧ ∃ i < symbols.length, a.code = code + i := by
  obtain ⟨i, hi, rfl⟩ := List.mem_iff_getElem.mp h
  rw [assignGroup_getElem hi]
  exact ⟨rfl, i, by simpa using hi, rfl⟩

theorem assignGroup_map_sym (len code : Nat) (symbols : List Byte) :
    (assignGroup len code symbols).map (·.sym) = symbols := by
  simp [assignGroup, Function.comp_def]

section
variable {c : Byte} {rest symbols : List Byte}

/-- With counts that add up, every group gets its symbols. -/
theorem length_take_of_countSum (h : countSum (c :: rest) = symbols.length) :
    (symbols.take c.toNat).length = c.toNat ∧ countSum rest = (symbols.drop c.toNat).length := by
  simp only [countSum] at h
  simp only [List.length_take, List.length_drop]
  omega

end

/-! ## The three tests (41_table_builder.md R91) -/

theorem hasRepeat_eq_true {l : List Nat} : hasRepeat l = true ↔ ¬ l.Nodup := by
  induction l with
  | nil => simp [hasRepeat]
  | cons b rest ih => simp [hasRepeat, ih, List.nodup_cons, Classical.or_iff_not_imp_left]

theorem hasRepeat_toNat {symbols : List Byte} : hasRepeat (symbols.map (·.toNat)) = true ↔ ¬ symbols.Nodup := by
  rw [hasRepeat_eq_true, List.nodup_map_iff fun a b => BitVec.eq_of_toNat_eq]

/-- The running value exceeds the codes of its length, at this length or a later one. -/
def overfull (counts : List Byte) (len code : Nat) : Prop :=
  match counts with
  | [] => False
  | c :: rest => 2 ^ len < code + c.toNat ∨ overfull rest (len + 1) ((code + c.toNat) * 2)

/-- A code that does not fit its length is assigned exactly if the running value gets too large. -/
theorem exists_code_too_long_iff {counts symbols : List Byte} {len code : Nat} (hs : countSum counts = symbols.length)
    (hc : code ≤ 2 ^ len) :
    (∃ a ∈ assignCodes counts len code symbols, 2 ^ a.len ≤ a.code) ↔ overfull counts len code := by
  induction counts generalizing len code symbols with
  | nil => simp [assignCodes, overfull]
  | cons c rest ih =>
    obtain ⟨hgroup, hrest⟩ := length_take_of_countSum hs
    rw [overfull, assignCodes_cons]
    by_cases hover : 2 ^ len < code + c.toNat
    · refine iff_of_true ?_ (.inl hover)
      have hlast : c.toNat - 1 < (assignGroup len code (symbols.take c.toNat)).length := by
        rw [assignGroup_length]
        omega
      refine ⟨_, List.mem_append_left _ (List.getElem_mem hlast), ?_⟩
      rw [assignGroup_getElem hlast]
      show 2 ^ len ≤ code + (c.toNat - 1)
      omega
    · have next := ih hrest (len := len + 1) (code := (code + c.toNat) * 2) (by rw [pow_succ]; omega)
      rw [or_iff_right hover, ← next]
      refine ⟨fun ⟨a, ha, hlong⟩ => ?_, fun ⟨a, ha, hlong⟩ => ⟨a, List.mem_append_right _ ha, hlong⟩⟩
      rcases List.mem_append.mp ha with ha | ha
      · obtain ⟨hlen, i, hi, hcode⟩ := mem_assignGroup ha
        rw [hlen, hcode] at hlong
        omega
      · exact ⟨a, ha, hlong⟩

/-- The Kraft sum of the first L + 1 lengths, in units of 2^(-L-1). -/
def kraft (counts : List Byte) (L : Nat) : Nat := ∑ l ∈ Finset.range (L + 1), (counts.getD l 0).toNat * 2 ^ (L - l)

theorem kraft_cons_zero (c : Byte) (rest : List Byte) : kraft (c :: rest) 0 = c.toNat := by
  simp [kraft]

theorem kraft_cons_succ (c : Byte) (rest : List Byte) (L : Nat) :
    kraft (c :: rest) (L + 1) = c.toNat * 2 ^ (L + 1) + kraft rest L := by
  rw [kraft, Finset.sum_range_succ', kraft, Nat.add_comm]
  simp

theorem overfull_iff_kraft {counts : List Byte} {len code : Nat} :
    overfull counts len code ↔ ∃ L < counts.length, 2 ^ (len + L) < code * 2 ^ L + kraft counts L := by
  induction counts generalizing len code with
  | nil => simp [overfull]
  | cons c rest ih =>
    have shift (L : Nat) : code * 2 ^ (L + 1) + kraft (c :: rest) (L + 1) =
        (code + c.toNat) * 2 * 2 ^ L + kraft rest L := by
      rw [kraft_cons_succ]
      ring
    rw [overfull, ih, List.length_cons, Nat.exists_lt_succ_left]
    simp only [shift, kraft_cons_zero, pow_zero, mul_one, add_zero]
    exact or_congr_right (by simp only [Nat.add_assoc, Nat.add_comm 1])

theorem countSum_eq_sum (counts : List Byte) :
    countSum counts = ∑ l ∈ Finset.range counts.length, (counts.getD l 0).toNat := by
  induction counts with
  | nil => rfl
  | cons c rest ih =>
    rw [countSum, ih, List.length_cons, Finset.sum_range_succ', Nat.add_comm]
    simp

/-- The sums of the statement, over the places of the vector. -/
theorem sum_counts_eq (v : Vector Byte 16) (f : Byte → Nat → Nat) :
    ∑ l : Fin 16, f v[l] l.val = ∑ l ∈ Finset.range 16, f (v.toList.getD l 0) l := by
  rw [← Fin.sum_univ_eq_sum_range (fun l => f (v.toList.getD l 0) l) 16]
  refine Finset.sum_congr rfl fun l _ => ?_
  simp

theorem kraft_eq_sum (v : Vector Byte 16) (L : Fin 16) :
    kraft v.toList L.val = ∑ l : Fin 16, if l ≤ L then (v[l]).toNat * 2 ^ (L.val - l.val) else 0 := by
  have places : (Finset.range 16).filter (· ≤ L.val) = Finset.range (L.val + 1) := by
    ext l
    simp only [Finset.mem_filter, Finset.mem_range]
    omega
  have sum := sum_counts_eq v fun c l => if l ≤ L.val then c.toNat * 2 ^ (L.val - l) else 0
  simp only [Fin.le_def]
  rw [sum, ← Finset.sum_filter, places, kraft]

theorem malformed_iff {h : HuffSpec} :
    malformed h = true ↔ countSum h.counts.toList ≠ h.symbols.length ∨ ¬ h.symbols.Nodup ∨
      ∃ a ∈ assignments h, 2 ^ a.len ≤ a.code := by
  simp only [malformed, Bool.or_eq_true, bne_iff_ne, hasRepeat_toNat, List.any_eq_true, decide_eq_true_eq, or_assoc]

/-- Settles O17: where the counts add up, a code too long for its length is the sign of an overfull Kraft sum. -/
theorem malformedMeans : Obligations.MalformedMeans := by
  unfold Obligations.MalformedMeans
  intro h
  have total : countSum h.counts.toList = ∑ l : Fin 16, (h.counts[l]).toNat := by
    rw [countSum_eq_sum, Vector.length_toList]
    exact (sum_counts_eq h.counts fun c _ => c.toNat).symm
  have sums : overfull h.counts.toList 1 0 ↔
      ∃ L : Fin 16, 2 ^ (L.val + 1) < ∑ l : Fin 16, if l ≤ L then (h.counts[l]).toNat * 2 ^ (L.val - l.val) else 0 := by
    simp only [overfull_iff_kraft, Vector.length_toList, zero_mul, zero_add, ← kraft_eq_sum, Fin.exists_iff, exists_prop,
      Nat.add_comm 1]
  rw [malformed_iff, ← total]
  refine or_congr_right' fun hsum => or_congr_right ?_
  rw [← sums]
  exact exists_code_too_long_iff (not_not.mp hsum) (by decide)

/-! ## The assignments of a specification that is not malformed (41_table_builder.md R96) -/

/-- The next code: one more, with a zero appended for every further bit. -/
def FollowsCode (a b : Assigned) : Prop := a.len ≤ b.len ∧ b.code = (a.code + 1) * 2 ^ (b.len - a.len)

section
variable {counts symbols : List Byte} {len code : Nat}

theorem assignCodes_map_sym (hs : countSum counts = symbols.length) :
    (assignCodes counts len code symbols).map (·.sym) = symbols := by
  induction counts generalizing len code symbols with
  | nil => exact (List.length_eq_zero_iff.mp hs.symm).symm
  | cons c rest ih =>
    obtain ⟨-, hrest⟩ := length_take_of_countSum hs
    rw [assignCodes_cons, List.map_append, assignGroup_map_sym, ih hrest, List.take_append_drop]

theorem assignCodes_len {a : Assigned} (h : a ∈ assignCodes counts len code symbols) :
    len ≤ a.len ∧ a.len < len + counts.length := by
  induction counts generalizing len code symbols with
  | nil => cases h
  | cons c rest ih =>
    rw [List.length_cons]
    rcases List.mem_append.mp h with h | h
    · obtain ⟨hlen, -⟩ := mem_assignGroup h
      omega
    · have := ih h
      omega

/-- The first code is the running value, with the zeros of the lengths that have no codes. -/
theorem assignCodes_head (hs : countSum counts = symbols.length) :
    ∀ b ∈ (assignCodes counts len code symbols).head?, len ≤ b.len ∧ b.code = code * 2 ^ (b.len - len) := by
  induction counts generalizing len code symbols with
  | nil => simp [assignCodes]
  | cons c rest ih =>
    obtain ⟨hgroup, hrest⟩ := length_take_of_countSum hs
    intro b hb
    rw [assignCodes_cons] at hb
    by_cases hc : c.toNat = 0
    · have empty : assignGroup len code (symbols.take c.toNat) = [] := by simp [assignGroup, hc]
      rw [empty, List.nil_append] at hb
      obtain ⟨hlen, hcode⟩ := ih hrest b hb
      refine ⟨by omega, ?_⟩
      rw [hcode, hc, Nat.add_zero, Nat.mul_assoc, ← pow_succ', show b.len - len = b.len - (len + 1) + 1 by omega]
    · have first : 0 < (assignGroup len code (symbols.take c.toNat)).length := by rw [assignGroup_length]; omega
      rw [List.head?_append_of_ne_nil _ (List.length_pos_iff.mp first), List.head?_eq_getElem?,
        List.getElem?_eq_getElem first, assignGroup_getElem first, Option.mem_some_iff] at hb
      subst hb
      simp

theorem assignCodes_isChain (hs : countSum counts = symbols.length) :
    (assignCodes counts len code symbols).IsChain FollowsCode := by
  induction counts generalizing len code symbols with
  | nil => exact .nil
  | cons c rest ih =>
    obtain ⟨hgroup, hrest⟩ := length_take_of_countSum hs
    rw [assignCodes_cons, List.isChain_append]
    refine ⟨List.isChain_iff_getElem.mpr fun i hi => ?_, ih hrest, fun a ha b hb => ?_⟩
    · rw [assignGroup_getElem, assignGroup_getElem]
      simp [FollowsCode, Nat.add_assoc]
    · obtain ⟨hlen, hcode⟩ := assignCodes_head hrest b hb
      rw [List.getLast?_eq_getElem?, Option.mem_def, List.getElem?_eq_some_iff] at ha
      obtain ⟨hlast, rfl⟩ := ha
      rw [assignGroup_getElem hlast]
      simp only [assignGroup_length] at hlast ⊢
      refine ⟨by show len ≤ _; omega, ?_⟩
      show b.code = (code + ((symbols.take c.toNat).length - 1) + 1) * 2 ^ (b.len - len)
      rw [hcode, show code + ((symbols.take c.toNat).length - 1) + 1 = code + c.toNat by omega, Nat.mul_assoc, ← pow_succ',
        show b.len - (len + 1) + 1 = b.len - len by omega]

end

/-- Along a chain: lengths do not decrease, codes of one length are consecutive, a longer code lies beyond every extension of
a shorter one. -/
theorem followsCode_trans {l : List Assigned} (h : l.IsChain FollowsCode) {j k : Nat} (hjk : j < k) (hk : k < l.length) :
    (l[j]).len ≤ (l[k]).len ∧ ((l[j]).code + 1) * 2 ^ ((l[k]).len - (l[j]).len) ≤ (l[k]).code ∧
      ((l[j]).len = (l[k]).len → (l[k]).code = (l[j]).code + (k - j)) := by
  induction k, hjk using Nat.le_induction with
  | base =>
    obtain ⟨hlen, hcode⟩ := List.isChain_iff_getElem.mp h j hk
    refine ⟨hlen, hcode.ge, fun heq => ?_⟩
    rw [hcode, heq]
    simp
  | succ k hjk ih =>
    obtain ⟨hlen, hcode⟩ := List.isChain_iff_getElem.mp h k hk
    obtain ⟨ihlen, ihcode, iheq⟩ := ih (by omega)
    refine ⟨ihlen.trans hlen, ?_, fun heq => ?_⟩
    · calc ((l[j]).code + 1) * 2 ^ ((l[k + 1]).len - (l[j]).len)
          = ((l[j]).code + 1) * 2 ^ ((l[k]).len - (l[j]).len) * 2 ^ ((l[k + 1]).len - (l[k]).len) := by
            rw [Nat.mul_assoc, ← pow_add]
            congr 2
            omega
        _ ≤ ((l[k]).code + 1) * 2 ^ ((l[k + 1]).len - (l[k]).len) := by gcongr; omega
        _ = (l[k + 1]).code := hcode.symm
    · have hj : (l[j]).len = (l[k]).len := by omega
      have hk1 : (l[k + 1]).len - (l[k]).len = 0 := by omega
      rw [hcode, iheq hj, hk1]
      omega

/-! ## The entries of the table -/

/-- The entry that an assignment gives; without one it is (0, 0). -/
def entryOf : Option Assigned → HuffEntry
  | none => ⟨0, 0⟩
  | some a => ⟨BitVec.ofNat 5 a.len, BitVec.ofNat 16 a.code⟩

theorem buildHuff_getElem (h : HuffSpec) (s : Fin 256) :
    (buildHuff h)[s] = entryOf ((assignments h).find? fun a => a.sym.toNat == s.val) := by
  rw [buildHuff, vec_getElem_fin]
  cases (assignments h).find? fun a => a.sym.toNat == s.val <;> rfl

section
variable {h : HuffSpec}

/-- What a specification that is not malformed has. -/
theorem wellFormed_spec (hm : malformed h = false) :
    countSum h.counts.toList = h.symbols.length ∧ h.symbols.Nodup ∧ ∀ a ∈ assignments h, a.code < 2 ^ a.len := by
  have good := mt malformed_iff.mpr (Bool.eq_false_iff.mp hm)
  simpa only [not_or, not_not, not_exists, not_and, not_le] using good

theorem assignments_length (hm : malformed h = false) : (assignments h).length = h.symbols.length := by
  have := congrArg List.length (assignCodes_map_sym (len := 1) (code := 0) (wellFormed_spec hm).1)
  rwa [List.length_map] at this

theorem assignments_sym (hm : malformed h = false) {j : Nat} (hj : j < h.symbols.length) :
    ((assignments h)[j]'(by rwa [assignments_length hm])).sym = h.symbols[j] := by
  have names := assignCodes_map_sym (len := 1) (code := 0) (wellFormed_spec hm).1
  have : ((assignments h).map (·.sym))[j]? = h.symbols[j]? := by rw [← names]; rfl
  rw [List.getElem?_map, List.getElem?_eq_getElem (by rwa [assignments_length hm]), List.getElem?_eq_getElem hj] at this
  exact Option.some.inj this

theorem assignments_bounds (hm : malformed h = false) {a : Assigned} (ha : a ∈ assignments h) :
    1 ≤ a.len ∧ a.len ≤ 16 ∧ a.code < 2 ^ a.len := by
  have hlen := assignCodes_len ha
  rw [Vector.length_toList] at hlen
  exact ⟨hlen.1, by omega, (wellFormed_spec hm).2.2 a ha⟩

/-- The entry of a listed symbol holds its assignment, whole. -/
theorem buildHuff_listed (hm : malformed h = false) {j : Nat} (hj : j < h.symbols.length) :
    ((buildHuff h)[(h.symbols[j]).toFin]).len.toNat = ((assignments h)[j]'(by rwa [assignments_length hm])).len ∧
      ((buildHuff h)[(h.symbols[j]).toFin]).code.toNat = ((assignments h)[j]'(by rwa [assignments_length hm])).code := by
  have hj' : j < (assignments h).length := by rwa [assignments_length hm]
  have found : (assignments h).find? (fun a => a.sym.toNat == ((h.symbols[j]).toFin).val) = some (assignments h)[j] := by
    refine List.find?_eq_some_iff_getElem.mpr ⟨by simp [assignments_sym hm hj], j, hj', rfl, fun i hi => ?_⟩
    have hne : h.symbols[i] ≠ h.symbols[j] := fun heq =>
      absurd (((wellFormed_spec hm).2.1.getElem_inj_iff).mp heq) (Nat.ne_of_lt hi)
    rw [assignments_sym hm (hi.trans hj), Bool.not_eq_true', beq_eq_false_iff_ne]
    exact fun heq => hne (BitVec.eq_of_toNat_eq heq)
  obtain ⟨-, hlen, hcode⟩ := assignments_bounds hm (List.getElem_mem hj')
  have short : 2 ^ ((assignments h)[j]).len ≤ 2 ^ 16 := Nat.pow_le_pow_right (by decide) hlen
  rw [buildHuff_getElem, found]
  simp only [entryOf, BitVec.toNat_ofNat]
  exact ⟨Nat.mod_eq_of_lt (by omega), Nat.mod_eq_of_lt (by omega)⟩

theorem buildHuff_unlisted (hm : malformed h = false) {s : Fin 256} (hs : BitVec.ofNat 8 s.val ∉ h.symbols) :
    (buildHuff h)[s] = ⟨0, 0⟩ := by
  have missing : (assignments h).find? (fun a => a.sym.toNat == s.val) = none := by
    refine List.find?_eq_none.mpr fun a ha heq => hs ?_
    have names : (assignments h).map (·.sym) = h.symbols := assignCodes_map_sym (wellFormed_spec hm).1
    have hsym : a.sym = BitVec.ofNat 8 s.val := by rw [← (beq_iff_eq.mp heq), BitVec.ofNat_toNat, BitVec.setWidth_eq]
    rw [← hsym, ← names]
    exact List.mem_map_of_mem ha
  rw [buildHuff_getElem, missing]
  rfl

/-- A listed symbol has a place in the list. -/
theorem exists_place {s : Fin 256} (hs : BitVec.ofNat 8 s.val ∈ h.symbols) :
    ∃ j, ∃ hj : j < h.symbols.length, (h.symbols[j]).toFin = s := by
  obtain ⟨j, hj, heq⟩ := List.mem_iff_getElem.mp hs
  exact ⟨j, hj, by rw [heq, ofNat_toFin]⟩

end

/-! ## Prefixes -/

/-- A bit string that begins another one is the number the other begins with. -/
theorem code_of_prefix {c d m n : Nat} (hc : c < 2 ^ m) (hd : d < 2 ^ n) (h : bitString c m <+: bitString d n) :
    m ≤ n ∧ c = d / 2 ^ (n - m) := by
  have hmn : m ≤ n := by simpa [bitString] using h.length_le
  refine ⟨hmn, Nat.eq_of_testBit_eq fun b => ?_⟩
  rw [Nat.testBit_div_two_pow]
  by_cases hb : b < m
  · have bit := h.getElem (i := m - 1 - b) (by simp [bitString]; omega)
    simp only [bitString, List.getElem_map, List.getElem_range] at bit
    rw [show m - 1 - (m - 1 - b) = b by omega, show n - 1 - (m - 1 - b) = b + (n - m) by omega] at bit
    exact bit
  · rw [Nat.testBit_lt_two_pow (hc.trans_le (Nat.pow_le_pow_right (by decide) (by omega))),
      Nat.testBit_lt_two_pow (hd.trans_le (Nat.pow_le_pow_right (by decide) (by omega)))]

/-- Of two places in the list neither code begins the other. -/
theorem not_prefix_of_followsCode {l : List Assigned} (h : l.IsChain FollowsCode) (hb : ∀ a ∈ l, a.code < 2 ^ a.len)
    {j k : Nat} (hj : j < l.length) (hk : k < l.length) (hne : j ≠ k) :
    ¬ bitString (l[j]).code (l[j]).len <+: bitString (l[k]).code (l[k]).len := by
  intro hpre
  obtain ⟨hlen, hcode⟩ := code_of_prefix (hb _ (List.getElem_mem hj)) (hb _ (List.getElem_mem hk)) hpre
  rcases Nat.lt_or_gt_of_ne hne with hlt | hgt
  · obtain ⟨-, beyond, -⟩ := followsCode_trans h hlt hk
    rw [← Nat.le_div_iff_mul_le (Nat.two_pow_pos _), ← hcode] at beyond
    omega
  · obtain ⟨hle, -, consecutive⟩ := followsCode_trans h hgt hj
    have heq : (l[k]).len = (l[j]).len := by omega
    rw [heq, Nat.sub_self, pow_zero, Nat.div_one] at hcode
    have := consecutive heq
    omega

/-- Settles O18: the assignments are a chain in which each code follows the one before, and the table holds them. -/
theorem builtCodesArePrefixCode : Obligations.BuiltCodesArePrefixCode := by
  unfold Obligations.BuiltCodesArePrefixCode
  intro h hm
  have length := assignments_length hm
  have chain : (assignments h).IsChain FollowsCode := assignCodes_isChain (wellFormed_spec hm).1
  refine ⟨fun s hs => ?bounds, fun s hs => buildHuff_unlisted hm hs, fun s t hs ht hne => ?different, fun j k hk hj => ?order⟩
  case bounds =>
    obtain ⟨j, hj, rfl⟩ := exists_place hs
    obtain ⟨hlen, hcode⟩ := buildHuff_listed hm hj
    rw [hlen, hcode]
    exact assignments_bounds hm (List.getElem_mem _)
  case different =>
    obtain ⟨j, hj, rfl⟩ := exists_place hs
    obtain ⟨k, hk, rfl⟩ := exists_place ht
    have hjk : j ≠ k := by
      rintro rfl
      exact hne rfl
    obtain ⟨hjlen, hjcode⟩ := buildHuff_listed hm hj
    obtain ⟨hklen, hkcode⟩ := buildHuff_listed hm hk
    have apart := not_prefix_of_followsCode chain (wellFormed_spec hm).2.2 (by rwa [length]) (by rwa [length]) hjk
    rw [← hjlen, ← hjcode, ← hklen, ← hkcode] at apart
    exact ⟨fun heq => apart (by rw [heq]), apart⟩
  case order =>
    obtain ⟨hjlen, hjcode⟩ := buildHuff_listed hm (hj.trans hk)
    obtain ⟨hklen, hkcode⟩ := buildHuff_listed hm hk
    obtain ⟨hlen, beyond, consecutive⟩ := followsCode_trans chain hj (by rwa [length])
    dsimp only
    rw [← BitVec.toNat_inj, hjlen, hjcode, hklen, hkcode]
    refine ⟨hlen, consecutive, fun _ => Nat.lt_of_lt_of_le ?_ beyond⟩
    exact Nat.mul_lt_mul_of_pos_right (Nat.lt_succ_self _) (Nat.two_pow_pos _)

/-- The symbols with a code are the listed ones. -/
theorem buildHuff_len_ne_zero {h : HuffSpec} (hm : malformed h = false) {s : Fin 256} :
    ((buildHuff h)[s]).len ≠ 0 ↔ BitVec.ofNat 8 s.val ∈ h.symbols := by
  constructor
  · intro hlen
    by_contra hs
    exact hlen (by rw [buildHuff_unlisted hm hs])
  · intro hs hlen
    obtain ⟨j, hj, rfl⟩ := exists_place hs
    have positive := (assignments_bounds hm (List.getElem_mem (by rwa [assignments_length hm]))).1
    rw [← (buildHuff_listed hm hj).1, hlen] at positive
    exact absurd positive (by decide)

/-! ## The default specifications (10_state.md R29) -/

theorem defaultSpecs_not_malformed : ∀ t : Fin 4, malformed defaultBuild.hspec[t] = false := by decide +kernel

/-- A list of numbers as the bits of one number: two such lists compare in one pass. -/
def bitSet (l : List Nat) : Nat := l.foldr (fun n m => 2 ^ n ||| m) 0

theorem testBit_bitSet (l : List Nat) (n : Nat) : (bitSet l).testBit n = true ↔ n ∈ l := by
  induction l with
  | nil => simp [bitSet]
  | cons x rest ih =>
    have : bitSet (x :: rest) = 2 ^ x ||| bitSet rest := rfl
    rw [this, Nat.testBit_or, Bool.or_eq_true, ih, Nat.testBit_two_pow, decide_eq_true_eq, List.mem_cons, eq_comm]

/-- Two lists with the same bits have the same members. -/
theorem mem_symbols_iff {h : HuffSpec} {l : List Nat} (heq : bitSet (h.symbols.map (·.toNat)) = bitSet l) (s : Fin 256) :
    BitVec.ofNat 8 s.val ∈ h.symbols ↔ s.val ∈ l := by
  rw [← testBit_bitSet, ← heq, testBit_bitSet, List.mem_map]
  constructor
  · exact fun hs => ⟨_, hs, by simp⟩
  · rintro ⟨b, hb, heq⟩
    rwa [← heq, BitVec.ofNat_toNat, BitVec.setWidth_eq]

theorem defaultSpecs_dc_symbols {t : Fin 4} (ht : t = 0 ∨ t = 2) :
    bitSet (defaultBuild.hspec[t].symbols.map (·.toNat)) = bitSet ((List.range 256).filter (· ≤ 11)) := by
  revert t
  decide +kernel

theorem defaultSpecs_ac_symbols {t : Fin 4} (ht : t = 1 ∨ t = 3) :
    bitSet (defaultBuild.hspec[t].symbols.map (·.toNat)) =
      bitSet ((List.range 256).filter fun n => n = 0x00 ∨ n = 0xF0 ∨ (1 ≤ n % 16 ∧ n % 16 ≤ 10)) := by
  revert t
  decide +kernel

theorem defaultSpecs_not_all_ones : ∀ t : Fin 4, ∀ a ∈ assignments defaultBuild.hspec[t], a.code + 1 < 2 ^ a.len := by
  decide +kernel

/-- The coded symbols of the default DC tables. -/
theorem default_dc_coded {t : Fin 4} (ht : t = 0 ∨ t = 2) (s : Fin 256) :
    ((buildHuff defaultBuild.hspec[t])[s]).len ≠ 0 ↔ s.val ≤ 11 := by
  rw [buildHuff_len_ne_zero (defaultSpecs_not_malformed t), mem_symbols_iff (defaultSpecs_dc_symbols ht)]
  simp

/-- The coded symbols of the default AC tables. -/
theorem default_ac_coded {t : Fin 4} (ht : t = 1 ∨ t = 3) (s : Fin 256) :
    ((buildHuff defaultBuild.hspec[t])[s]).len ≠ 0 ↔
      s.val = 0x00 ∨ s.val = 0xF0 ∨ (1 ≤ s.val % 16 ∧ s.val % 16 ≤ 10) := by
  rw [buildHuff_len_ne_zero (defaultSpecs_not_malformed t), mem_symbols_iff (defaultSpecs_ac_symbols ht)]
  simp

/-- Settles O19: the listed symbols are coded, and no assignment is all ones. -/
theorem defaultSpecsBuild : Obligations.DefaultSpecsBuild := by
  unfold Obligations.DefaultSpecsBuild
  refine ⟨defaultSpecs_not_malformed, fun s => ?coded, fun t s hlen => ?ones⟩
  case coded =>
    exact ⟨default_dc_coded (.inl rfl) s, default_dc_coded (.inr rfl) s, default_ac_coded (.inl rfl) s,
      default_ac_coded (.inr rfl) s⟩
  case ones =>
    have hm := defaultSpecs_not_malformed t
    obtain ⟨j, hj, rfl⟩ := exists_place ((buildHuff_len_ne_zero hm).mp hlen)
    obtain ⟨hlen', hcode⟩ := buildHuff_listed hm hj
    rw [hlen', hcode]
    exact defaultSpecs_not_all_ones t _ (List.getElem_mem _)

end Sys2Proof.Machine
end

section
/-! The bit writer's commands and the marker framer with a host that accepts every delivery (44_bit_writer.md R135 to R139;
45_marker_framer.md R146 to R153). -/

namespace Sys2Proof.Machine

open Sys2Proof.Safety Sys2Proof.Reference

/-! ## A command that is legal runs its pseudocode -/

/-- A command without an address and without a precondition, where the table allows it. -/
theorem check_of_legal {i : Instr} {s : State} (hl : legal i s.phase s.nextch = true) (hw : i.wellFormed = true := by rfl)
    (ha : addressOk i = true := by rfl) (hp : precondition i s = none := by rfl) : check i s = none :=
  check_eq_none.mpr ⟨hw, ha, hl, hp⟩

theorem thenPhase_done {f : Nat → Stream → Run Stream} {s : State} {st : Stream} {p : Phase}
    (h : f s.build.sinkCap.toNat s.stream = .done st) :
    ((onStream f s).thenDo fun t => { t with phase := p }) = .done { s with stream := st, phase := p } := by
  rw [onStream_done h]
  rfl

/-! ## WBITS, WBYTE, WWORD, ALIGN, SYNC -/

/-- Settles O20: WriteBits writes the bit string of the code. -/
theorem wbitsCompletes : Obligations.WbitsCompletes := by
  unfold Obligations.WbitsCompletes
  intro s len code hp hlen hready
  obtain ⟨st, hst, writes⟩ := writeBits_writes code.toNat len.toNat hready
  have hc : check (.wbits len code) s = none := check_of_legal (by simp [legal, hp]) (decide_eq_true hlen)
  exact ⟨st, exec_of_body_done (by rw [hp]; decide) hc
    (onStream_done (f := fun cap => writeBits cap code.toNat len.toNat) hst), writes⟩

/-- The two bytes of a number, high byte first; only its 16 low bits count. -/
theorem wordBytes_ofNat (n : Nat) : wordBytes (BitVec.ofNat 16 n) = bigEndian n := by
  simp only [wordBytes, bigEndian, List.cons.injEq, and_true]
  constructor <;> apply BitVec.eq_of_toNat_eq
  · simp only [BitVec.extractLsb'_toNat, BitVec.toNat_ofNat, Nat.shiftRight_eq_div_pow]
    omega
  · simp only [BitVec.extractLsb'_toNat, BitVec.toNat_ofNat, Nat.shiftRight_eq_div_pow]
    omega

theorem wordBytes_eq (w : Word16) : wordBytes w = bigEndian w.toNat := by
  rw [← wordBytes_ofNat, BitVec.ofNat_toNat, BitVec.setWidth_eq]

/-- Settles O21: WBYTE and WWORD append the bytes they name. -/
theorem wbyteWwordComplete : Obligations.WbyteWwordComplete := by
  unfold Obligations.WbyteWwordComplete
  intro s hp hok hroom
  have hf := not_fault_of_header_phase hp
  refine ⟨fun b => ?byte, fun w => ?word⟩
  case byte =>
    obtain ⟨st, hst, writes⟩ := appendBytes_writes [b] hok hroom
    exact ⟨st, exec_of_body_done hf (check_wbyte hp) (onStream_done (f := fun cap => appendBytes cap [b]) hst), writes⟩
  case word =>
    obtain ⟨st, hst, writes⟩ := appendBytes_writes (wordBytes w) hok hroom
    rw [wordBytes_eq] at writes
    exact ⟨st, exec_of_body_done hf (check_of_legal (decide_eq_true hp))
      (onStream_done (f := fun cap => appendBytes cap (wordBytes w)) hst), writes⟩

/-- n one-bits. -/
theorem bitString_ones (n : Nat) : bitString (2 ^ n - 1) n = List.replicate n true := by
  refine List.eq_replicate_iff.mpr ⟨by simp [bitString], fun b hb => ?_⟩
  obtain ⟨j, hj, rfl⟩ := List.mem_map.mp hb
  rw [Nat.testBit_two_pow_sub_one]
  have := List.mem_range.mp hj
  exact decide_eq_true (by omega)

/-- Align pads with ones to a byte, or writes nothing. -/
theorem alignBits_writes {cap : Nat} {st : Stream} (h : Ready cap st) :
    ∃ st', alignBits cap st = .done st' ∧ WritesBits cap st st' (List.replicate ((8 - st.nbits.toNat) % 8) true) := by
  by_cases hn : st.nbits = 0
  · refine ⟨st, if_pos hn, ?_⟩
    rw [hn]
    exact writesBits_nil h
  · obtain ⟨st', hst, writes⟩ := writeBits_writes (2 ^ (8 - st.nbits.toNat) - 1) (8 - st.nbits.toNat) h
    have pending : st.nbits.toNat ≠ 0 := fun h0 => hn (BitVec.eq_of_toNat_eq h0)
    rw [bitString_ones] at writes
    refine ⟨st', (if_neg hn).trans hst, ?_⟩
    rwa [Nat.mod_eq_of_lt (by omega)]

/-- Settles O22: the padding fills the last byte, so nothing stays pending. -/
theorem alignCompletes : Obligations.AlignCompletes := by
  unfold Obligations.AlignCompletes
  intro s hp hch hready
  obtain ⟨st, hst, writes⟩ := alignBits_writes hready
  have hb : body .align s = .done { s with stream := st, phase := .aligned } := thenPhase_done hst
  have nbits := alignBits_nbits hst
  exact ⟨st, exec_of_body_done (by rw [hp]; decide) (check_of_legal (by simp [legal, hp, hch])) hb, writes, nbits,
    acc_eq_zero writes.ready.tidy nbits⟩

/-- Settles O23: Drain, with nothing to deliver or with an accepting host. -/
theorem syncCompletes : Obligations.SyncCompletes := by
  unfold Obligations.SyncCompletes
  intro s hf
  refine ⟨fun he => ?_, fun hs ha => ?_⟩
  · exact exec_of_body_done hf (check_sync hf) (onStream_done (f := fun _ => drain) (if_pos he))
  · refine exec_of_body_done hf (check_sync hf) (onStream_done (f := fun _ => drain) ?_)
    simp only [drain, if_neg hs, ha]
    rfl

/-! ## Segments -/

theorem emitSegment_writes {bytes : State → List Byte} {p : Phase} {s : State} (hok : AllOk s.stream)
    (hroom : s.stream.sb.length < s.build.sinkCap.toNat) :
    ∃ st, emitSegment bytes p s = .done { s with stream := st, phase := p } ∧
      WritesBytes s.build.sinkCap.toNat s.stream st (bytes s) := by
  obtain ⟨st, hst, writes⟩ := appendBytes_writes (bytes s) hok hroom
  exact ⟨st, thenPhase_done hst, writes⟩

/-- A framer command in its phase writes its segment. -/
theorem exec_segment {i : Instr} {bytes : State → List Byte} {p q : Phase} {s : State} (hp : s.phase = p)
    (hf : p ≠ .fault) (hb : body i s = emitSegment bytes q s) (hd : respData i s = 0) (hc : check i s = none)
    (hok : AllOk s.stream) (hroom : s.stream.sb.length < s.build.sinkCap.toNat) :
    ∃ st, exec i s = .next (answered 0 { s with stream := st, phase := q }) ∧
      WritesBytes s.build.sinkCap.toNat s.stream st (bytes s) := by
  obtain ⟨st, hst, writes⟩ := emitSegment_writes (bytes := bytes) (p := q) hok hroom
  refine ⟨st, ?_, writes⟩
  rw [exec_of_body_done (by rwa [hp]) hc (hb.trans hst), hd]

/-- The two tests of SOI in their order (60_exceptions.md R172). -/
theorem precondition_soi_tables {s : State} (h : s.qtValid = false ∨ s.htValid = false) :
    precondition .soi s = some .tblInvalid := if_pos h

theorem precondition_soi_dimensions {s : State} (hq : s.qtValid = true) (hh : s.htValid = true)
    (h : s.width = 0 ∨ s.height = 0) : precondition .soi s = some .cfg :=
  (if_neg (by simp [hq, hh])).trans (if_pos h)

theorem precondition_soi_none {s : State} (hq : s.qtValid = true) (hh : s.htValid = true) (hw : s.width ≠ 0)
    (hheight : s.height ≠ 0) : precondition .soi s = none :=
  (if_neg (by simp [hq, hh])).trans (if_neg (not_or.mpr ⟨hw, hheight⟩))

/-- SOI with valid tables and dimensions. -/
theorem exec_soi {s : State} (hp : s.phase = .idle ∨ s.phase = .done) (hq : s.qtValid = true) (hh : s.htValid = true)
    (hw : s.width ≠ 0) (hheight : s.height ≠ 0) (hok : AllOk s.stream)
    (hroom : s.stream.sb.length < s.build.sinkCap.toNat) :
    ∃ st, exec .soi s = .next (answered 0 { clearStream s with stream := st, phase := .sSoi }) ∧
      WritesBytes s.build.sinkCap.toNat { s.stream with acc := 0, nbits := 0 } st [0xFF, 0xD8] := by
  obtain ⟨st, hst, writes⟩ := emitSegment_writes (bytes := fun _ => soiBytes) (p := .sSoi) (s := clearStream s)
    ⟨hok.scripted, hok.thereafter⟩ hroom
  have hf : s.phase ≠ .fault := by rcases hp with h | h <;> simp [h]
  have hc : check .soi s = none :=
    check_of_legal (decide_eq_true hp) (hp := precondition_soi_none hq hh hw hheight)
  exact ⟨st, exec_of_body_done hf hc hst, writes⟩

theorem check_soi {s : State} {c : FaultCause} (hp : s.phase = .idle ∨ s.phase = .done)
    (h : precondition .soi s = some c) : check .soi s = some c := by
  have legal : legal .soi s.phase s.nextch = true := decide_eq_true hp
  simp [check, Instr.wellFormed, addressOk, legal, h]

/-- Settles O26: the precondition looks at the valid bits first, then at the dimensions. -/
theorem soiStartsStream : Obligations.SoiStartsStream := by
  unfold Obligations.SoiStartsStream
  intro s hp
  have hf : s.phase ≠ .fault := by rcases hp with h | h <;> simp [h]
  refine ⟨fun hv => ?tables, fun hq hh hd => ?dimensions, exec_soi hp⟩
  case tables =>
    have hc : check .soi s = some .tblInvalid := check_soi hp (precondition_soi_tables hv)
    exact ⟨_, exec_checked hf hc, faultTaken_takeFault _ s, precise_takeFault _ s⟩
  case dimensions =>
    have hc : check .soi s = some .cfg := check_soi hp (precondition_soi_dimensions hq hh hd)
    exact ⟨_, exec_checked hf hc, faultTaken_takeFault _ s, precise_takeFault _ s⟩

section
variable {s : State}

theorem exec_app0 (hp : s.phase = .sSoi) (hok : AllOk s.stream) (hroom : s.stream.sb.length < s.build.sinkCap.toNat) :
    ∃ st, exec .app0 s = .next (answered 0 { s with stream := st, phase := .sApp0 }) ∧
      WritesBytes s.build.sinkCap.toNat s.stream st app0Bytes :=
  exec_segment (bytes := fun _ => app0Bytes) hp (by decide) rfl rfl (check_of_legal (i := .app0) (decide_eq_true hp)) hok hroom

theorem exec_dqt (hp : s.phase = .sApp0) (hok : AllOk s.stream) (hroom : s.stream.sb.length < s.build.sinkCap.toNat) :
    ∃ st, exec .dqt s = .next (answered 0 { s with stream := st, phase := .sDqt }) ∧
      WritesBytes s.build.sinkCap.toNat s.stream st (dqtBytes s.build.zz s.qt) :=
  exec_segment (bytes := fun s => dqtBytes s.build.zz s.qt) hp (by decide) rfl rfl (check_of_legal (decide_eq_true hp)) hok
    hroom

theorem exec_sof0 (hp : s.phase = .sDqt) (hok : AllOk s.stream) (hroom : s.stream.sb.length < s.build.sinkCap.toNat) :
    ∃ st, exec .sof0 s = .next (answered 0 { s with stream := st, phase := .sSof0 }) ∧
      WritesBytes s.build.sinkCap.toNat s.stream st (sof0Bytes s.width s.height) :=
  exec_segment (bytes := fun s => sof0Bytes s.width s.height) hp (by decide) rfl rfl (check_of_legal (decide_eq_true hp)) hok
    hroom

theorem exec_dht (hp : s.phase = .sSof0) (hok : AllOk s.stream) (hroom : s.stream.sb.length < s.build.sinkCap.toNat) :
    ∃ st, exec .dht s = .next (answered 0 { s with stream := st, phase := .sDht }) ∧
      WritesBytes s.build.sinkCap.toNat s.stream st (dhtBytes s.build.hspec) :=
  exec_segment (bytes := fun s => dhtBytes s.build.hspec) hp (by decide) rfl rfl (check_of_legal (decide_eq_true hp)) hok
    hroom

theorem exec_sos (hp : s.phase = .sDht) (hok : AllOk s.stream) (hroom : s.stream.sb.length < s.build.sinkCap.toNat) :
    ∃ st, exec .sos s = .next (answered 0 { s with stream := st, phase := .scan }) ∧
      WritesBytes s.build.sinkCap.toNat s.stream st sosBytes :=
  exec_segment (bytes := fun _ => sosBytes) hp (by decide) rfl rfl (check_of_legal (decide_eq_true hp)) hok hroom

end

theorem app0Bytes_eq : app0Bytes =
    [0xFF, 0xE0, 0x00, 0x10, 0x4A, 0x46, 0x49, 0x46, 0x00, 0x01, 0x01, 0x00, 0x00, 0x01, 0x00, 0x01, 0x00, 0x00] := by
  decide

theorem sosBytes_eq : sosBytes =
    [0xFF, 0xDA, 0x00, 0x0C, 0x03, 0x01, 0x00, 0x02, 0x11, 0x03, 0x11, 0x00, 0x3F, 0x00] := by
  decide

/-- Settles O27: the two fixed segments. -/
theorem app0AndSosSegments : Obligations.App0AndSosSegments := by
  unfold Obligations.App0AndSosSegments
  intro s hok hroom
  rw [← app0Bytes_eq, ← sosBytes_eq]
  exact ⟨fun hp => exec_app0 hp hok hroom, fun hp => exec_sos hp hok hroom⟩

/-- The entries of a table in zigzag order (45_marker_framer.md R148). -/
def zigzagEntries (zz : Vector (Fin 64) 64) (qt : Vector Byte 64) : List Byte :=
  (List.finRange 64).map fun k => qt[natIndex zz k]

theorem zigzagEntries_getElem? {zz : Vector (Fin 64) 64} (h : zz.toList.Nodup) (qt : Vector Byte 64) (i : Fin 64) :
    (zigzagEntries zz qt)[(zz[i]).val]? = some qt[i] := by
  have position : (List.finRange 64)[(zz[i]).val]? = some zz[i] := by
    rw [List.getElem?_eq_getElem (by simp), List.getElem_finRange]
    rfl
  simp only [zigzagEntries, List.getElem?_map, position, Option.map_some, natIndex_zz h]

theorem dqtBytes_eq (zz : Vector (Fin 64) 64) (qt : Vector (Vector Byte 64) 2) : dqtBytes zz qt =
    ([0xFF, 0xDB, 0x00, 0x84, 0x00] : List Byte) ++ zigzagEntries zz qt[0] ++ ([0x01] : List Byte) ++
      zigzagEntries zz qt[1] := by
  have head : wordBytes 0xFFDB ++ wordBytes 132 = [0xFF, 0xDB, 0x00, 0x84] := by decide
  rw [dqtBytes, head]
  simp [dqtRecord, zigzagEntries]

/-- Settles O28: the entry at zigzag position ZZ[i] is that of natural index i. -/
theorem dqtSegment : Obligations.DqtSegment := by
  unfold Obligations.DqtSegment
  intro s hp hb hok hroom
  obtain ⟨st, hst, writes⟩ := exec_dqt hp hok hroom
  rw [dqtBytes_eq] at writes
  exact ⟨st, _, _, hst, writes, by simp [zigzagEntries], by simp [zigzagEntries],
    fun i => ⟨zigzagEntries_getElem? hb.zigzag _ i, zigzagEntries_getElem? hb.zigzag _ i⟩⟩

theorem sof0Bytes_eq (width height : Word16) : sof0Bytes width height =
    [0xFF, 0xC0, 0x00, 0x11, 0x08] ++ bigEndian height.toNat ++ bigEndian width.toNat ++
      [0x03, 0x01, 0x11, 0x00, 0x02, 0x11, 0x01, 0x03, 0x11, 0x01] := by
  rw [← wordBytes_eq, ← wordBytes_eq]
  rfl

/-- Settles O29: height before width. -/
theorem sof0Segment : Obligations.Sof0Segment := by
  unfold Obligations.Sof0Segment
  intro s hp hok hroom
  rw [← sof0Bytes_eq]
  exact exec_sof0 hp hok hroom

theorem dhtLength_eq (hspec : Vector HuffSpec 4) :
    dhtLength hspec = 2 + ∑ t : Fin 4, (17 + (hspec[t]).symbols.length) := by
  rw [Fin.sum_univ_four]
  rfl

theorem dhtBytes_eq (hspec : Vector HuffSpec 4) : dhtBytes hspec =
    ([0xFF, 0xC4] : List Byte) ++ bigEndian (2 + ∑ t : Fin 4, (17 + (hspec[t]).symbols.length)) ++
      (((0x00 : Byte) :: (hspec[0]).counts.toList) ++ (hspec[0]).symbols) ++
      (((0x10 : Byte) :: (hspec[1]).counts.toList) ++ (hspec[1]).symbols) ++
      (((0x01 : Byte) :: (hspec[2]).counts.toList) ++ (hspec[2]).symbols) ++
      (((0x11 : Byte) :: (hspec[3]).counts.toList) ++ (hspec[3]).symbols) := by
  have marker : wordBytes 0xFFC4 = [0xFF, 0xC4] := by decide
  rw [← dhtLength_eq, ← wordBytes_ofNat, ← marker]
  rfl

/-- Settles O30: the four records, and the length that counts them. -/
theorem dhtSegment : Obligations.DhtSegment := by
  unfold Obligations.DhtSegment
  intro s hp hok hroom
  rw [← dhtBytes_eq]
  exact exec_dht hp hok hroom

/-- Settles O31: the marker is appended, and Drain delivers what is left. -/
theorem eoiDeliversStream : Obligations.EoiDeliversStream := by
  unfold Obligations.EoiDeliversStream
  intro s hp hok hroom
  obtain ⟨st1, happ, writes⟩ := appendBytes_writes eoiBytes hok hroom
  obtain ⟨st2, hdrain, hsb, hout, hacc, hnbits, hok2⟩ := drain_ok writes.ok
  have hb : body .eoi s = .done { s with stream := st2, phase := .done } :=
    thenPhase_done (f := fun cap st => (appendBytes cap eoiBytes st).andThen drain) (by rw [happ]; exact hdrain)
  have marker : eoiBytes = [0xFF, 0xD9] := by decide
  refine ⟨st2, exec_of_body_done (by rw [hp]; decide) (check_of_legal (decide_eq_true hp)) hb, hsb, ?_,
    hacc.trans writes.acc, hnbits.trans writes.nbits, hok2⟩
  rw [hout, ← marker]
  exact writes.ls

/-! ## The header (45_marker_framer.md R153) -/

theorem dqtBytes_length (zz : Vector (Fin 64) 64) (qt : Vector (Vector Byte 64) 2) : (dqtBytes zz qt).length = 134 := by
  simp [dqtBytes_eq, zigzagEntries]

theorem dhtBytes_default_length : (dhtBytes defaultBuild.hspec).length = 420 := by decide +kernel

/-- A step of the header: n bytes more, the next phase, and what the next step needs. -/
structure HeaderStep (i : Instr) (s t : State) (q : Phase) (n : Nat) : Prop where
  exec   : exec i s = .next t
  phase  : t.phase = q
  grows  : s.stream.ls <+: t.stream.ls
  length : t.stream.ls.length = s.stream.ls.length + n
  ok     : AllOk t.stream
  room   : t.stream.sb.length < t.build.sinkCap.toNat
  nextch : t.nextch = s.nextch
  blkcnt : t.blkcnt = s.blkcnt
  nbits  : t.stream.nbits = s.stream.nbits
  build  : t.build = s.build

theorem headerStep_of_exec {i : Instr} {s : State} {q : Phase} {l : List Byte}
    (h : ∃ st, Machine.exec i s = .next (answered 0 { s with stream := st, phase := q }) ∧
      WritesBytes s.build.sinkCap.toNat s.stream st l) : ∃ t, HeaderStep i s t q l.length := by
  obtain ⟨st, hst, writes⟩ := h
  exact ⟨_, hst, rfl, ⟨l, writes.ls.symm⟩,
    (congrArg List.length writes.ls).trans List.length_append, writes.ok, writes.room,
    rfl, rfl, writes.nbits, rfl⟩

/-- Settles O32: the six commands one after the other; 2 + 18 + 134 + 19 + 420 + 14 = 607. -/
theorem headerIs607Bytes : Obligations.HeaderIs607Bytes := by
  unfold Obligations.HeaderIs607Bytes
  intro s hp hq hh hw hheight hspec hok hroom
  obtain ⟨st, h1, w1⟩ := exec_soi hp hq hh hw hheight hok hroom
  have length1 := (congrArg List.length w1.ls).trans List.length_append
  obtain ⟨t2, app0⟩ := headerStep_of_exec
    (exec_app0 (s := answered 0 { clearStream s with stream := st, phase := .sSoi }) rfl w1.ok w1.room)
  obtain ⟨t3, dqt⟩ := headerStep_of_exec (exec_dqt app0.phase app0.ok app0.room)
  obtain ⟨t4, sof0⟩ := headerStep_of_exec (exec_sof0 dqt.phase dqt.ok dqt.room)
  obtain ⟨t5, dht⟩ := headerStep_of_exec (exec_dht sof0.phase sof0.ok sof0.room)
  obtain ⟨t6, sos⟩ := headerStep_of_exec (exec_sos dht.phase dht.ok dht.room)
  have length2 : t2.stream.ls.length = st.ls.length + 18 := app0.length
  have length3 : t3.stream.ls.length = t2.stream.ls.length + 134 := dqt.length.trans (by rw [dqtBytes_length])
  have length4 : t4.stream.ls.length = t3.stream.ls.length + 19 := sof0.length
  have length5 : t5.stream.ls.length = t4.stream.ls.length + 420 := by
    rw [dht.length, sof0.build, dqt.build, app0.build]
    exact congrArg (_ + ·) ((congrArg (fun h => (dhtBytes h).length) hspec).trans dhtBytes_default_length)
  have length6 : t6.stream.ls.length = t5.stream.ls.length + 14 := sos.length
  have start : s.stream.ls.length + 2 = st.ls.length := length1.symm
  refine ⟨_, t2, t3, t4, t5, t6, h1, app0.exec, dqt.exec, sof0.exec, dht.exec, sos.exec, sos.phase, ?_, ?_, ?_, length1,
    by omega, by omega, by omega, by omega, by omega, ?_⟩
  · rw [sos.nextch, dht.nextch, sof0.nextch, dqt.nextch, app0.nextch]
    rfl
  · rw [sos.blkcnt, dht.blkcnt, sof0.blkcnt, dqt.blkcnt, app0.blkcnt]
    rfl
  · rw [sos.nbits, dht.nbits, sof0.nbits, dqt.nbits, app0.nbits]
    exact w1.nbits
  · have first : s.stream.ls <+: st.ls := ⟨_, w1.ls.symm⟩
    exact first.trans (app0.grows.trans (dqt.grows.trans (sof0.grows.trans (dht.grows.trans sos.grows))))

end Sys2Proof.Machine
end

section
/-! The data commands ENCCOEF, ENCDU and ENCMCU with a host that accepts every delivery (42_transform.md R108 to R111;
43_entropy_coder.md R121, R122): the payload as a list of bytes, the bit string of each unit, and the state it leaves. -/

namespace Sys2Proof.Machine

open Sys2Proof.Safety Sys2Proof.Reference

/-! ## Payloads as lists of bytes (30_encoding.md R63) -/

section
variable {b : List Byte}

theorem coefOf_toArray (hl : b.length = 128) : coefOf ⟨b.toArray, by simp [hl]⟩ = coefsOfBytes b := by
  have joined (hi lo : Byte) : hi ++ lo = BitVec.ofNat 16 (hi.toNat * 256 + lo.toNat) := by
    apply BitVec.eq_of_toNat_eq
    rw [toNat_append_eq, BitVec.toNat_ofNat]
    omega
  unfold coefOf coefsOfBytes
  congr 1
  funext i
  have h0 : 2 * i.val < b.length := by omega
  have h1 : 2 * i.val + 1 < b.length := by omega
  simp [joined, h0, h1]

theorem samplesOfBytes_eq (hl : b.length = 64) : (⟨b.toArray, by simp [hl]⟩ : Vector Byte 64) = samplesOfBytes b := by
  ext i hi
  have h : i < b.length := by omega
  simp [samplesOfBytes, h]

theorem samplesOfBytes_toList (v : Vector Byte 64) : samplesOfBytes v.toList = v := by
  ext i hi
  simp [samplesOfBytes]

theorem samplesOf_toArray (hl : b.length = 192) (inst : CscInstance) (c : Channel) :
    samplesOf inst c ⟨b.toArray, by simp [hl]⟩ = samplesOfPixels inst c b := by
  unfold samplesOf samplesOfPixels pixelOf
  congr 1
  funext i
  have h0 : 3 * i.val < b.length := by omega
  have h1 : 3 * i.val + 1 < b.length := by omega
  have h2 : 3 * i.val + 2 < b.length := by omega
  simp [h0, h1, h2]

end

theorem flatMap_wordBytes_getElem? (l : List Word16) (i : Nat) :
    (l.flatMap wordBytes)[2 * i]? = l[i]?.map (·.extractLsb' 8 8) ∧
      (l.flatMap wordBytes)[2 * i + 1]? = l[i]?.map (·.extractLsb' 0 8) := by
  induction l generalizing i with
  | nil => simp
  | cons w rest ih =>
    cases i with
    | zero => simp [wordBytes]
    | succ i =>
      rw [List.flatMap_cons, Nat.mul_succ, wordBytes]
      simpa using ih i

theorem bytesOfCoefs_length (co : Vector Word16 64) : (bytesOfCoefs co).length = 128 := by
  have each (l : List Word16) : (l.flatMap wordBytes).length = 2 * l.length := by
    induction l with
    | nil => rfl
    | cons w rest ih =>
      rw [List.flatMap_cons, List.length_append, ih, List.length_cons]
      simp [wordBytes]
      omega
  rw [bytesOfCoefs, each, Vector.length_toList]

/-- The coefficients survive being sent as bytes. -/
theorem coefsOfBytes_bytesOfCoefs (co : Vector Word16 64) : coefsOfBytes (bytesOfCoefs co) = co := by
  refine Vector.ext fun i hi => ?_
  obtain ⟨high, low⟩ := flatMap_wordBytes_getElem? co.toList i
  rw [List.getElem?_eq_getElem (l := co.toList) (by simpa using hi), Option.map_some, Vector.getElem_toList] at high low
  simp only [coefsOfBytes, bytesOfCoefs, vec_getElem, List.getD_eq_getElem?_getD, high, low, Option.getD_some]
  apply BitVec.eq_of_toNat_eq
  simp only [BitVec.extractLsb'_toNat, BitVec.toNat_ofNat, Nat.shiftRight_eq_div_pow]
  omega

/-! ## The pseudocode of a data command whose payload is there -/

section
variable {s : State} {b : List Byte} {rest : List PayloadAnswer}

theorem body_enccoef (hp : s.payloads = .bytes b :: rest) (hl : b.length = 128) (ch : Channel) :
    body (.enccoef ch) s = dataUnit ch (coefsOfBytes b) { s with payloads := rest } := by
  rw [← coefOf_toArray hl]
  exact withPayload_bytes hp hl

theorem body_encdu (hp : s.payloads = .bytes b :: rest) (hl : b.length = 64) (ch : Channel) :
    body (.encdu ch) s =
      dataUnit ch (fdctq s.build.fdctq (samplesOfBytes b) s.qt[qsel ch]) { s with payloads := rest } := by
  rw [← samplesOfBytes_eq hl]
  exact withPayload_bytes hp hl

/-- The quantized unit of one channel of a pixel block. -/
def pixelUnit (b : List Byte) (s : State) (c : Channel) : Vector Word16 64 :=
  fdctq s.build.fdctq (samplesOfPixels s.build.csc c b) s.qt[qsel c]

/-- The data units of the three channels, one after another. -/
def threeUnits (coef : Channel → Vector Word16 64) (s : State) : Run State :=
  (dataUnit .y (coef .y) s).andThen fun u => (dataUnit .cb (coef .cb) u).andThen (dataUnit .cr (coef .cr))

/-- A unit that runs with the constants and the steps of s. -/
theorem sampleUnit_samplesOf (hl : b.length = 192) (c : Channel) {u v : State} (hu : u.build = s.build)
    (hv : v.build = s.build) (hq : v.qt = s.qt) :
    sampleUnit c (samplesOf u.build.csc c ⟨b.toArray, by simp [hl]⟩) v = dataUnit c (pixelUnit b s c) v := by
  rw [sampleUnit, hu, hv, hq, samplesOf_toArray hl, pixelUnit]

theorem andThen_congr {α : Type} {r : Run α} {k k' : α → Run α} (h : ∀ u, r = .done u → k u = k' u) :
    r.andThen k = r.andThen k' := by
  cases r with
  | done u => exact h u rfl
  | raised c u => rfl

/-- The constants and the steps are the same for the three units. -/
theorem body_encmcu (hp : s.payloads = .bytes b :: rest) (hl : b.length = 192) :
    body .encmcu s = threeUnits (pixelUnit b s) { s with payloads := rest } := by
  refine (withPayload_bytes hp hl).trans ?_
  unfold mcuBody threeUnits
  rw [sampleUnit_samplesOf (s := s) (u := { s with payloads := rest }) (v := { s with payloads := rest }) hl .y rfl rfl rfl]
  refine andThen_congr fun u hu => ?_
  have keptU : Kept { s with payloads := rest } u := by
    have := kept_dataUnit (c := .y) (coef := pixelUnit b s .y) (s := { s with payloads := rest })
    rwa [hu] at this
  rw [sampleUnit_samplesOf (s := s) hl .cb keptU.build keptU.build keptU.qt]
  refine andThen_congr fun v hv => ?_
  have keptV : Kept u v := by
    have := kept_dataUnit (c := .cb) (coef := pixelUnit b s .cb) (s := u)
    rwa [hv] at this
  exact sampleUnit_samplesOf hl .cr keptU.build (keptV.build.trans keptU.build) (keptV.qt.trans keptU.qt)

end

/-! ## One unit -/

section
variable {c : Channel} {coef : Vector Word16 64} {s : State}

theorem follows_unitRun (h : Ready s.build.sinkCap.toNat s.stream) :
    Follows s.build.sinkCap.toNat s.stream (unitRun c coef s) (Reference.channelBits c coef s) :=
  follows_encodeUnit h _ _ _ _

/-- A unit all of whose symbols have codes. -/
theorem dataUnit_coded {bits : List Bool} (h : Ready s.build.sinkCap.toNat s.stream)
    (hb : Reference.channelBits c coef s = some bits) :
    ∃ st, dataUnit c coef s = .done (unitDone c coef st s.payloads s) ∧
      WritesBits s.build.sinkCap.toNat s.stream st bits := by
  have run := follows_unitRun (c := c) (coef := coef) h
  rw [hb] at run
  obtain ⟨st, hst, writes⟩ := run
  rcases dataUnit_cases c coef s with ⟨st', hr, hd⟩ | ⟨d, st', hr, -⟩
  · cases hr.symm.trans hst
    exact ⟨st, hd, writes⟩
  · cases hr.symm.trans hst

/-- The bits of a unit with a symbol that has no code. -/
theorem unitRun_uncoded (h : Ready s.build.sinkCap.toNat s.stream) (hb : Reference.channelBits c coef s = none) :
    ∃ st, unitRun c coef s = .raised .uncoded st := by
  have run := follows_unitRun (c := c) (coef := coef) h
  rw [hb] at run
  exact run

/-- A unit with a symbol that has no code. -/
theorem dataUnit_uncoded (h : Ready s.build.sinkCap.toNat s.stream) (hb : Reference.channelBits c coef s = none) :
    ∃ st, dataUnit c coef s = .raised .uncoded { unitLoaded c coef s with stream := st } := by
  obtain ⟨st, hst⟩ := unitRun_uncoded h hb
  rcases dataUnit_cases c coef s with ⟨st', hr, -⟩ | ⟨d, st', hr, hd⟩
  · cases hr.symm.trans hst
  · cases hr.symm.trans hst
    exact ⟨st, hd⟩

/-- A unit of another channel does not touch this one's predictor. -/
theorem channelBits_unitDone {d : Channel} (hne : d ≠ c) (other : Vector Word16 64) (st : Stream)
    (rest : List PayloadAnswer) :
    Reference.channelBits d other (unitDone c coef st rest s) = Reference.channelBits d other s := by
  have index : (chanIdx c).val ≠ (chanIdx d).val := by revert hne; cases c <;> cases d <;> decide
  simp only [Reference.channelBits, unitDone, Fin.getElem_fin, Vector.getElem_set_ne _ _ index]

theorem check_data {i : Instr} (hi : i = .encdu c ∨ i = .enccoef c) (hp : s.phase = .scan) (hc : c = s.nextch) :
    check i s = none := by
  rcases hi with rfl | rfl <;> exact check_of_legal (decide_eq_true ⟨hp, hc⟩)

theorem check_encmcu (hp : s.phase = .scan) (hc : s.nextch = .y) : check .encmcu s = none :=
  check_of_legal (decide_eq_true ⟨hp, hc⟩)

theorem not_fault_of_scan (hp : s.phase = .scan) : s.phase ≠ .fault := by rw [hp]; decide

end

/-- Settles O35: the payload is pulled, and its bit string written. -/
theorem enccoefCompletes : Obligations.EnccoefCompletes := by
  unfold Obligations.EnccoefCompletes
  intro s ch b rest bits hp hc hready hpay hl hbits
  obtain ⟨st, hd, writes⟩ := dataUnit_coded (s := { s with payloads := rest }) hready hbits
  exact ⟨st, exec_of_body_done (not_fault_of_scan hp) (check_data (.inr rfl) hp hc)
    ((body_enccoef hpay hl ch).trans hd), writes⟩

/-- Settles O38: the same with the unit that the transform makes of the samples. -/
theorem encduCompletes : Obligations.EncduCompletes := by
  unfold Obligations.EncduCompletes
  intro s ch b rest bits hp hc hready hpay hl hbits
  obtain ⟨st, hd, writes⟩ := dataUnit_coded (s := { s with payloads := rest }) hready hbits
  exact ⟨st, exec_of_body_done (not_fault_of_scan hp) (check_data (.inl rfl) hp hc)
    ((body_encdu hpay hl ch).trans hd), writes⟩

/-! ## Three units -/

section
variable {coef : Channel → Vector Word16 64} {s : State}

/-- The state after three units that ran to their ends. -/
def threeDone (coef : Channel → Vector Word16 64) (st0 st1 st : Stream) (s : State) : State :=
  unitDone .cr (coef .cr) st s.payloads
    (unitDone .cb (coef .cb) st1 s.payloads (unitDone .y (coef .y) st0 s.payloads s))

theorem set_three {α : Type} (v : Vector α 3) (x y z : α) :
    ((v.set (chanIdx .y) x).set (chanIdx .cb) y).set (chanIdx .cr) z = #v[x, y, z] := by
  ext i hi
  interval_cases i <;> simp [chanIdx]

theorem threeDone_eq (hc : s.nextch = .y) (st0 st1 st : Stream) :
    threeDone coef st0 st1 st s =
      { s with
        coef := coef .cr, zzb := reorder s.build.zz (coef .cr),
        dcp := #v[(reorder s.build.zz (coef .y))[0], (reorder s.build.zz (coef .cb))[0],
          (reorder s.build.zz (coef .cr))[0]],
        duValid := true, blkcnt := nextBlkcnt .cr s.blkcnt, stream := st } := by
  simp only [threeDone, unitDone, set_three, nextBlkcnt, nextChannel, hc]

/-- The predictor of a unit is the one that stood before the three. -/
theorem channelBits_threeDone (st0 st1 : Stream) :
    Reference.channelBits .cb (coef .cb) (unitDone .y (coef .y) st0 s.payloads s) = Reference.channelBits .cb (coef .cb) s ∧
      Reference.channelBits .cr (coef .cr)
        (unitDone .cb (coef .cb) st1 s.payloads (unitDone .y (coef .y) st0 s.payloads s)) =
        Reference.channelBits .cr (coef .cr) s := by
  refine ⟨channelBits_unitDone (by decide) _ _ _, ?_⟩
  rw [channelBits_unitDone (by decide), channelBits_unitDone (by decide)]

/-- Three units that all have codes. -/
theorem threeUnits_coded {bitsY bitsCb bitsCr : List Bool} (hready : Ready s.build.sinkCap.toNat s.stream)
    (hy : Reference.channelBits .y (coef .y) s = some bitsY)
    (hcb : Reference.channelBits .cb (coef .cb) s = some bitsCb)
    (hcr : Reference.channelBits .cr (coef .cr) s = some bitsCr) :
    ∃ st0 st1 st, threeUnits coef s = .done (threeDone coef st0 st1 st s) ∧
      WritesBits s.build.sinkCap.toNat s.stream st (bitsY ++ bitsCb ++ bitsCr) := by
  obtain ⟨st0, h0, w0⟩ := dataUnit_coded hready hy
  obtain ⟨st1, h1, w1⟩ := dataUnit_coded (s := unitDone .y (coef .y) st0 s.payloads s) w0.ready
    ((channelBits_threeDone st0 st0).1.trans hcb)
  obtain ⟨st, h2, w2⟩ := dataUnit_coded
    (s := unitDone .cb (coef .cb) st1 s.payloads (unitDone .y (coef .y) st0 s.payloads s)) w1.ready
    ((channelBits_threeDone st0 st1).2.trans hcr)
  refine ⟨st0, st1, st, ?_, writesBits_trans (writesBits_trans w0 w1) w2⟩
  rw [threeUnits, h0, Run.andThen_done, h1, Run.andThen_done, threeDone]
  exact h2

/-- Some unit has a symbol without a code: the first such unit raises UNCODED. -/
theorem threeUnits_uncoded (hready : Ready s.build.sinkCap.toNat s.stream)
    (h : ∃ c, Reference.channelBits c (coef c) s = none) :
    ∃ u, threeUnits coef s = .raised .uncoded u ∧ u.payloads = s.payloads := by
  unfold threeUnits
  cases hy : Reference.channelBits .y (coef .y) s with
  | none =>
    obtain ⟨st, hd⟩ := dataUnit_uncoded hready hy
    rw [hd]
    exact ⟨_, rfl, rfl⟩
  | some bitsY =>
    obtain ⟨st0, h0, w0⟩ := dataUnit_coded hready hy
    rw [h0, Run.andThen_done]
    cases hcb : Reference.channelBits .cb (coef .cb) s with
    | none =>
      obtain ⟨st, hd⟩ := dataUnit_uncoded w0.ready ((channelBits_threeDone st0 st0).1.trans hcb)
      rw [hd]
      exact ⟨_, rfl, rfl⟩
    | some bitsCb =>
      obtain ⟨st1, h1, w1⟩ := dataUnit_coded w0.ready ((channelBits_threeDone st0 st0).1.trans hcb)
      have hcr : Reference.channelBits .cr (coef .cr) s = none := by
        obtain ⟨c, hc⟩ := h
        cases c with
        | y => cases hy.symm.trans hc
        | cb => cases hcb.symm.trans hc
        | cr => exact hc
      obtain ⟨st, hd⟩ := dataUnit_uncoded w1.ready ((channelBits_threeDone st0 st1).2.trans hcr)
      rw [h1, Run.andThen_done]
      exact ⟨_, hd, rfl⟩

end

/-- Settles O39: the units follow each other, each with the predictor of its own channel. -/
theorem encmcuCompletes : Obligations.EncmcuCompletes := by
  unfold Obligations.EncmcuCompletes
  intro s b rest bitsY bitsCb bitsCr hp hc hready hpay hl unit hy hcb hcr
  obtain ⟨st0, st1, st, hd, writes⟩ :=
    threeUnits_coded (coef := pixelUnit b s) (s := { s with payloads := rest }) hready hy hcb hcr
  refine ⟨st, ?_, writes⟩
  rw [exec_of_body_done (not_fault_of_scan hp) (check_encmcu hp hc) ((body_encmcu hpay hl).trans hd),
    threeDone_eq (s := { s with payloads := rest }) hc]
  rfl

/-- Settles O36: the run of a unit without a bit string raises UNCODED. -/
theorem dataCommandsUncoded : Obligations.DataCommandsUncoded := by
  unfold Obligations.DataCommandsUncoded
  intro s ch b rest hp hc hready hpay
  have hf := not_fault_of_scan hp
  refine ⟨fun hl hbits => ?coef, fun hl hbits => ?unit, fun hl hy hbits => ?mcu⟩
  case coef =>
    obtain ⟨st, hd⟩ := dataUnit_uncoded (s := { s with payloads := rest }) hready hbits
    have hb := (body_enccoef hpay hl ch).trans hd
    exact ⟨_, exec_of_body_raised hf (check_data (.inr rfl) hp hc) hb, faultTaken_of_raised hb, rfl⟩
  case unit =>
    obtain ⟨st, hd⟩ := dataUnit_uncoded (s := { s with payloads := rest }) hready hbits
    have hb := (body_encdu hpay hl ch).trans hd
    exact ⟨_, exec_of_body_raised hf (check_data (.inl rfl) hp hc) hb, faultTaken_of_raised hb, rfl⟩
  case mcu =>
    obtain ⟨u, hd, hu⟩ := threeUnits_uncoded (coef := pixelUnit b s) (s := { s with payloads := rest }) hready hbits
    have hb := (body_encmcu hpay hl).trans hd
    exact ⟨_, exec_of_body_raised hf (check_encmcu hp (hc.symm.trans hy)) hb, faultTaken_of_raised hb, hu⟩

/-! ## Nothing leaks from one unit to the next -/

/-- The pending bits settle ACC and NBITS. -/
theorem acc_nbits_of_pendingBits {st st' : Stream} (h : Tidy st) (h' : Tidy st')
    (hp : pendingBits st = pendingBits st') : st.acc = st'.acc ∧ st.nbits = st'.nbits := by
  have nbits : st.nbits = st'.nbits := by
    apply BitVec.eq_of_toNat_eq
    rw [← pendingBits_length, ← pendingBits_length, hp]
  refine ⟨BitVec.eq_of_getLsbD_eq fun i hi => ?_, nbits⟩
  have low {x : Stream} (hx : Tidy x) (hlow : i < 8 - x.nbits.toNat) : x.acc.getLsbD i = false := by
    have := congrArg (·.testBit i) hx
    simpa [Nat.testBit_mod_two_pow, hlow, BitVec.getLsbD] using this
  by_cases hlow : i < 8 - st.nbits.toNat
  · rw [low h hlow, low h' (nbits ▸ hlow)]
  · have bit := congrArg (·[7 - i]?) hp
    simp only [pendingBits, ← nbits, List.getElem?_map] at bit
    rw [List.getElem?_range (by omega)] at bit
    simpa [show 7 - (7 - i) = i by omega] using bit

/-- ENCCOEF that completes had its payload, and codes for every symbol. -/
theorem channelBits_of_enccoef {s t : State} {ch : Channel} {b : List Byte} {rest : List PayloadAnswer}
    (hp : s.phase = .scan) (hready : Ready s.build.sinkCap.toNat s.stream) (hpay : s.payloads = .bytes b :: rest)
    (h : exec (.enccoef ch) s = .next t) (ht : t.phase = .scan) :
    b.length = 128 ∧ ∃ bits, Reference.channelBits ch (coefsOfBytes b) s = some bits := by
  cases exec_ends (not_fault_of_scan hp) h with
  | checked hc => cases ht
  | raised hc hb => cases ht
  | @answered u hc hb =>
    have hl : b.length = 128 := by
      by_contra hl
      have : body (.enccoef ch) s = .raised .srcRead { s with payloads := rest } := by
        simp [body, withPayload, pull, hpay, hl]
      cases this.symm.trans hb
    refine ⟨hl, Option.ne_none_iff_exists'.mp fun hnone => ?_⟩
    obtain ⟨st, hd⟩ := dataUnit_uncoded (s := { s with payloads := rest }) hready hnone
    cases ((body_enccoef hpay hl ch).trans hd).symm.trans hb

/-- Settles O37: both runs write the same bit string behind the same pending bits. -/
theorem unitsDoNotLeak : Obligations.UnitsDoNotLeak := by
  unfold Obligations.UnitsDoNotLeak
  intro s s' t ch b rest rest' hp hp' hc hc' hready hready' hzz hht hdcp hacc hnbits hpay hpay' h ht
  obtain ⟨hl, bits, hbits⟩ := channelBits_of_enccoef hp hready hpay h ht
  have hbits' : Reference.channelBits ch (coefsOfBytes b) s' = some bits := by
    rw [← hbits, Reference.channelBits, Reference.channelBits, hzz, hht, hdcp]
  obtain ⟨st, hst, writes⟩ := enccoefCompletes s ch b rest bits hp hc hready hpay hl hbits
  obtain ⟨st', hst', writes'⟩ := enccoefCompletes s' ch b rest' bits hp' hc' hready' hpay' hl hbits'
  cases hst.symm.trans h
  have pending : pendingBits s.stream = pendingBits s'.stream := by rw [pendingBits, pendingBits, hacc, hnbits]
  obtain ⟨hacc', hnbits'⟩ := acc_nbits_of_pendingBits writes.ready.tidy writes'.ready.tidy
    (by rw [writes.pending, writes'.pending, pending])
  refine ⟨_, _, hst', hp', writes.ls, ?_, hacc', hnbits', ?_, rfl, ?_⟩
  · rw [pending]
    exact writes'.ls
  · simp [answered, unitDone, hzz]
  · show reorder s.build.zz _ = reorder s'.build.zz _
    rw [hzz]

/-! ## One command as others (42_transform.md R109) -/

/-- Settles O40: both are the data unit of the transformed samples. -/
theorem encduIsEnccoefOfTransform : Obligations.EncduIsEnccoefOfTransform := by
  unfold Obligations.EncduIsEnccoefOfTransform
  intro s ch b rest hp hc hl unit
  rw [exec_passed (s := { s with payloads := .bytes b :: rest }) (not_fault_of_scan hp) (check_data (.inl rfl) hp hc),
    exec_passed (s := { s with payloads := .bytes unit :: rest }) (not_fault_of_scan hp) (check_data (.inr rfl) hp hc),
    body_encdu rfl hl, body_enccoef rfl (bytesOfCoefs_length _), coefsOfBytes_bytesOfCoefs]
  rfl

/-- ENCDU that completes is its data unit. -/
theorem dataUnit_of_encdu {s t : State} {ch : Channel} {v : Vector Byte 64} {rest : List PayloadAnswer}
    (hp : s.phase = .scan) (hpay : s.payloads = .bytes v.toList :: rest) (h : exec (.encdu ch) s = .next t)
    (ht : t.phase = .scan) :
    ∃ st, unitRun ch (fdctq s.build.fdctq v s.qt[qsel ch]) s = .done st ∧
      t = answered 0 (unitDone ch (fdctq s.build.fdctq v s.qt[qsel ch]) st rest s) := by
  cases exec_ends (not_fault_of_scan hp) h with
  | checked hc => cases ht
  | raised hc hb => cases ht
  | @answered u hc hb =>
    rw [body_encdu hpay (by simp), samplesOfBytes_toList] at hb
    obtain ⟨st, hst, rfl⟩ := dataUnit_done hb
    exact ⟨st, hst, rfl⟩

theorem dataUnit_of_unitRun {c : Channel} {coef : Vector Word16 64} {s : State} {st : Stream}
    (h : unitRun c coef s = .done st) : dataUnit c coef s = .done (unitDone c coef st s.payloads s) := by
  rcases dataUnit_cases c coef s with ⟨st', hr, hd⟩ | ⟨d, st', hr, -⟩
  · cases hr.symm.trans h
    exact hd
  · cases hr.symm.trans h

/-- Three units that ran to their ends, one after another. -/
theorem threeUnits_done {coef : Channel → Vector Word16 64} {s : State} {st0 st1 st : Stream}
    (h0 : unitRun .y (coef .y) s = .done st0)
    (h1 : unitRun .cb (coef .cb) (unitDone .y (coef .y) st0 s.payloads s) = .done st1)
    (h2 : unitRun .cr (coef .cr)
      (unitDone .cb (coef .cb) st1 s.payloads (unitDone .y (coef .y) st0 s.payloads s)) = .done st) :
    threeUnits coef s = .done (threeDone coef st0 st1 st s) := by
  rw [threeUnits, dataUnit_of_unitRun h0, Run.andThen_done, dataUnit_of_unitRun h1, Run.andThen_done, threeDone]
  exact dataUnit_of_unitRun h2

/-- Settles O41: the units of ENCMCU run in the states that the three ENCDU leave, but for the responses and payloads, on
which no unit depends. -/
theorem encmcuIsThreeEncdu : Obligations.EncmcuIsThreeEncdu := by
  unfold Obligations.EncmcuIsThreeEncdu
  intro s t0 t1 t2 b rest hp hc hl samples h0 ht0 h1 ht1 h2 ht2
  obtain ⟨st0, r0, rfl⟩ := dataUnit_of_encdu (by exact hp) rfl h0 ht0
  obtain ⟨st1, r1, rfl⟩ := dataUnit_of_encdu (by exact hp) rfl h1 ht1
  obtain ⟨st2, r2, rfl⟩ := dataUnit_of_encdu (by exact hp) rfl h2 ht2
  have hd := threeUnits_done (coef := pixelUnit b s) (s := { s with payloads := rest }) r0 r1 r2
  rw [exec_of_body_done (s := { s with payloads := .bytes b :: rest }) (not_fault_of_scan hp) (check_encmcu hp hc)
    ((body_encmcu rfl hl).trans hd)]
  rfl

end Sys2Proof.Machine
end

section
/-! The colour transform (42_transform.md R100, R101), every way to compute the DCT with the quantizer (R105, R112), and what
the constant block gives (42_transform.md section 5). -/

namespace Sys2Proof.Machine

open Sys2Proof.Reference

/-! ## Rounded quotients -/

section
variable {K : Type} [Field K] [LinearOrder K] [IsStrictOrderedRing K] [FloorRing K]

theorem floor_eq_ediv {x : K} {n : ℤ} {d : ℕ} (h : x = n / d) : ⌊x⌋ = n / d := by
  rw [h, Int.floor_div_natCast, Int.floor_intCast]

/-- Numbers less than 1 apart have floors at most 1 apart. -/
theorem abs_floor_sub_floor_le {x y : K} (h : |x - y| < 1) : |⌊x⌋ - ⌊y⌋| ≤ 1 := by
  obtain ⟨lower, upper⟩ := abs_lt.mp h
  have above : ⌊x⌋ < ⌊y⌋ + 2 := by
    rw [Int.floor_lt]
    push_cast
    linarith [Int.lt_floor_add_one y]
  have below : ⌊y⌋ < ⌊x⌋ + 2 := by
    rw [Int.floor_lt]
    push_cast
    linarith [Int.lt_floor_add_one x]
  exact abs_le.mpr ⟨by omega, by omega⟩

end

/-! ## The colour transform -/

/-- Settles O42: the quotients of R100 are the rational values over a common denominator. -/
theorem colourTransformExact : Obligations.ColourTransformExact := by
  unfold Obligations.ColourTransformExact
  intro b g r
  refine ⟨?_, ?_, ?_⟩
  · rw [floor_eq_ediv (n := 299 * r.toNat + 587 * g.toNat + 114 * b.toNat + 500) (d := 1000) (by push_cast; ring)]
    rfl
  · rw [floor_eq_ediv (n := -16874 * r.toNat - 33126 * g.toNat + 50000 * b.toNat + 50000) (d := 100000)
      (by push_cast; ring)]
    rfl
  · rw [floor_eq_ediv (n := 50000 * r.toNat - 41869 * g.toNat - 8131 * b.toNat + 50000) (d := 100000)
      (by push_cast; ring)]
    rfl

theorem deviationInt_bounds (d : Deviation) : -1 ≤ deviationInt d ∧ deviationInt d ≤ 1 := by cases d <;> decide

theorem clamp_bounds (v : Int) : -128 ≤ clamp v (-128) 127 ∧ clamp v (-128) 127 ≤ 127 := by
  unfold clamp
  omega

theorem cscIdeal_bounds (c : Channel) (b g r : Byte) : -128 ≤ cscIdeal c b g r ∧ cscIdeal c b g r ≤ 127 := by
  cases c <;> exact clamp_bounds _

/-- Settles O43: a value in range moved by at most 1 and clamped. -/
theorem cscTol1 : Obligations.CscTol1 := by
  unfold Obligations.CscTol1
  intro way c b g r
  obtain ⟨lower, upper⟩ := cscIdeal_bounds c b g r
  cases way with
  | ideal => exact ⟨lower, upper, by simp [csc]⟩
  | other =>
    obtain ⟨hlo, hhi⟩ := deviationInt_bounds (Config.cscDeviation c b g r)
    refine ⟨(clamp_bounds _).1, (clamp_bounds _).2, ?_⟩
    simp only [csc, clamp, abs_le]
    omega

/-! ## Cosines and the table of FDCTQ_TAB (42_transform.md R112) -/

theorem cosAt_sq (k : ℤ) : cosAt k ^ 2 = 2 + cosAt (2 * k) := by
  rw [sq, cosAt_mul, sub_self, cosAt_zero, two_mul, add_comm]

/-- A value whose square is near 2 + 2*cos(2t) is near 2*cos(t). -/
theorem cosAt_near {k m : ℤ} {a b ε δ η : ℝ} (hk : 0 ≤ k ∧ k < 8) (hm : 2 * k = m) (hb : |cosAt m - b| ≤ ε)
    (ha : 0 < a) (hab : |2 + b - a ^ 2| ≤ δ) (hη : ε + δ ≤ η * a) : |cosAt k - a| ≤ η := by
  have hpos := cosAt_pos hk.1 hk.2
  refine le_of_mul_le_mul_right (le_trans ?_ hη) ha
  calc |cosAt k - a| * a ≤ |cosAt k - a| * (cosAt k + a) := by gcongr; linarith
    _ = |cosAt m - b + (2 + b - a ^ 2)| := by
      rw [← abs_of_pos (add_pos hpos ha), ← abs_mul, ← hm]
      congr 1
      linear_combination cosAt_sq k
    _ ≤ ε + δ := (abs_add_le _ _).trans (add_le_add hb hab)

/-- 2^28 times 2*cos(k*pi/16), rounded. -/
def tabCos : Vector Int 8 :=
  #v[536870912, 526555088, 496004047, 446391849, 379625062, 298269498, 205451603, 104738319]

theorem cosAt_four_near : |cosAt 4 - 379625062 / 2 ^ 28| ≤ 1 / 2 ^ 24 :=
  cosAt_near (m := 8) (ε := 0) (δ := 1 / 2 ^ 26) (by decide) (by decide) (by rw [cosAt_eight, sub_self, abs_zero])
    (by norm_num) (by rw [abs_le]; norm_num) (by norm_num)

theorem cosAt_sixteen_sub_near {k m : ℤ} {a ε : ℝ} (hm : m = 16 - k) (h : |cosAt k - a| ≤ ε) : |cosAt m - -a| ≤ ε := by
  rwa [hm, cosAt_sixteen_sub, neg_sub_neg, abs_sub_comm]

theorem cosAt_two_near : |cosAt 2 - 496004047 / 2 ^ 28| ≤ 1 / 2 ^ 22 :=
  cosAt_near (δ := 1 / 2 ^ 26) (by decide) rfl cosAt_four_near (by norm_num) (by rw [abs_le]; norm_num) (by norm_num)

theorem cosAt_six_near : |cosAt 6 - 205451603 / 2 ^ 28| ≤ 1 / 2 ^ 22 :=
  cosAt_near (δ := 1 / 2 ^ 26) (by decide) rfl (cosAt_sixteen_sub_near (m := 12) rfl cosAt_four_near) (by norm_num)
    (by rw [abs_le]; norm_num) (by norm_num)

theorem cosAt_one_near : |cosAt 1 - 526555088 / 2 ^ 28| ≤ 1 / 4096 :=
  cosAt_near (δ := 1 / 2 ^ 26) (by decide) rfl cosAt_two_near (by norm_num) (by rw [abs_le]; norm_num) (by norm_num)

theorem cosAt_three_near : |cosAt 3 - 446391849 / 2 ^ 28| ≤ 1 / 4096 :=
  cosAt_near (δ := 1 / 2 ^ 26) (by decide) rfl cosAt_six_near (by norm_num) (by rw [abs_le]; norm_num) (by norm_num)

theorem cosAt_five_near : |cosAt 5 - 298269498 / 2 ^ 28| ≤ 1 / 4096 :=
  cosAt_near (δ := 1 / 2 ^ 26) (by decide) rfl (cosAt_sixteen_sub_near (m := 10) rfl cosAt_six_near) (by norm_num)
    (by rw [abs_le]; norm_num) (by norm_num)

theorem cosAt_seven_near : |cosAt 7 - 104738319 / 2 ^ 28| ≤ 1 / 4096 :=
  cosAt_near (δ := 1 / 2 ^ 26) (by decide) rfl (cosAt_sixteen_sub_near (m := 14) rfl cosAt_two_near) (by norm_num)
    (by rw [abs_le]; norm_num) (by norm_num)

theorem tabCos_near : ∀ k : Fin 8, |cosAt k.val - tabCos[k] / 2 ^ 28| ≤ 1 / 4096
  | 0 => by norm_num [tabCos]
  | 1 => by simpa [tabCos] using cosAt_one_near
  | 2 => by simpa [tabCos] using cosAt_two_near.trans (by norm_num)
  | 3 => by simpa [tabCos] using cosAt_three_near
  | 4 => by simpa [tabCos] using cosAt_four_near.trans (by norm_num)
  | 5 => by simpa [tabCos] using cosAt_five_near
  | 6 => by simpa [tabCos] using cosAt_six_near.trans (by norm_num)
  | 7 => by simpa [tabCos] using cosAt_seven_near

/-- An entry of a list of factors. -/
def entry (l : List Int) (x : Fin 8) : Int := l.getD x.val 0

/-- Every entry of the table is one of the eight values, up to its sign, with the angle of the row and the column. -/
theorem tabA_eq_tabCos : ∀ u x : Fin 8, ∃ k : Fin 8, ∃ sign : Int, (sign = 1 ∨ sign = -1) ∧
    Cyc.zero.addCos (dctAngle u x) 1 = Cyc.zero.addAt k.val sign ∧ entry tabA[u] x = sign * tabCos[k] := by
  have table : ∀ u x : Fin 8, ∃ k : Fin 8,
      (Cyc.zero.addCos (dctAngle u x) 1 = Cyc.zero.addAt k.val 1 ∧ entry tabA[u] x = 1 * tabCos[k]) ∨
        (Cyc.zero.addCos (dctAngle u x) 1 = Cyc.zero.addAt k.val (-1) ∧ entry tabA[u] x = -1 * tabCos[k]) := by
    decide
  intro u x
  obtain ⟨k, h | h⟩ := table u x
  · exact ⟨k, 1, .inl rfl, h⟩
  · exact ⟨k, -1, .inr rfl, h⟩

theorem tabA_near (u x : Fin 8) : |(entry tabA[u] x : ℝ) / 2 ^ 28 - dctBasis u x| ≤ 1 / 4096 := by
  obtain ⟨k, sign, hsign, hcyc, hentry⟩ := tabA_eq_tabCos u x
  have value := congrArg Cyc.val hcyc
  rw [Cyc.val_addCos, Cyc.val_addAt _ k.isLt.le, Cyc.val_zero, Int.cast_one, one_mul] at value
  have basis : dctBasis u x = sign * cosAt k.val := by rw [dctBasis]; linarith
  have hone : |(sign : ℝ)| = 1 := by rcases hsign with rfl | rfl <;> simp
  have split : (entry tabA[u] x : ℝ) / 2 ^ 28 - dctBasis u x = -(sign * (cosAt k.val - tabCos[k] / 2 ^ 28)) := by
    rw [hentry, basis]
    push_cast
    ring
  rw [split, abs_neg, abs_mul, hone, one_mul]
  exact tabCos_near k

theorem abs_dctBasis_le (u x : Fin 8) : |dctBasis u x| ≤ 2 := by
  rw [dctBasis, cosAt, abs_mul, abs_two]
  linarith [Real.abs_cos_le_one (dctAngle u x * Real.pi / 16)]

/-! ## FDCTQ_TAB as a rounded real (42_transform.md R112) -/

@[simp] theorem natural_rowOf_colOf (i : Fin 64) : natural (rowOf i) (colOf i) = i := by
  apply Fin.ext
  simp only [natural, rowOf, colOf]
  omega

theorem separableSum_cast (s : Vector Byte 64) (f g : List Int) :
    (separableSum s f g : ℝ) = ∑ j, (s[j].toInt : ℝ) * (entry f (colOf j) * entry g (rowOf j)) := by
  have rows : separableSum s f g = ∑ y, entry g y * ∑ x, entry f x * s[natural y x].toInt := by
    simp only [Fin.sum_univ_def]
    rfl
  rw [rows, sum_eq_sum_natural]
  push_cast
  refine Finset.sum_congr rfl fun y _ => ?_
  rw [Finset.mul_sum]
  refine Finset.sum_congr rfl fun x _ => ?_
  rw [rowOf_natural, colOf_natural]
  ring

/-- The frequencies at which the table is not used: their factors are 1 and -1. -/
abbrev PlainFrequency (v u : Fin 8) : Prop := (u = 0 ∨ u = 4) ∧ (v = 0 ∨ v = 4)

/-- The coefficient that FDCTQ_TAB quantizes. -/
noncomputable def tabReal (s : Vector Byte 64) (v u : Fin 8) : ℝ :=
  if PlainFrequency v u then separableSum s (tabG u) (tabG v) / 8 else separableSum s tabA[u] tabA[v] / 2 ^ 60

theorem fdctqTab_eq_floor (s steps : Vector Byte 64) (i : Fin 64) (hq : 1 ≤ (steps[i]).toNat) :
    fdctqTab s steps i = ⌊tabReal s (rowOf i) (colOf i) / (steps[i]).toNat + 1 / 2⌋ := by
  have hq0 : ((steps[i]).toNat : ℝ) ≠ 0 := by positivity
  by_cases h : PlainFrequency (rowOf i) (colOf i)
  · rw [tabReal, if_pos h, floor_eq_ediv (n := 2 * separableSum s (tabG (colOf i)) (tabG (rowOf i)) + 8 * (steps[i]).toNat)
      (d := 16 * (steps[i]).toNat) (by push_cast; field_simp; ring)]
    exact (if_pos h).trans (by push_cast; rfl)
  · rw [tabReal, if_neg h, floor_eq_ediv (n := 2 * separableSum s tabA[colOf i] tabA[rowOf i] + 2 ^ 60 * (steps[i]).toNat)
      (d := 2 ^ 61 * (steps[i]).toNat) (by push_cast; field_simp; ring)]
    exact (if_neg h).trans (by push_cast; rfl)

theorem fdctqIdeal_eq_floor (s steps : Vector Byte 64) (i : Fin 64) (h : ∀ j : Fin 64, 1 ≤ (steps[j]).toNat) :
    fdctqIdeal s steps i = ⌊dctReal s (rowOf i) (colOf i) / (steps[i]).toNat + 1 / 2⌋ := by
  obtain ⟨v, u, rfl⟩ : ∃ v u, natural v u = i := ⟨_, _, natural_rowOf_colOf i⟩
  rw [rowOf_natural, colOf_natural]
  exact (fdctqIdealIsRoundedDct s steps h v u).1

theorem sixteen_mul_dctReal (s : Vector Byte 64) (v u : Fin 8) :
    16 * dctReal s v u = ∑ j, (s[j].toInt : ℝ) * dctWeight v u j := by rw [← dct16_val_eq_dctReal, dct16_val]

theorem dctBasis_plain {u : Fin 8} (hu : u = 0 ∨ u = 4) (x : Fin 8) : dctBasis u x = entry (tabG u) x * cosAt 4 := by
  have table : ∀ u x : Fin 8, u = 0 ∨ u = 4 →
      Cyc.zero.addCos (dctAngle u x) 1 = Cyc.zero.addAt 4 (entry (tabG u) x) := by decide
  have value := congrArg Cyc.val (table u x hu)
  rw [Cyc.val_addCos, Cyc.val_addAt _ (by decide), Cyc.val_zero, Int.cast_one, one_mul, zero_add, zero_add] at value
  exact value

theorem tabReal_eq_dctReal (s : Vector Byte 64) {v u : Fin 8} (h : PlainFrequency v u) : tabReal s v u = dctReal s v u := by
  have weights (j : Fin 64) : (s[j].toInt : ℝ) * dctWeight v u j =
      2 * (s[j].toInt * (entry (tabG u) (colOf j) * entry (tabG v) (rowOf j))) := by
    rw [dctWeight, dctBasis_plain h.1, dctBasis_plain h.2]
    linear_combination (s[j].toInt : ℝ) * entry (tabG u) (colOf j) * entry (tabG v) (rowOf j) * cosAt_four_sq
  have sum := sixteen_mul_dctReal s v u
  rw [Finset.sum_congr rfl fun j _ => weights j, ← Finset.mul_sum, ← separableSum_cast] at sum
  rw [tabReal, if_pos h]
  linarith

/-- The product of two entries is near the weight of its sample. -/
theorem tabA_mul_near (v u : Fin 8) (j : Fin 64) :
    |(entry tabA[u] (colOf j) : ℝ) / 2 ^ 28 * (entry tabA[v] (rowOf j) / 2 ^ 28) - dctWeight v u j| ≤ 5 / 4096 := by
  have ha := tabA_near u (colOf j)
  have hb := tabA_near v (rowOf j)
  have hbasis := abs_dctBasis_le u (colOf j)
  have hfactor : |(entry tabA[v] (rowOf j) : ℝ) / 2 ^ 28| ≤ 3 := by
    have := (abs_add_le ((entry tabA[v] (rowOf j) : ℝ) / 2 ^ 28 - dctBasis v (rowOf j)) (dctBasis v (rowOf j))).trans
      (add_le_add hb (abs_dctBasis_le v (rowOf j)))
    rw [sub_add_cancel] at this
    linarith
  calc
    _ = |((entry tabA[u] (colOf j) : ℝ) / 2 ^ 28 - dctBasis u (colOf j)) * (entry tabA[v] (rowOf j) / 2 ^ 28) +
        dctBasis u (colOf j) * (entry tabA[v] (rowOf j) / 2 ^ 28 - dctBasis v (rowOf j))| := by
      rw [dctWeight]; congr 1; ring
    _ ≤ 1 / 4096 * 3 + 2 * (1 / 4096) := by
      refine (abs_add_le _ _).trans ?_
      rw [abs_mul, abs_mul]
      gcongr
    _ = 5 / 4096 := by norm_num

/-- The table is exact enough: the coefficient it gives is less than 1 off. -/
theorem abs_tabReal_sub_lt (s : Vector Byte 64) (v u : Fin 8) : |tabReal s v u - dctReal s v u| < 1 := by
  by_cases h : PlainFrequency v u
  · rw [tabReal_eq_dctReal s h, sub_self, abs_zero]
    exact one_pos
  · have terms (j : Fin 64) : |(s[j].toInt : ℝ) *
        ((entry tabA[u] (colOf j) : ℝ) / 2 ^ 28 * (entry tabA[v] (rowOf j) / 2 ^ 28) - dctWeight v u j)| ≤ 5 / 32 := by
      obtain ⟨lower, upper⟩ := sample_bounds s[j]
      have sample : |(s[j].toInt : ℝ)| ≤ 128 := abs_le.mpr ⟨lower, by linarith⟩
      rw [abs_mul]
      calc _ ≤ 128 * (5 / 4096 : ℝ) := mul_le_mul sample (tabA_mul_near v u j) (abs_nonneg _) (by norm_num)
        _ = 5 / 32 := by norm_num
    have total : 16 * (tabReal s v u - dctReal s v u) = ∑ j, (s[j].toInt : ℝ) *
        ((entry tabA[u] (colOf j) : ℝ) / 2 ^ 28 * (entry tabA[v] (rowOf j) / 2 ^ 28) - dctWeight v u j) := by
      simp only [mul_sub, Finset.sum_sub_distrib]
      rw [sixteen_mul_dctReal, tabReal, if_neg h, separableSum_cast, Finset.sum_div, Finset.mul_sum]
      congr 1
      refine Finset.sum_congr rfl fun j _ => ?_
      ring
    have bound := (Finset.abs_sum_le_sum_abs _ _).trans (Finset.sum_le_card_nsmul Finset.univ _ _ fun j _ => terms j)
    rw [← total, abs_mul] at bound
    norm_num at bound
    linarith

/-- Settles O45: the coefficients before rounding are less than 1 apart, so their quotients are too. -/
theorem fdctqTol1 : Obligations.FdctqTol1 := by
  unfold Obligations.FdctqTol1
  intro way s steps i h
  cases way with
  | ideal => simp [fdctqAt]
  | tab =>
    rw [fdctqAt, fdctqTab_eq_floor s steps i (h i), fdctqIdeal_eq_floor s steps i h]
    refine abs_floor_sub_floor_le ?_
    have hq : (1 : ℝ) ≤ (steps[i]).toNat := by exact_mod_cast h i
    rw [add_sub_add_right_eq_sub, ← sub_div, abs_div, Nat.abs_cast]
    exact (div_le_self (abs_nonneg _) hq).trans_lt (abs_tabReal_sub_lt s _ _)
  | other =>
    obtain ⟨lower, upper⟩ := deviationInt_bounds (Config.fdctqDeviation s steps i)
    simp only [fdctqAt, add_sub_cancel_left, abs_le]
    exact ⟨lower, upper⟩

/-! ## The constant block (42_transform.md section 5) -/

theorem sum_dctWeight (v u : Fin 8) : ∑ j, dctWeight v u j = (∑ x, dctBasis u x) * ∑ y, dctBasis v y := by
  rw [sum_eq_sum_natural]
  simp only [dctWeight, rowOf_natural, colOf_natural, ← Finset.sum_mul, ← Finset.mul_sum]

/-- Only the DC weights do not cancel. -/
theorem sum_dctWeight_of_ne_dc {v u : Fin 8} (h : ¬ (v = 0 ∧ u = 0)) : ∑ j, dctWeight v u j = 0 := by
  rw [sum_dctWeight]
  by_cases hu : u = 0
  · rw [sum_dctBasis_of_ne_zero (u := v) fun hv => h ⟨hv, hu⟩, mul_zero]
  · rw [sum_dctBasis_of_ne_zero hu, zero_mul]

theorem dctWeight_dc (j : Fin 64) : dctWeight 0 0 j = 2 := by
  rw [← cosAt_four_sq, sq]
  rfl

theorem dctReal_const (c : Byte) (v u : Fin 8) :
    dctReal (Vector.replicate 64 c) v u = if v = 0 ∧ u = 0 then 8 * (c.toInt : ℝ) else 0 := by
  have sum := sixteen_mul_dctReal (Vector.replicate 64 c) v u
  simp only [Fin.getElem_fin, Vector.getElem_replicate, ← Finset.mul_sum] at sum
  split
  next h =>
    obtain ⟨rfl, rfl⟩ := h
    simp only [dctWeight_dc, Finset.sum_const, Finset.card_univ, Fintype.card_fin] at sum
    norm_num at sum
    linarith
  next h =>
    rw [sum_dctWeight_of_ne_dc h] at sum
    linarith

theorem separableSum_const (c : Byte) (f g : List Int) :
    separableSum (Vector.replicate 64 c) f g = c.toInt * ((∑ x, entry f x) * ∑ y, entry g y) := by
  have := separableSum_cast (Vector.replicate 64 c) f g
  simp only [Fin.getElem_fin, Vector.getElem_replicate, ← Finset.mul_sum] at this
  rw [sum_eq_sum_natural] at this
  simp only [rowOf_natural, colOf_natural, ← Finset.sum_mul, ← Finset.mul_sum] at this
  exact_mod_cast this

theorem sum_tabA : ∀ u : Fin 8, u ≠ 0 → ∑ x, entry tabA[u] x = 0 := by decide

theorem tabReal_const (c : Byte) (v u : Fin 8) :
    tabReal (Vector.replicate 64 c) v u = if v = 0 ∧ u = 0 then 8 * (c.toInt : ℝ) else 0 := by
  by_cases h : PlainFrequency v u
  · rw [tabReal_eq_dctReal _ h, dctReal_const]
  · have hne : ¬ (v = 0 ∧ u = 0) := fun ⟨hv, hu⟩ => h ⟨.inl hu, .inl hv⟩
    rw [tabReal, if_neg h, if_neg hne, separableSum_const]
    by_cases hu : u = 0
    · rw [sum_tabA v fun hv => hne ⟨hv, hu⟩, mul_zero, mul_zero, Int.cast_zero, zero_div]
    · rw [sum_tabA u hu, zero_mul, mul_zero, Int.cast_zero, zero_div]

/-- Settles O46: a constant block has the coefficient 8c and no other, however it is computed. -/
theorem fdctqConst : Obligations.FdctqConst := by
  unfold Obligations.FdctqConst
  intro way c steps hway h
  have value (i : Fin 64) : fdctqAt way (Vector.replicate 64 c) steps i =
      ⌊(if rowOf i = 0 ∧ colOf i = 0 then 8 * (c.toInt : ℝ) else 0) / (steps[i]).toNat + 1 / 2⌋ := by
    rcases hway with rfl | rfl
    · rw [fdctqAt, fdctqIdeal_eq_floor _ _ _ h, dctReal_const]
    · rw [fdctqAt, fdctqTab_eq_floor _ _ _ (h i), tabReal_const]
  have hq : ((steps[(0 : Fin 64)]).toNat : ℝ) ≠ 0 := by
    have := h 0
    positivity
  refine ⟨?dc, fun i hi => ?ac⟩
  case dc =>
    refine (value 0).trans ?_
    rw [if_pos (by decide), floor_eq_ediv (n := 16 * c.toInt + (steps[(0 : Fin 64)]).toNat)
      (d := 2 * (steps[(0 : Fin 64)]).toNat) (by push_cast; field_simp; ring)]
    push_cast
    rfl
  case ac =>
    have hne : ¬ (rowOf i = 0 ∧ colOf i = 0) := by
      simp only [Fin.ext_iff, rowOf, colOf, Fin.val_zero] at hi ⊢
      omega
    rw [value, if_neg hne]
    norm_num

end Sys2Proof.Machine
end

section
/-! The quantized units of the transform are coded by the default tables (43_entropy_coder.md R123; 42_transform.md R105,
R107): the range of their coefficients, and what the encoder needs of its tables for that range. -/

namespace Sys2Proof.Machine

open Sys2Proof.Safety Sys2Proof.Reference

/-! ## The range of the coefficients -/

theorem floor_quotient_bounds {F : ℝ} {q : ℕ} (hq : 1 ≤ q) {lo hi : ℤ} (hlo : lo ≤ 0) (hhi : 0 ≤ hi)
    (hF : (lo : ℝ) ≤ F ∧ F ≤ hi) : lo ≤ ⌊F / q + 1 / 2⌋ ∧ ⌊F / q + 1 / 2⌋ ≤ hi := by
  have hq1 : (1 : ℝ) ≤ q := by exact_mod_cast hq
  have hpos : (0 : ℝ) < q := by linarith
  have hlo0 : (lo : ℝ) ≤ 0 := by exact_mod_cast hlo
  have hhi0 : (0 : ℝ) ≤ hi := by exact_mod_cast hhi
  have lower : lo ≤ F / q := by
    rw [le_div_iff₀ hpos]
    nlinarith [hF.1]
  have upper : F / q ≤ hi := by
    rw [div_le_iff₀ hpos]
    nlinarith [hF.2]
  constructor
  · rw [Int.le_floor]
    linarith
  · rw [← Int.lt_add_one_iff, Int.floor_lt]
    push_cast
    linarith

/-- The DC coefficient is an eighth of the sum of the samples. -/
theorem dctReal_dc_le (s : Vector Byte 64) : dctReal s 0 0 ≤ 1016 := by
  have sum := sixteen_mul_dctReal s 0 0
  have bound : ∑ j, (s[j].toInt : ℝ) * dctWeight 0 0 j ≤ ∑ _j : Fin 64, 254 := by
    refine Finset.sum_le_sum fun j _ => ?_
    rw [dctWeight_dc]
    linarith [(sample_bounds s[j]).2]
  rw [← sum, Finset.sum_const, Finset.card_univ, Fintype.card_fin, nsmul_eq_mul] at bound
  norm_num at bound
  linarith

/-- The samples lie around -1/2, and the AC weights do not see the shift. -/
theorem abs_dctReal_ac_le (s : Vector Byte 64) {v u : Fin 8} (h : ¬ (v = 0 ∧ u = 0)) : |dctReal s v u| ≤ 1020 := by
  have hs (j : Fin 64) : |(s[j].toInt : ℝ) + 1 / 2| ≤ 255 / 2 := by
    obtain ⟨lower, upper⟩ := sample_bounds s[j]
    exact abs_le.mpr ⟨by linarith, by linarith⟩
  have bound := abs_sum_mul_dctWeight_le hs v u
  simp only [add_mul, Finset.sum_add_distrib, ← Finset.mul_sum] at bound
  rw [sum_dctWeight_of_ne_dc h, mul_zero, add_zero, ← sixteen_mul_dctReal, abs_mul] at bound
  norm_num at bound
  linarith

section
variable {s steps : Vector Byte 64} (h : ∀ j : Fin 64, 1 ≤ (steps[j]).toNat) (way : FdctqInstance)
include h

theorem fdctqAt_dc_bounds : -1025 ≤ fdctqAt way s steps 0 ∧ fdctqAt way s steps 0 ≤ 1017 := by
  have ideal := floor_quotient_bounds (h 0) (lo := -1024) (hi := 1016) (F := dctReal s 0 0) (by decide) (by decide)
    ⟨by push_cast; exact dctReal_ge s 0 0, by push_cast; exact dctReal_dc_le s⟩
  have value : fdctqIdeal s steps 0 = ⌊dctReal s 0 0 / (steps[(0 : Fin 64)]).toNat + 1 / 2⌋ := fdctqIdeal_eq_floor s steps 0 h
  rw [← value] at ideal
  have near := abs_le.mp (fdctqTol1 way s steps 0 h)
  omega

theorem fdctqAt_ac_bounds {i : Fin 64} (hi : i ≠ 0) : -1021 ≤ fdctqAt way s steps i ∧ fdctqAt way s steps i ≤ 1021 := by
  have hne : ¬ (rowOf i = 0 ∧ colOf i = 0) := by
    simp only [Fin.ext_iff, rowOf, colOf, Fin.val_zero] at hi ⊢
    omega
  obtain ⟨lower, upper⟩ := abs_le.mp (abs_dctReal_ac_le s hne)
  have ideal := floor_quotient_bounds (h i) (lo := -1020) (hi := 1020) (by decide) (by decide)
    ⟨by push_cast; exact lower, by push_cast; exact upper⟩
  rw [← fdctqIdeal_eq_floor s steps i h] at ideal
  have near := abs_le.mp (fdctqTol1 way s steps i h)
  omega

theorem fdctq_toInt (i : Fin 64) : ((fdctq way s steps)[i]).toInt = fdctqAt way s steps i := by
  rw [fdctq, vec_getElem_fin]
  by_cases hi : i = 0
  · subst hi
    have := fdctqAt_dc_bounds (s := s) h way
    exact BitVec.toInt_ofInt_eq_self (by decide) (by norm_num; omega) (by norm_num; omega)
  · have := fdctqAt_ac_bounds (s := s) h way hi
    exact BitVec.toInt_ofInt_eq_self (by decide) (by norm_num; omega) (by norm_num; omega)

end

/-! ## In zigzag order -/

/-- The range of a quantized DC coefficient, and so of a predictor. -/
def InDcRange (w : Word16) : Prop := -1025 ≤ w.toInt ∧ w.toInt ≤ 1017

/-- A data unit in zigzag order whose terms are those of a transformed one: the DC term as a predictor may be, the AC terms
of at most ten bits. -/
structure TransformRange (zzb : Vector Word16 64) : Prop where
  dc : InDcRange zzb[0]
  ac : ∀ v ∈ acTerms zzb, v.natAbs < 2 ^ 10

theorem mem_acTerms {zzb : Vector Word16 64} {v : Int} (hv : v ∈ acTerms zzb) :
    ∃ k : Fin 64, k ≠ 0 ∧ v = (zzb[k]).toInt := by
  obtain ⟨w, hw, rfl⟩ := List.mem_map.mp hv
  obtain ⟨j, hj, rfl⟩ := List.mem_iff_getElem.mp hw
  have hj' : j < 63 := by simpa using hj
  refine ⟨⟨j + 1, by omega⟩, Fin.ne_of_val_ne (Nat.succ_ne_zero j), ?_⟩
  rw [List.getElem_tail, Vector.getElem_toList]
  rfl

theorem natIndex_zero {b : Build} (hb : BuildOk b) : natIndex b.zz 0 = 0 := by
  have := natIndex_zz hb.zigzag 0
  rwa [show b.zz[(0 : Fin 64)] = 0 from hb.zigzag0] at this

theorem natIndex_ne_zero {b : Build} (hb : BuildOk b) {k : Fin 64} (hk : k ≠ 0) : natIndex b.zz k ≠ 0 := by
  intro h
  have moved : b.zz[natIndex b.zz k] = b.zz[(0 : Fin 64)] := congrArg (fun j : Fin 64 => b.zz[j]) h
  exact hk ((zz_natIndex hb.zigzag k).symm.trans (moved.trans hb.zigzag0))

/-- The units that the transform makes, on any build. -/
theorem transformRange_fdctq {b : Build} (hb : BuildOk b) (way : FdctqInstance) (samples : Vector Byte 64)
    {steps : Vector Byte 64} (h : ∀ j : Fin 64, 1 ≤ (steps[j]).toNat) :
    TransformRange (reorder b.zz (fdctq way samples steps)) := by
  have term (k : Fin 64) : ((reorder b.zz (fdctq way samples steps))[k]).toInt = fdctqAt way samples steps (natIndex b.zz k) := by
    rw [reorder, vec_getElem_fin, fdctq_toInt h]
  refine ⟨?_, fun v hv => ?_⟩
  · have dc := term 0
    rw [natIndex_zero hb] at dc
    have := fdctqAt_dc_bounds (s := samples) h way
    rw [← dc] at this
    exact this
  · obtain ⟨k, hk, rfl⟩ := mem_acTerms hv
    rw [term k]
    have := fdctqAt_ac_bounds (s := samples) h way (natIndex_ne_zero hb hk)
    omega

/-! ## Tables that code them -/

/-- The symbol has a code. -/
def Coded (t : Vector HuffEntry 256) (sym : Nat) : Prop := (t[sym]?.getD ⟨0, 0⟩).len ≠ 0

/-- A DC table with codes for the sizes of all differences of predictors. -/
def CodesDc (t : Vector HuffEntry 256) : Prop := ∀ n ≤ 11, Coded t n

/-- An AC table with codes for every run of zeros and every size of at most ten bits. -/
structure CodesAc (t : Vector HuffEntry 256) : Prop where
  endOfBlock : Coded t 0x00
  zeros      : Coded t 0xF0
  terms      : ∀ run < 16, ∀ n, 1 ≤ n → n ≤ 10 → Coded t (run * 16 + n)

theorem coded_iff {t : Vector HuffEntry 256} {sym : Nat} (h : sym < 256) :
    Coded t sym ↔ (t[(⟨sym, h⟩ : Fin 256)]).len ≠ 0 := by
  rw [Coded, Vector.getElem?_eq_getElem h, Option.getD_some]
  rfl

theorem buildAllHuff_getElem (hspec : Vector HuffSpec 4) (t : Fin 4) : (buildAllHuff hspec)[t] = buildHuff hspec[t] := by
  rw [buildAllHuff, vec_getElem_fin]

theorem codesDc_default (c : Channel) : CodesDc (buildAllHuff defaultBuild.hspec)[tdc c] := by
  intro n hn
  rw [coded_iff (by omega), buildAllHuff_getElem, default_dc_coded (by cases c <;> decide)]
  exact hn

theorem codesAc_default (c : Channel) : CodesAc (buildAllHuff defaultBuild.hspec)[tac c] := by
  have coded {sym : Nat} (hsym : sym < 256) (h : sym = 0x00 ∨ sym = 0xF0 ∨ (1 ≤ sym % 16 ∧ sym % 16 ≤ 10)) :
      Coded (buildAllHuff defaultBuild.hspec)[tac c] sym := by
    rw [coded_iff hsym, buildAllHuff_getElem, default_ac_coded (by cases c <;> decide)]
    exact h
  exact ⟨coded (by decide) (by decide), coded (by decide) (by decide),
    fun run hr n h1 h10 => coded (by omega) (.inr (.inr (by omega)))⟩

theorem bitlen_le {n k : Nat} (h : n < 2 ^ k) : bitlen n ≤ k := by
  by_cases hn : n = 0
  · simp [bitlen, hn]
  · rw [bitlen, if_neg hn]
    exact (Nat.log2_lt hn).mpr h

theorem bitlen_pos {n : Nat} (h : n ≠ 0) : 1 ≤ bitlen n := by
  rw [bitlen, if_neg h]
  exact Nat.le_add_left 1 _

/-! ## The encoder on such a unit: it can only be stopped by the host -/

section
variable {cap : Nat} {t : Vector HuffEntry 256}

theorem raisesOnly_emitSym {sym : Nat} (h : Coded t sym) (st : Stream) : RaisesOnly [.sinkWrite] (emitSym cap t sym st) := by
  unfold emitSym
  dsimp only
  rw [if_neg h]
  exact raisesOnly_writeBits cap _ _ st

theorem raisesOnly_encodeDc (ht : CodesDc t) {diff : Int} (h : diff.natAbs < 2 ^ 11) (st : Stream) :
    RaisesOnly [.sinkWrite] (encodeDc cap t diff st) := by
  refine (raisesOnly_emitSym (ht _ (bitlen_le h)) st).andThen fun st' => ?_
  split
  · exact raisesOnly_writeBits cap _ _ st'
  · exact raisesOnly_done st'

theorem raisesOnly_emitZrl (ht : CodesAc t) (n : Nat) (st : Stream) : RaisesOnly [.sinkWrite] (emitZrl cap t n st) := by
  induction n generalizing st with
  | zero => exact raisesOnly_done st
  | succ k ih => exact (raisesOnly_emitSym ht.zeros st).andThen ih

theorem raisesOnly_encodeTerm (ht : CodesAc t) (run : Nat) {v : Int} (hv : v ≠ 0) (h : v.natAbs < 2 ^ 10) (st : Stream) :
    RaisesOnly [.sinkWrite] (encodeTerm cap t run v st) := by
  have size : 1 ≤ (magBits v).1 ∧ (magBits v).1 ≤ 10 := ⟨bitlen_pos (Int.natAbs_ne_zero.mpr hv), bitlen_le h⟩
  refine (raisesOnly_emitZrl ht _ st).andThen fun st' => ?_
  dsimp only
  rw [if_neg (by omega)]
  exact (raisesOnly_emitSym (ht.terms _ (Nat.mod_lt run (by decide)) _ size.1 size.2) st').andThen
    fun st'' => raisesOnly_writeBits cap _ _ st''

theorem raisesOnly_encodeTerms (ht : CodesAc t) {l : List Int} (hl : ∀ v ∈ l, v.natAbs < 2 ^ 10) (run : Nat) (st : Stream) :
    RaisesOnly [.sinkWrite] (encodeTerms cap t run l st) := by
  induction l generalizing run st with
  | nil => exact raisesOnly_done st
  | cons v rest ih =>
    obtain ⟨hv, hrest⟩ := List.forall_mem_cons.mp hl
    unfold encodeTerms
    split
    next => exact ih hrest _ st
    next hne => exact (raisesOnly_encodeTerm ht run hne hv st).andThen (ih hrest 0)

theorem raisesOnly_encodeAc (ht : CodesAc t) {l : List Int} (hl : ∀ v ∈ l, v.natAbs < 2 ^ 10) (st : Stream) :
    RaisesOnly [.sinkWrite] (encodeAc cap t l st) := by
  refine (raisesOnly_encodeTerms ht (fun v hv => hl v (List.mem_of_mem_take hv)) 0 st).andThen fun st' => ?_
  split
  · exact raisesOnly_emitSym ht.endOfBlock st'
  · exact raisesOnly_done st'

end

/-- A unit of a channel that has the default tables and a predictor in range. -/
theorem raisesOnly_unitRun {c : Channel} {coef : Vector Word16 64} {s : State}
    (ht : s.ht = buildAllHuff defaultBuild.hspec) (hpred : InDcRange s.dcp[chanIdx c])
    (hr : TransformRange (reorder s.build.zz coef)) : RaisesOnly [.sinkWrite] (unitRun c coef s) := by
  obtain ⟨⟨dcLow, dcHigh⟩, ac⟩ := hr
  obtain ⟨predLow, predHigh⟩ := hpred
  rw [unitRun, ht]
  exact (raisesOnly_encodeDc (codesDc_default c) (by omega) _).andThen fun st => raisesOnly_encodeAc (codesAc_default c) ac st

/-- Such a unit has a bit string: with a host that accepts everything its run ends. -/
theorem exists_channelBits {c : Channel} {coef : Vector Word16 64} {s : State}
    (ht : s.ht = buildAllHuff defaultBuild.hspec) (hpred : InDcRange s.dcp[chanIdx c])
    (hr : TransformRange (reorder s.build.zz coef)) (hb : BuildOk s.build) :
    ∃ bits, Reference.channelBits c coef s = some bits := by
  refine Option.ne_none_iff_exists'.mp fun hnone => ?_
  have ready : Ready s.build.sinkCap.toNat State.reset.stream :=
    ⟨⟨by decide, rfl⟩, hb.cap, rfl⟩
  obtain ⟨st, hst⟩ := unitRun_uncoded (s := { s with stream := State.reset.stream }) ready hnone
  have := raisesOnly_unitRun (s := { s with stream := State.reset.stream }) ht hpred hr _ _ hst
  simp at this

end Sys2Proof.Machine
end

section
/-! O47 (43_entropy_coder.md R123): with the default tables ENCDU and ENCMCU take no UNCODED, in SCAN and as an invariant of
the step. -/

namespace Sys2Proof.Machine

open Sys2Proof.Safety Sys2Proof.Reference

/-! ## Data units of the transform -/

/-- The run takes no fault but those that the host brings about, and leaves a state whose units are from the transform. -/
structure StaysCoded (r : Run State) : Prop where
  faults : RaisesOnly [.srcRead, .sinkWrite] r
  done   : ∀ u, r = .done u → CodedScan u

theorem StaysCoded.andThen {r : Run State} {k : State → Run State} (h : StaysCoded r)
    (hk : ∀ u, CodedScan u → StaysCoded (k u)) : StaysCoded (r.andThen k) := by
  cases r with
  | done u => exact hk u (h.done u rfl)
  | raised c u => exact h

section
variable {s : State} (h : CodedScan s)
include h

theorem codedScan_unitDone (c : Channel) {coef : Vector Word16 64} (hr : TransformRange (reorder s.build.zz coef)) (st : Stream)
    (rest : List PayloadAnswer) : CodedScan (unitDone c coef st rest s) := by
  refine ⟨h.scan, h.build, h.huff, h.steps, fun d => ?_⟩
  rw [unitDone]
  by_cases hd : d = chanIdx c
  · subst hd
    simpa [InDcRange] using hr.dc
  · have hne : (chanIdx c).val ≠ d.val := fun heq => hd (Fin.ext heq.symm)
    simpa only [Fin.getElem_fin, Vector.getElem_set_ne _ _ hne] using h.preds d

theorem staysCoded_sampleUnit (c : Channel) (samples : Vector Byte 64) : StaysCoded (sampleUnit c samples s) := by
  have range := transformRange_fdctq h.build s.build.fdctq samples (h.steps (qsel c))
  unfold sampleUnit
  generalize fdctq s.build.fdctq samples s.qt[qsel c] = coef at range ⊢
  rcases dataUnit_cases c coef s with ⟨st, -, hd⟩ | ⟨d, st, hrun, hd⟩ <;> rw [hd]
  · refine ⟨raisesOnly_done _, fun u hu => ?_⟩
    cases hu
    exact codedScan_unitDone h c range st _
  · refine ⟨fun e u hu => ?_, fun u hu => by cases hu⟩
    cases hu
    exact List.mem_cons_of_mem _ (raisesOnly_unitRun h.huff (h.preds (chanIdx c)) range _ _ hrun)

theorem staysCoded_withPayload {n : Nat} {k : Vector Byte n → State → Run State}
    (hk : ∀ pl u, CodedScan u → StaysCoded (k pl u)) : StaysCoded (withPayload n k s) := by
  rcases withPayload_cases n k s with ⟨b, hl, -, hp⟩ | hp <;> rw [hp]
  · exact hk _ (pulled s) ⟨h.scan, h.build, h.huff, h.steps, h.preds⟩
  · refine ⟨fun c u hu => ?_, fun u hu => by cases hu⟩
    cases hu
    exact List.mem_cons_self

end

/-- The two commands that transform. -/
def Transforms (i : Instr) : Prop := i = .encmcu ∨ ∃ ch, i = .encdu ch

theorem staysCoded_body {i : Instr} {s : State} (hi : Transforms i) (h : CodedScan s) : StaysCoded (body i s) := by
  rcases hi with rfl | ⟨ch, rfl⟩
  · exact staysCoded_withPayload h fun pl u hu => (staysCoded_sampleUnit hu _ _).andThen fun v hv =>
      (staysCoded_sampleUnit hv _ _).andThen fun w hw => staysCoded_sampleUnit hw _ _
  · exact staysCoded_withPayload h fun pl u hu => staysCoded_sampleUnit hu ch pl

/-! ## Every other command -/

/-- Only the data commands raise UNCODED. -/
theorem data_of_uncoded {i : Instr} {s u : State} (h : body i s = .raised .uncoded u) :
    Transforms i ∨ ∃ ch, i = .enccoef ch := by
  have cause := raisesOnly_body i s _ _ h
  cases i with
  | encmcu => exact .inl (.inl rfl)
  | encdu ch => exact .inl (.inr ⟨ch, rfl⟩)
  | enccoef ch => exact .inr ⟨ch, rfl⟩
  | nop | reset | wrreg | rdreg | rdtbl | bldqt | bldht | wbits | wbyte | wword | align | sync | soi | app0 | dqt | sof0
  | dht | sos | eoi => simp [bodyCauses] at cause

theorem not_uncoded_of_exec {i : Instr} {s t : State} (hf : s.phase ≠ .fault) (hi : ∀ ch, i ≠ .enccoef ch)
    (hs : s.phase = .scan → CodedScan s) (h : exec i s = .next t) : ¬ FaultTaken .uncoded s t := by
  intro ht
  rcases faultTaken_cases hf h ht with ⟨hc, -⟩ | ⟨hc, u, hb, -⟩
  · rcases check_cause hc with h | h | h | h | h <;> cases h
  · rcases data_of_uncoded hb with hdata | ⟨ch, rfl⟩
    · have hscan : s.phase = .scan := by
        have legal := (legal_of_check hc).1
        rcases hdata with rfl | ⟨ch, rfl⟩ <;> exact List.mem_singleton.mp legal
      have := (staysCoded_body hdata (hs hscan)).faults _ _ hb
      simp at this
    · exact hi ch rfl

theorem kept_of_done {i : Instr} {s u : State} (hi : ¬ WritesTables i) (hb : body i s = .done u) : Kept s u := by
  have := body_kept hi s
  rw [hb] at this
  exact this

/-- The predictors are the data commands' and SOI's. -/
theorem body_dcp {i : Instr} {s u : State} (hi : ¬ WritesTables i) (hd : ¬ Transforms i) (he : ∀ ch, i ≠ .enccoef ch)
    (hsoi : i ≠ .soi) (hb : body i s = .done u) : u.dcp = s.dcp := by
  cases i with
  | reset | wrreg | bldqt | bldht => simp [WritesTables] at hi
  | soi => exact absurd rfl hsoi
  | encmcu => exact absurd (.inl rfl) hd
  | encdu ch => exact absurd (.inr ⟨ch, rfl⟩) hd
  | enccoef ch => exact absurd rfl (he ch)
  | nop | rdreg | rdtbl =>
    cases hb
    rfl
  | wbits | wbyte | wword | sync =>
    simp only [body] at hb
    obtain ⟨st, -, rfl⟩ := onStream_eq_done hb
    rfl
  | align | app0 | dqt | sof0 | dht | sos | eoi =>
    obtain ⟨st, -, rfl⟩ := thenPhase_eq_done hb
    rfl

/-- What ends inside a stream began inside it, but for SOI. -/
theorem inStream_of_phaseAfter {i : Instr} {p : Phase} {next : Channel} (hl : IsLegal i p next) (hsoi : i ≠ .soi)
    (h : inStream (phaseAfter i p)) : inStream p := by
  obtain ⟨legal, -⟩ := hl
  cases i with
  | soi => exact absurd rfl hsoi
  | nop | rdreg | rdtbl | sync | wrreg | bldqt | bldht | encmcu | encdu | enccoef | wbits | wbyte | wword => exact h
  | reset | eoi => simp [phaseAfter, inStream] at h
  | app0 | dqt | sof0 | dht | sos | align =>
    obtain rfl := List.mem_singleton.mp legal
    simp [inStream]

/-- A command that ends in SCAN and neither transforms nor is ENCCOEF keeps what CodedScan speaks of. -/
theorem codedScan_body {i : Instr} {s u : State} (h : CodedScan s) (hi : ∀ ch, i ≠ .enccoef ch) (hc : check i s = none)
    (hb : body i s = .done u) (hu : u.phase = .scan) : CodedScan u := by
  by_cases hd : Transforms i
  · exact (staysCoded_body hd h).done u hb
  have open_ : inStream s.phase := by simp [inStream, h.scan]
  have hr : i ≠ .reset := by
    rintro rfl
    have := hu.symm.trans (phase_of_done hb)
    simp [phaseAfter] at this
  have hsoi : i ≠ .soi := by
    rintro rfl
    have := hu.symm.trans (phase_of_done hb)
    simp [phaseAfter] at this
  have frozen := not_writesTables_in_stream open_ hr (legal_of_check hc)
  have kept := kept_of_done frozen hb
  refine ⟨hu, ?_, ?_, ?_, ?_⟩
  · rw [kept.build]
    exact h.build
  · rw [kept.ht]
    exact h.huff
  · rw [kept.qt]
    exact h.steps
  · rw [body_dcp frozen hd hi hsoi hb]
    exact h.preds

/-- The second part: what commands do from such a state. -/
theorem coded_exec {i : Instr} {s t : State} (h : CodedScan s) (hi : ∀ ch, i ≠ .enccoef ch) (ht : exec i s = .next t) :
    ¬ FaultTaken .uncoded s t ∧ (Transforms i → t.phase ≠ .fault → CodedScan t) ∧
      (t.phase = .scan → CodedScan t) := by
  have hf := not_fault_of_scan h.scan
  refine ⟨not_uncoded_of_exec hf hi (fun _ => h) ht, ?_⟩
  cases exec_ends hf ht with
  | checked hc => exact ⟨fun _ hn => absurd rfl hn, fun hs => by cases hs⟩
  | raised hc hb => exact ⟨fun _ hn => absurd rfl hn, fun hs => by cases hs⟩
  | @answered u hc hb =>
    have answer (hu : CodedScan u) : CodedScan (answered (respData i s) u) :=
      ⟨hu.scan, hu.build, hu.huff, hu.steps, hu.preds⟩
    exact ⟨fun hd _ => answer ((staysCoded_body hd h).done u hb), fun hs => answer (codedScan_body h hi hc hb hs)⟩

/-! ## As an invariant of the step -/

/-- The invariant, on a build with the default specifications, with predictors as quantized DC terms are. -/
structure CodedInv (s : State) : Prop where
  inv   : Inv s
  hspec : s.build.hspec = defaultBuild.hspec
  preds : inStream s.phase → ∀ c : Fin 3, InDcRange s.dcp[c]

theorem codedScan_of_inv {s : State} (h : CodedInv s) (hp : s.phase = .scan) : CodedScan s := by
  have hf := not_fault_of_scan hp
  have open_ : inStream s.phase := by simp [inStream, hp]
  obtain ⟨qtValid, htValid, -⟩ := h.inv.tables open_
  refine ⟨hp, h.inv.build, ?_, fun q i => ?_, h.preds open_⟩
  · rw [(h.inv.huff hf htValid).2, h.hspec]
  · rw [h.inv.quant hf qtValid, buildBothQt_entry h.inv.build, quantStep_toNat]
    omega

theorem preds_body_done {i : Instr} {s u : State} (h : CodedInv s) (hi : ∀ ch, i ≠ .enccoef ch)
    (hc : check i s = none) (hb : body i s = .done u) (hu : inStream u.phase) (c : Fin 3) :
    InDcRange u.dcp[c] := by
  have legal := legal_of_check hc
  by_cases hsoi : i = .soi
  · subst hsoi
    obtain ⟨st, -, rfl⟩ := thenPhase_eq_done (s := clearStream s) hb
    simp [clearStream, InDcRange]
  rw [phase_of_done hb] at hu
  have open_ := inStream_of_phaseAfter legal hsoi hu
  by_cases hd : Transforms i
  · have hscan : s.phase = .scan := by rcases hd with rfl | ⟨ch, rfl⟩ <;> exact List.mem_singleton.mp legal.1
    exact ((staysCoded_body hd (codedScan_of_inv h hscan)).done u hb).preds c
  have hr : i ≠ .reset := by
    rintro rfl
    simp [phaseAfter, inStream] at hu
  rw [body_dcp (not_writesTables_in_stream open_ hr legal) hd hi hsoi hb]
  exact h.preds open_ c

theorem codedInv_takeFault {s : State} (h : CodedInv s) (hf : s.phase ≠ .fault) (c : FaultCause) : CodedInv (takeFault c s) :=
  ⟨inv_takeFault c h.inv.build hf, h.hspec, fun hs => absurd rfl (not_fault_of_inStream hs)⟩

theorem codedInv_respond {s : State} (h : CodedInv s) (st : BitVec 4) (data : Word32) : CodedInv (respond st data s) :=
  ⟨inv_respond h.inv st data, h.hspec, h.preds⟩

theorem codedInv_doReset {s : State} (h : CodedInv s) : CodedInv (doReset s) :=
  ⟨inv_doReset h.inv.build, h.hspec, fun hs => by simp [doReset, inStream] at hs⟩

theorem codedInv_faultGate {s : State} (h : CodedInv s) (i : Instr) : CodedInv (faultGate i s) := by
  unfold faultGate
  split
  · exact codedInv_respond h _ _
  · split
    · exact codedInv_respond (codedInv_doReset h) _ _
    · split
      · exact codedInv_respond h _ _
      · exact codedInv_respond h _ _

/-- A command keeps it. -/
theorem codedInv_exec {i : Instr} {s t : State} (h : CodedInv s) (hi : ∀ ch, i ≠ .enccoef ch) (ht : exec i s = .next t) :
    CodedInv t := by
  by_cases hf : s.phase = .fault
  · cases (exec_in_fault hf).symm.trans ht
    exact codedInv_faultGate h i
  cases exec_ends hf ht with
  | checked hc => exact codedInv_takeFault h hf _
  | @raised c u hc hb =>
    have build : (body i s).state.build = s.build := (body_hostSide i s).2.2
    rw [hb] at build
    exact ⟨inv_exec h.inv ht, (congrArg Build.hspec build).trans h.hspec,
      fun hs => absurd rfl (not_fault_of_inStream hs)⟩
  | @answered u hc hb =>
    have build : (body i s).state.build = s.build := (body_hostSide i s).2.2
    rw [hb] at build
    have after : CodedInv u :=
      ⟨inv_body_done h.inv hf hc hb, (congrArg Build.hspec build).trans h.hspec, preds_body_done h hi hc hb⟩
    exact codedInv_respond after 0 _

/-- In the FAULT phase no fault is taken: FPHASE would be FAULT. -/
theorem not_faultTaken_in_fault {c : FaultCause} {s t : State} (hf : s.phase = .fault) (ht : Inv t) : ¬ FaultTaken c s t :=
  fun h => ht.oldPhase (h.fphase.trans hf)

theorem not_faultTaken_of_rsp {c : FaultCause} {s t : State} (hr : t.rsp = s.rsp) : ¬ FaultTaken c s t := by
  intro h
  have := hr.symm.trans h.rsp
  simp at this

/-- The third part: a step that does not run ENCCOEF. -/
theorem coded_step {s t : State} (h : CodedInv s)
    (hi : ∀ w rest ch, s.inputs = .cmd w :: rest → decode w ≠ .ok (.enccoef ch)) (ht : step s = .next t) :
    ¬ FaultTaken .uncoded s t ∧ CodedInv t := by
  have taken (rest : List HostEvent) : CodedInv { s with inputs := rest } :=
    ⟨inv_congr h.inv s.rsp rest s.payloads s.stream.out, h.hspec, h.preds⟩
  match hin : s.inputs with
  | [] =>
    cases (step_idle hin).symm.trans ht
    exact ⟨not_faultTaken_of_rsp rfl, h⟩
  | .rst :: rest =>
    cases (step_rst hin).symm.trans ht
    exact ⟨not_faultTaken_of_rsp rfl, codedInv_doReset (taken rest)⟩
  | .takeOut :: rest =>
    cases (step_takeOut hin).symm.trans ht
    exact ⟨not_faultTaken_of_rsp rfl, inv_congr h.inv s.rsp rest s.payloads [], h.hspec, h.preds⟩
  | .cmd w :: rest =>
    have sameFault (hn : ¬ FaultTaken .uncoded { s with inputs := rest } t) : ¬ FaultTaken .uncoded s t :=
      fun hf => hn ⟨hf.phase, hf.fault, hf.fphase, hf.rsp⟩
    cases hd : decode w with
    | ok i =>
      have he (ch : Channel) : i ≠ .enccoef ch := fun heq => hi w rest ch hin (heq ▸ hd)
      have hx := (step_command hin hd).symm.trans ht
      have after := codedInv_exec (taken rest) he hx
      refine ⟨sameFault ?_, after⟩
      by_cases hf : s.phase = .fault
      · exact not_faultTaken_in_fault hf after.inv
      · exact not_uncoded_of_exec hf he (codedScan_of_inv (taken rest)) hx
    | error e =>
      cases (step_reserved hin hd).symm.trans ht
      by_cases hf : s.phase = .fault
      · rw [reservedWord_in_fault (by exact hf)]
        have after := codedInv_respond (taken rest) (faultField s.fault) 0
        exact ⟨not_faultTaken_in_fault hf after.inv, after⟩
      · rw [reservedWord_of_not_fault (by exact hf)]
        refine ⟨fun hu => ?_, codedInv_takeFault (taken rest) hf _⟩
        cases cause_eq_of_faultTaken hu

/-- Settles O47: the coefficients are in range, so their symbols have codes; the data units hand the range of the predictors
on, and every other command keeps it. -/
theorem transformedUnitsAreCoded : Obligations.TransformedUnitsAreCoded := by
  unfold Obligations.TransformedUnitsAreCoded
  refine ⟨fun s c samples ht hb hsteps hlo hhi => ?units, fun i s t h hi ht => coded_exec h hi ht,
    fun s t hinv hspec hpreds hi ht => ?step⟩
  case units =>
    have range := transformRange_fdctq hb s.build.fdctq samples hsteps
    exact ⟨exists_channelBits ht ⟨hlo, hhi⟩ range hb, range.dc⟩
  case step =>
    obtain ⟨coded, after⟩ := coded_step ⟨hinv, hspec, hpreds⟩ hi ht
    exact ⟨coded, after.inv, after.hspec, after.preds⟩

end Sys2Proof.Machine
end
